-- ==== Sys2Proof/Word.lean ====
section
/-! DEFINITION. The words of the block: bytes, pixels and the unsigned field widths of R6. -/

namespace Sys2Proof

/-- A byte is 8 bits (R60). -/
abbrev Byte := BitVec 8

/-- A pixel is one bit (R10, R26, D31); `!` is the complement `¬v` of R6. -/
abbrev Pixel := Bool

/-- `u16` of R6. -/
abbrev U16 := BitVec 16

/-- `u32` of R6. -/
abbrev U32 := BitVec 32

/-- The command word `W` of R91. -/
abbrev CmdWord := BitVec 64

end Sys2Proof
end

