-- ==== Sys2Proof/Config.lean ====
section
/-! DEFINITION. The parameters of R5 and the free values of the block's unspecified registers. -/

namespace Sys2Proof

/-- `RUN_MAX` (R5): the largest run length one run field holds. -/
@[simp] abbrev Config.runMax : Nat := 65535

/-- `MARKER_BYTES` (R5). -/
@[simp] abbrev Config.markerBytes : Nat := 1

/-- `RUN_FIELD_BYTES` (R5). -/
@[simp] abbrev Config.runFieldBytes : Nat := 2

/-- `OFFSET_BYTES` (R5): bytes per frame-index entry. -/
@[simp] abbrev Config.offsetBytes : Nat := 4

/-- `HEADER_BYTES` (R5). -/
@[simp] abbrev Config.headerBytes : Nat := 12

/-- The largest frame count and the largest total of frame data, `2^32 - 1` (R198, C3). -/
@[simp] abbrev Config.u32Max : Nat := 4294967295

/-- A `BYTEIN` sequence is shorter than `2^35` bytes (R60, U20). -/
@[simp] abbrev Config.byteInLimit : Nat := 34359738368

/-- The working registers whose value between operations the spec leaves unspecified (R27 to R30, R34, U14). -/
inductive WorkReg where
  | encVal | encCnt | encNxt | encFin
  | decCur | decN | decTotal | decPos
  | serI | serOff | serNpx
  | rdrBase | rdrDlen | rdrStart | rdrEnd
  deriving DecidableEq, Repr

/-- FREE VALUE (log 4): what an unspecified working register holds after the `draw`-th time the block left it
unspecified. It has no body, so nothing can be proved of its value. -/
opaque Config.freeWork (w : Nat) (reg : WorkReg) (draw : Nat) : BitVec w

end Sys2Proof
end

