-- ==== Sys2Proof/Syntax.lean ====
section
/-! DEFINITION. The instructions: one constructor per row of the opcode table (R92, R113, R114). -/

namespace Sys2Proof

/-- The five operations (R92), the two elements of the decoder's byte code (R113) and the two fixed records of a
blob (R94, R97). Sequence operands are not in the instruction; they travel on the operand channel (R26, R91). -/
inductive Instr where
  /-- ENCODE (R130). -/
  | encode
  /-- DECODE with the pixel count `N` (R160). -/
  | decode (n : U32)
  /-- BUILD with the three header values (R190). -/
  | build (width height frameRate : U16)
  /-- OPEN (R220). -/
  | openBlob
  /-- FRAMEAT (R230). -/
  | frameat (index : U32)
  /-- MARK, the marker byte of an encoded frame (R101, R113). -/
  | mark (v : Pixel)
  /-- RUN, one run field of an encoded frame (R102, R113). -/
  | run (len : U16)
  /-- HDR, the container header (R94). -/
  | hdr (width height : U16) (frameCount : U32) (frameRate flags : U16)
  /-- IDX, one frame-index entry (R97). -/
  | idx (offset : U32)
  deriving DecidableEq, Repr

/-- The mnemonic of the opcode-table row an instruction is of. -/
def Instr.mnemonic : Instr → String
  | .encode => "ENCODE"
  | .decode _ => "DECODE"
  | .build _ _ _ => "BUILD"
  | .openBlob => "OPEN"
  | .frameat _ => "FRAMEAT"
  | .mark _ => "MARK"
  | .run _ => "RUN"
  | .hdr _ _ _ _ _ => "HDR"
  | .idx _ => "IDX"

/-- The encodings an instruction can have (R90): the command word, the two stream elements, the two records. -/
inductive Format where
  | cmd | mark | run | hdr | idx
  deriving DecidableEq, Repr

/-- The format an instruction is written in (R90, R92, R113). -/
def Instr.format : Instr → Format
  | .encode => .cmd
  | .decode _ => .cmd
  | .build _ _ _ => .cmd
  | .openBlob => .cmd
  | .frameat _ => .cmd
  | .mark _ => .mark
  | .run _ => .run
  | .hdr _ _ _ _ _ => .hdr
  | .idx _ => .idx

end Sys2Proof
end

