-- ==== Sys2Proof/WellFormed.lean ====
section
/-! DEFINITION. Which instructions have an encoding the block accepts. -/

namespace Sys2Proof

/-- Well-formed: the operand widths of R91 to R102 are in the types, so the only check left is the reserved field of
the header, whose one legal value is 0 (R96). -/
def Instr.wf : Instr → Bool
  | .encode => true
  | .decode _ => true
  | .build _ _ _ => true
  | .openBlob => true
  | .frameat _ => true
  | .mark _ => true
  | .run _ => true
  | .hdr _ _ _ _ flags => flags == 0
  | .idx _ => true

end Sys2Proof
end

