-- ==== Sys2Proof/Decode.lean ====
section
/-! DEFINITION. Byte order, the decoder of all five formats, and the encoder. -/

namespace Sys2Proof

/-! ### Byte order (R62) -/

/-- The `n` little-endian bytes of `v`: byte `k` is `v div 256^k mod 256` (R62). -/
def leBytes : Nat → Nat → List Byte
  | 0, _ => []
  | n + 1, v => BitVec.ofNat 8 (v % 256) :: leBytes n (v / 256)

/-- The value of bytes assembled little-endian: the sum of `S[a+k] * 256^k` (R62). -/
def leValue : List Byte → Nat
  | [] => 0
  | b :: bs => b.toNat + 256 * leValue bs

/-- `MemRead(S, a, n)` of R8 over a byte sequence; `none` where the bound `a + n ≤ len(S)` does not hold, so that no
value is made up for a read out of range (R66). -/
def memRead (S : List Byte) (a n : Nat) : Option Nat :=
  if a + n ≤ S.length then some (leValue ((S.drop a).take n)) else none

/-- `LE16` of R131 and R191. -/
def le16 (v : Nat) : List Byte := leBytes 2 v

/-- `LE32` of R191. -/
def le32 (v : Nat) : List Byte := leBytes 4 v

/-- A pixel zero-extended to a byte (R78, R133). -/
def pixelByte (p : Pixel) : Byte := if p then 0x01 else 0x00

/-! ### The command word (R91 to R93) -/

/-- Why bytes are no instruction. -/
inductive DecodeError where
  /-- `op` is 0, 6 or 7 (R93). -/
  | illegalOp
  /-- A must-be-zero field is not 0 (R93). -/
  | mustBeZero
  /-- Fewer bytes than the format has (R66, R162, R165, R222). -/
  | truncated
  /-- A marker byte of `0x02 .. 0xFF` (R101, D12). -/
  | markerValue
  /-- Header `flags` other than 0 (R96). -/
  | reservedFlags
  deriving DecidableEq, Repr

/-- `W[2:0]` (R91). -/
def CmdWord.op (w : CmdWord) : BitVec 3 := w.extractLsb' 0 3

/-- `W[15:3]`, must be 0 (R91). -/
def CmdWord.z (w : CmdWord) : BitVec 13 := w.extractLsb' 3 13

/-- `W[31:16]` (R91). -/
def CmdWord.rate (w : CmdWord) : U16 := w.extractLsb' 16 16

/-- `W[47:32]` (R91). -/
def CmdWord.lo (w : CmdWord) : U16 := w.extractLsb' 32 16

/-- `W[63:48]` (R91). -/
def CmdWord.hi (w : CmdWord) : U16 := w.extractLsb' 48 16

/-- `a32 = W[63:32]` (R91). -/
def CmdWord.a32 (w : CmdWord) : U32 := w.extractLsb' 32 32

/-- The command decoder: the operation `op` names (R92), when every field R91 says must be 0 for that operation is
0; otherwise the word is illegal (R93). -/
def decodeCmd (w : CmdWord) : Except DecodeError Instr :=
  if CmdWord.op w = 1 then
    if CmdWord.z w = 0 ∧ CmdWord.rate w = 0 ∧ CmdWord.a32 w = 0 then .ok .encode else .error .mustBeZero
  else if CmdWord.op w = 2 then
    if CmdWord.z w = 0 ∧ CmdWord.rate w = 0 then .ok (.decode (CmdWord.a32 w)) else .error .mustBeZero
  else if CmdWord.op w = 3 then
    if CmdWord.z w = 0 then .ok (.build (CmdWord.lo w) (CmdWord.hi w) (CmdWord.rate w)) else .error .mustBeZero
  else if CmdWord.op w = 4 then
    if CmdWord.z w = 0 ∧ CmdWord.rate w = 0 ∧ CmdWord.a32 w = 0 then .ok .openBlob else .error .mustBeZero
  else if CmdWord.op w = 5 then
    if CmdWord.z w = 0 ∧ CmdWord.rate w = 0 then .ok (.frameat (CmdWord.a32 w)) else .error .mustBeZero
  else .error .illegalOp

/-- A command word from its fields (R91): `op` at bit 0, `z = 0`, `rate` at bit 16, `lo` at bit 32, `hi` at bit 48. -/
def cmdWord (hi lo rate : U16) (op : BitVec 3) : CmdWord :=
  BitVec.ofNat 64 (op.toNat + 2 ^ 16 * rate.toNat + 2 ^ 32 * lo.toNat + 2 ^ 48 * hi.toNat)

/-! ### The byte formats (R90) -/

/-- The length of each format in bytes (R90). -/
def Format.bytes : Format → Nat
  | .cmd => 8
  | .mark => Config.markerBytes
  | .run => Config.runFieldBytes
  | .hdr => Config.headerBytes
  | .idx => Config.offsetBytes

/-- The five fields of a container header as OPEN reads them (R221 line 2). -/
structure Header where
  width : U16
  height : U16
  frameCount : U32
  frameRate : U16
  flags : U16
  deriving DecidableEq, Repr

/-- The header at offset 0 of a byte sequence, by five `MemRead`s at the offsets of R94; `none` where the bytes end
before it does (R222). -/
def readHeader (S : List Byte) : Option Header := do
  let w ← memRead S 0 2
  let h ← memRead S 2 2
  let fc ← memRead S 4 4
  let fr ← memRead S 8 2
  let fl ← memRead S 10 2
  return ⟨BitVec.ofNat 16 w, BitVec.ofNat 16 h, BitVec.ofNat 32 fc, BitVec.ofNat 16 fr, BitVec.ofNat 16 fl⟩

/-- One instruction of the given format, from exactly the bytes it occupies. -/
def decodeExact (f : Format) (bs : List Byte) : Except DecodeError Instr :=
  match f with
  | .cmd => decodeCmd (BitVec.ofNat 64 (leValue bs))
  | .mark =>
    if leValue bs = 0 then .ok (.mark false) else if leValue bs = 1 then .ok (.mark true) else .error .markerValue
  | .run => .ok (.run (BitVec.ofNat 16 (leValue bs)))
  | .hdr =>
    match readHeader bs with
    | none => .error .truncated
    | some h =>
      if h.flags = 0 then .ok (.hdr h.width h.height h.frameCount h.frameRate h.flags) else .error .reservedFlags
  | .idx => .ok (.idx (BitVec.ofNat 32 (leValue bs)))

/-- The decoder: which format the bytes are in is known from where they stand, never from their value (R113, R90).
It answers the instruction and the bytes after it, or why there is none. -/
def decode (f : Format) (bs : List Byte) : Except DecodeError (Instr × List Byte) :=
  if bs.length < f.bytes then .error .truncated
  else
    match decodeExact f (bs.take f.bytes) with
    | .ok i => .ok (i, bs.drop f.bytes)
    | .error e => .error e

/-! ### The encoder -/

/-- The word of an operation (R92). -/
def encodeCmd : Instr → CmdWord
  | .encode => cmdWord 0 0 0 1
  | .decode n => cmdWord (n.extractLsb' 16 16) (n.extractLsb' 0 16) 0 2
  | .build w h r => cmdWord h w r 3
  | .openBlob => cmdWord 0 0 0 4
  | .frameat k => cmdWord (k.extractLsb' 16 16) (k.extractLsb' 0 16) 0 5
  | .mark _ => 0
  | .run _ => 0
  | .hdr _ _ _ _ _ => 0
  | .idx _ => 0

/-- The bytes of a header (R94, R191 line 7). -/
def encodeHeader (h : Header) : List Byte :=
  le16 h.width.toNat ++ le16 h.height.toNat ++ le32 h.frameCount.toNat ++ le16 h.frameRate.toNat
    ++ le16 h.flags.toNat

/-- The bytes of an instruction, lowest address first: a command word as 8 little-endian bytes (log 21), a marker
byte (R101), a run field (R102), a header (R94), an index entry (R97). -/
def encode : Instr → List Byte
  | .mark v => [pixelByte v]
  | .run len => le16 len.toNat
  | .hdr w h fc fr fl => encodeHeader ⟨w, h, fc, fr, fl⟩
  | .idx off => le32 off.toNat
  | .encode => leBytes 8 (encodeCmd .encode).toNat
  | .decode n => leBytes 8 (encodeCmd (.decode n)).toNat
  | .build w h r => leBytes 8 (encodeCmd (.build w h r)).toNat
  | .openBlob => leBytes 8 (encodeCmd .openBlob).toNat
  | .frameat k => leBytes 8 (encodeCmd (.frameat k)).toNat

/-! ### The opcode table -/

/-- A row of R92: a word `W` selects it when `W and mask = match`. -/
structure CmdRow where
  mnemonic : String
  mask : CmdWord
  pattern : CmdWord
  deriving DecidableEq, Repr

/-- The five rows of R92. -/
def cmdTable : List CmdRow :=
  [⟨"ENCODE", 0xFFFFFFFFFFFFFFFF, 0x0000000000000001⟩,
   ⟨"DECODE", 0x00000000FFFFFFFF, 0x0000000000000002⟩,
   ⟨"BUILD", 0x000000000000FFFF, 0x0000000000000003⟩,
   ⟨"OPEN", 0xFFFFFFFFFFFFFFFF, 0x0000000000000004⟩,
   ⟨"FRAMEAT", 0x00000000FFFFFFFF, 0x0000000000000005⟩]

/-- Whether a word selects a row (R92). -/
def CmdRow.selects (r : CmdRow) (w : CmdWord) : Bool := w &&& r.mask == r.pattern

/-- The format of a table row by the number of bits the table gives it (log 17). -/
def formatOfBits (nbits : Nat) : Option Format :=
  if nbits = 64 then some .cmd
  else if nbits = 8 then some .mark
  else if nbits = 16 then some .run
  else if nbits = 96 then some .hdr
  else if nbits = 32 then some .idx
  else none

/-- What the decoder reads from the instruction whose bits, numbered as the opcode table numbers them, are `w`. -/
def decodeTableWord (nbits w : Nat) : Option Instr :=
  match formatOfBits nbits with
  | none => none
  | some f =>
    match decode f (leBytes f.bytes w) with
    | .ok (i, _) => some i
    | .error _ => none

end Sys2Proof
end

