-- ==== Sys2Proof/Machine/State.lean ====
section
/-! DEFINITION. Everything the spec gives the block to hold (R20 to R36), as plain data, and its value after reset. -/

namespace Sys2Proof.Machine

open Sys2Proof

/-- The values of `STATUS.code` (R22). The reserved codes 6 and 7 are never written and have no name (U15). -/
inductive Code where
  | ok | dimensionError | formatError | indexError | capacityError | commandError
  deriving DecidableEq, Repr

/-- A byte memory: address and byte pairs, addresses strictly rising (`Memory.wf`). An address that is not listed
holds no byte and reads as none (R66, log 9). -/
abbrev Memory := List Host.Cell

/-- The handle: the registers of R23 and `HND_BLOB` of R24. -/
structure Handle where
  /-- `HND_VALID` -/
  valid : Bool
  /-- `HND_WIDTH` -/
  width : U16
  /-- `HND_HEIGHT` -/
  height : U16
  /-- `HND_FCOUNT` -/
  fcount : U32
  /-- `HND_RATE` -/
  rate : U16
  /-- `HND_FLAGS` -/
  flags : U16
  /-- `HND_BLOBLEN` -/
  blobLen : BitVec 35
  /-- `HND_BLOB` -/
  blob : Memory
  deriving DecidableEq, Repr

/-- The states of `ENC` (R27). -/
inductive EncSt where
  | idle | accumulating | flush | overflowSplit | done
  deriving DecidableEq, Repr

/-- The working registers of `ENC` (R27). -/
structure Enc where
  st : EncSt
  val : Pixel
  cnt : BitVec 16
  nxt : Pixel
  fin : Bool
  deriving DecidableEq, Repr

/-- The states of `DEC` (R28). -/
inductive DecSt where
  | idle | marker | runs | done
  deriving DecidableEq, Repr

/-- The working registers of `DEC` (R28). -/
structure Dec where
  st : DecSt
  cur : Pixel
  n : BitVec 32
  total : BitVec 32
  pos : BitVec 35
  deriving DecidableEq, Repr

/-- The phases of `SER` (R204), `idle` between operations (R300). -/
inductive SerPhase where
  | idle | check | encode | emitHdr | emitIdx | emitData | done
  deriving DecidableEq, Repr

/-- The working registers of `SER` (R29, R204). -/
structure Ser where
  phase : SerPhase
  i : BitVec 33
  off : BitVec 33
  npx : BitVec 32
  deriving DecidableEq, Repr

/-- The working registers of `RDR` (R30); `stop` is `RDR.end`. -/
structure Rdr where
  base : BitVec 35
  dlen : BitVec 35
  start : BitVec 35
  stop : BitVec 35
  deriving DecidableEq, Repr

/-- The operand channel (R26): `PIXIN`, a list of pixel sequences, and `BYTEIN`, a byte sequence or none given. -/
structure Operand where
  pixIn : List (List Pixel)
  byteIn : Option (List Byte)
  deriving DecidableEq, Repr

/-- No sequence on the operand channel: what it carries whenever no operation is in progress, since operands do not
persist (R26; log 14). -/
abbrev Operand.empty : Operand := ⟨[], none⟩

/-- One command as the host presents it: the word (R91) and the operand that comes with it (R26). -/
structure Request where
  word : CmdWord
  operand : Operand
  deriving DecidableEq, Repr

/-- What the host can do to the block, in the order it does it (log 1). -/
inductive Input where
  /-- A command; the operation it starts is one atomic transition (R70). -/
  | command (r : Request)
  /-- The same command with its operation opened up into the steps of the units (R137 to R145, R170 to R174, R204;
  log 2). -/
  | stepped (r : Request)
  /-- The reset event (R300). -/
  | reset
  deriving DecidableEq, Repr

/-- The result on the response channel (R26). -/
inductive Result where
  | none
  /-- `BYTEOUT` -/
  | bytes (b : List Byte)
  /-- `PIXOUT` -/
  | pixels (p : List Pixel)
  deriving DecidableEq, Repr

/-- What the response channel carries when an operation ends (R26). -/
structure Response where
  code : Code
  result : Result
  deriving DecidableEq, Repr

/-- Which index entry a FRAMEAT in progress reads next (R235). -/
inductive Entry where
  | start | stop
  deriving DecidableEq, Repr

/-- A BUILD in progress: its scalar operands, the frames `CHECK` has not come to, the part of the current frame `ENC`
has not consumed and the bytes it has emitted for it, the encoded frames and offsets so far, and the commit buffer (R33,
R191, R204). -/
structure Building where
  width : U16
  height : U16
  rate : U16
  unchecked : List (List Pixel)
  rest : List Pixel
  cur : List Byte
  encoded : List (List Byte)
  offsets : List Nat
  out : List Byte
  deriving DecidableEq, Repr

/-- The operation in progress and its hidden data (R33 (b), R137, R171; log 2). -/
inductive Flight where
  /-- No operation is in progress. -/
  | idle
  /-- ENCODE: the pixels not yet consumed (`in` of R137) and the commit buffer. -/
  | encoding (rest : List Pixel) (out : List Byte)
  /-- DECODE, or the decode of a FRAMEAT: the pixel count `N`, the slice and the commit buffer. -/
  | decoding (byFrameAt : Bool) (n : U32) (slice : List Byte) (out : List Pixel)
  /-- OPEN: the blob whose header is to be read. -/
  | opening (blob : List Byte)
  /-- FRAMEAT before its slice is known. -/
  | seeking (index : U32) (entry : Entry)
  /-- BUILD. -/
  | building (b : Building)
  deriving DecidableEq, Repr

/-- The whole state of the block. -/
structure State where
  /-- `STATUS.code` (R22) -/
  status : Code
  /-- the handle (R23, R24) -/
  hnd : Handle
  /-- `ENC.*` (R27) -/
  enc : Enc
  /-- `DEC.*` (R28) -/
  dec : Dec
  /-- `SER.*` (R29) -/
  ser : Ser
  /-- `RDR.*` (R30) -/
  rdr : Rdr
  /-- the command channel and the reset input: what the host does next, first first (R26, R300; log 1) -/
  input : List Input
  /-- the operand channel: the operand of the operation in progress, and nothing between operations (R26; log 14) -/
  operand : Operand
  /-- the response channel: the response passed with the step that has just ended an operation, and nothing after any
  other step (R26; log 13) -/
  response : Option Response
  /-- the operation in progress (R33, log 2) -/
  flight : Flight
  /-- the model's own counter of draws from `Config.freeWork` (log 4) -/
  fresh : Nat
  deriving DecidableEq, Repr

/-- No step of this block stops the machine with a fault: every fault of R260 is a status code in a next state
(R268, R270), so there is no constructor (log 19). -/
inductive Fault where
  deriving DecidableEq, Repr

/-- The situations the spec says the model has no move for ("refuse" of spec/93_implementation_defined.md), and an
instruction without a meaning. -/
inductive Refusal where
  /-- `exec`'s arm of an instruction that has no meaning yet; safe. No arm raises it. -/
  | notModelled (mnemonic : String)
  /-- The meanings of DECODE and OPEN, given `2^35` bytes or more, which cannot be presented (R60, U20); safe
  (log 6). -/
  | byteInTooLong
  /-- The meanings of the five operations while another is in progress (R303, U16); safe (log 7). -/
  | operationInProgress
  /-- The meanings of MARK, RUN, HDR and IDX, and the start of a stepped operation, where no unit awaits that element
  (R113, R170); safe (log 8). -/
  | elementNotDue
  deriving DecidableEq, Repr

/-- The handle after reset (R34). -/
def Handle.reset : Handle := ⟨false, 0, 0, 0, 0, 0, 0, []⟩

/-- The block right after reset: R34 for `STATUS.code`, the handle and the unit states; zero for the working
registers, which the spec leaves unspecified (DESIGN CHOICE, log 3); nothing presented, nothing pending. -/
def State.reset : State where
  status := .ok
  hnd := Handle.reset
  enc := ⟨.idle, false, 0, false, false⟩
  dec := ⟨.idle, false, 0, 0, 0⟩
  ser := ⟨.idle, 0, 0, 0⟩
  rdr := ⟨0, 0, 0, 0⟩
  input := []
  operand := Operand.empty
  response := none
  flight := .idle
  fresh := 0

end Sys2Proof.Machine
end

