-- ==== Sys2Proof/Machine/Flags.lean ====
section
/-! DEFINITION. The flag-like state (R32): the numbers of `STATUS.code` and what the host reads in the registers. -/

namespace Sys2Proof.Machine

/-- `STATUS[2:0]` (R22, D4). -/
def Code.bits : Code → BitVec 3
  | .ok => 0
  | .dimensionError => 1
  | .formatError => 2
  | .indexError => 3
  | .capacityError => 4
  | .commandError => 5

/-- The register of an ordinal as the host reads it, zero-extended: 0 is `STATUS` (R22), 1 to 7 the handle registers
(R23). No other register is readable by the host (R24, R35). -/
def State.hostRead (s : State) (ordinal : Nat) : Option (BitVec 35) :=
  match ordinal with
  | 0 => some (s.status.bits.setWidth 35)
  | 1 => some ((BitVec.ofBool s.hnd.valid).setWidth 35)
  | 2 => some (s.hnd.width.setWidth 35)
  | 3 => some (s.hnd.height.setWidth 35)
  | 4 => some (s.hnd.fcount.setWidth 35)
  | 5 => some (s.hnd.rate.setWidth 35)
  | 6 => some (s.hnd.flags.setWidth 35)
  | 7 => some s.hnd.blobLen
  | _ => none

end Sys2Proof.Machine
end

