-- ==== Sys2Proof/Machine/Ops.lean ====
section
/-! DEFINITION. The named operations: the blob memory, the end of an operation, and fault entry. -/

namespace Sys2Proof.Machine

open Sys2Proof

/-! ### Memory (R24, R60, R66) -/

/-- Every listed address is above `k`, and addresses strictly rise. -/
def Memory.above (k : Nat) : Memory → Bool
  | [] => true
  | (a, _) :: m => decide (k < a) && Memory.above a m

/-- The canonical form: addresses strictly rising. An unlisted address reads as no byte, so no entry can equal what
an unlisted address reads as (log 9). -/
def Memory.wf : Memory → Bool
  | [] => true
  | (a, _) :: m => Memory.above a m

/-- The byte at an address, or none where nothing is stored. -/
def Memory.read : Memory → Nat → Option Byte
  | [], _ => none
  | (k, b) :: m, a => if k = a then some b else Memory.read m a

/-- Store one byte. -/
def Memory.write : Memory → Nat → Byte → Memory
  | [], a, v => [(a, v)]
  | (k, b) :: m, a, v =>
    if a < k then (a, v) :: (k, b) :: m
    else if a = k then (k, v) :: m
    else (k, b) :: Memory.write m a v

/-- Store bytes at consecutive addresses from `a` up. -/
def Memory.writeBytes (m : Memory) (a : Nat) : List Byte → Memory
  | [] => m
  | b :: bs => Memory.writeBytes (Memory.write m a b) (a + 1) bs

/-- A byte sequence laid out from address `k`. -/
def Memory.loadFrom (k : Nat) : List Byte → Memory
  | [] => []
  | b :: bs => (k, b) :: Memory.loadFrom (k + 1) bs

/-- The memory that holds exactly a byte sequence, its byte `i` at address `i` (R24: whole replacement). -/
def Memory.load (bs : List Byte) : Memory := Memory.loadFrom 0 bs

/-- The `n` bytes `[a, a+n)`, or none where one of them is not there (R66). -/
def Memory.readBytes (m : Memory) (a : Nat) : Nat → Option (List Byte)
  | 0 => some []
  | n + 1 =>
    match Memory.read m a, Memory.readBytes m (a + 1) n with
    | some b, some bs => some (b :: bs)
    | _, _ => none

/-- `MemRead(S, a, n)` over the blob memory (R8, R62). -/
def Memory.readLE (m : Memory) (a n : Nat) : Option Nat := (Memory.readBytes m a n).map leValue

/-! ### Leaving working registers unspecified (R27 to R30, U14, log 4) -/

/-- The 1-bit form of a free value. -/
def freeBit (reg : WorkReg) (draw : Nat) : Bool := (Config.freeWork 1 reg draw).getLsbD 0

/-- `ENC` between operations: `IDLE`, the other registers unspecified (R27). -/
def State.freeEnc (s : State) : State :=
  { s with
    enc := ⟨.idle, freeBit .encVal s.fresh, Config.freeWork 16 .encCnt s.fresh, freeBit .encNxt s.fresh,
      freeBit .encFin s.fresh⟩
    fresh := s.fresh + 1 }

/-- `DEC` between operations: `IDLE`, the other registers unspecified (R28). -/
def State.freeDec (s : State) : State :=
  { s with
    dec := ⟨.idle, freeBit .decCur s.fresh, Config.freeWork 32 .decN s.fresh, Config.freeWork 32 .decTotal s.fresh,
      Config.freeWork 35 .decPos s.fresh⟩
    fresh := s.fresh + 1 }

/-- `SER` between operations (R29, R34). -/
def State.freeSer (s : State) : State :=
  { s with
    ser := ⟨.idle, Config.freeWork 33 .serI s.fresh, Config.freeWork 33 .serOff s.fresh,
      Config.freeWork 32 .serNpx s.fresh⟩
    fresh := s.fresh + 1 }

/-- `RDR` between operations (R30, R34). -/
def State.freeRdr (s : State) : State :=
  { s with
    rdr := ⟨Config.freeWork 35 .rdrBase s.fresh, Config.freeWork 35 .rdrDlen s.fresh,
      Config.freeWork 35 .rdrStart s.fresh, Config.freeWork 35 .rdrEnd s.fresh⟩
    fresh := s.fresh + 1 }

/-- Leave unspecified the registers of the units the operation in progress has been using (R35). With no operation in
progress nothing changes. -/
def State.release (s : State) : State :=
  match s.flight with
  | .idle => s
  | .encoding _ _ => s.freeEnc
  | .decoding false _ _ _ => s.freeDec
  | .decoding true _ _ _ => s.freeDec.freeRdr
  | .opening _ => s
  | .seeking _ _ => s.freeRdr
  | .building _ => s.freeSer.freeEnc

/-! ### The end of an operation -/

/-- Every unit's state register is `IDLE` and no operation is in progress; the commit buffer goes with it (R33,
R268). -/
def State.unitsIdle (s : State) : State :=
  { s with
    enc := { s.enc with st := .idle }
    dec := { s.dec with st := .idle }
    ser := { s.ser with phase := .idle }
    flight := .idle }

/-- No operation is in progress and every unit's state register is `IDLE`: what the block is between operations (R27,
R28, R34). -/
abbrev State.UnitsIdle (s : State) : Prop :=
  s.flight = .idle ∧ s.enc.st = .idle ∧ s.dec.st = .idle ∧ s.ser.phase = .idle

/-- The end of an operation: `STATUS.code` is written and the response delivered; the operand does not persist (R22,
R26). -/
def respond (c : Code) (r : Result) (s : State) : State :=
  { s.release.unitsIdle with status := c, response := some ⟨c, r⟩, operand := Operand.empty }

/-- FAULT ENTRY, `raise E` of R268: `STATUS.code` gets the code, the response carries the code and no result, the
partial output is discarded, every unit returns to `IDLE`, nothing else changes. There is no return from a fault: the
next command runs normally (R270). -/
def raise (c : Code) (s : State) : State := respond c .none s

/-- `return x` of R8: the operation ends with `OK` and delivers its result. -/
def deliver (r : Result) (s : State) : State := respond .ok r s

end Sys2Proof.Machine
end

