-- ==== Sys2Proof/Machine/Operands.lean ====
section
/-! DEFINITION. The operand forms of the operations: what each takes from the operand channel, and what happens when it
is not there (R93). -/

namespace Sys2Proof.Machine

open Sys2Proof

/-- An operation starts only when none is in progress; the model has no other move (R303, U16, log 7). -/
def whenIdle (s : State) (k : Host.Outcome State Fault Refusal) : Host.Outcome State Fault Refusal :=
  match s.flight with
  | .idle => k
  | _ => .refused .operationInProgress

/-- ENCODE's operand: `PIXIN` must hold exactly one pixel sequence, else `CommandError` (R93, R130). -/
def withFrame (s : State) (k : List Pixel → Host.Outcome State Fault Refusal) :
    Host.Outcome State Fault Refusal :=
  match s.operand.pixIn with
  | [f] => k f
  | _ => .next (raise .commandError s)

/-- The operand of DECODE and OPEN: `BYTEIN` must be given, else `CommandError` (R93). A sequence of `2^35` bytes or
more cannot be presented (R60, U20, log 6). -/
def withBytes (s : State) (k : List Byte → Host.Outcome State Fault Refusal) :
    Host.Outcome State Fault Refusal :=
  match s.operand.byteIn with
  | none => .next (raise .commandError s)
  | some b => if b.length < Config.byteInLimit then k b else .refused .byteInTooLong

end Sys2Proof.Machine
end

