-- ==== Sys2Proof/Machine/Encoder.lean ====
section
/-! DEFINITION. Unit `ENC`: the function `Encode` (R131), the operation ENCODE (R130) and the state machine of the unit
(R137 to R145). -/

namespace Sys2Proof.Machine

open Sys2Proof

/-- Lines 3 to 6 of R131: `v` is the value of the run being accumulated, `c` its count. -/
def encodeScan (v : Pixel) (c : Nat) : List Pixel → List Byte
  | [] => le16 c
  | p :: rest =>
    if p = v then
      if c = Config.runMax then [0xFF, 0xFF, 0x00, 0x00] ++ encodeScan v 1 rest
      else encodeScan v (c + 1) rest
    else le16 c ++ encodeScan p 1 rest

/-- `Encode(F)` (R131). -/
def encodeFrame : List Pixel → List Byte
  | [] => [0x00]
  | p :: rest => pixelByte p :: encodeScan p 1 rest

/-- ENCODE (R130): every pixel sequence has an encoding. -/
def execEncode (s : State) : Host.Outcome State Fault Refusal :=
  whenIdle s <| withFrame s fun f => .next (deliver (.bytes (encodeFrame f)) s.freeEnc)

/-- One step of the machine of `ENC` on its registers, the unread pixels and the output (R138 to R145). `DONE` has no
step. -/
def encStep (e : Enc) (rest : List Pixel) (out : List Byte) : Enc × List Pixel × List Byte :=
  match e.st, rest with
  | .idle, [] => ({ e with st := .done }, [], out ++ [0x00])
  | .idle, p :: rest => ({ e with st := .accumulating, val := p, cnt := 1 }, rest, out ++ [pixelByte p])
  | .accumulating, p :: rest =>
    if p = e.val then
      if e.cnt.toNat < Config.runMax then ({ e with cnt := e.cnt + 1 }, rest, out)
      else ({ e with st := .overflowSplit }, rest, out)
    else ({ e with st := .flush, nxt := p, fin := false }, rest, out)
  | .accumulating, [] => ({ e with st := .flush, fin := true }, [], out)
  | .flush, rest =>
    if e.fin then ({ e with st := .done }, rest, out ++ le16 e.cnt.toNat)
    else ({ e with st := .accumulating, val := e.nxt, cnt := 1 }, rest, out ++ le16 e.cnt.toNat)
  | .overflowSplit, rest =>
    ({ e with st := .accumulating, cnt := 1 }, rest, out ++ le16 Config.runMax ++ le16 0)
  | .done, rest => (e, rest, out)

/-- A step of an ENCODE in progress; at `DONE` the operation ends and its bytes are delivered (R130, R147). -/
def stepEncoding (s : State) (rest : List Pixel) (out : List Byte) : State :=
  match s.enc.st with
  | .done => deliver (.bytes out) s
  | _ =>
    let r := encStep s.enc rest out
    { s with enc := r.1, flight := .encoding r.2.1 r.2.2 }

end Sys2Proof.Machine
end

