-- ==== Sys2Proof/Machine/Builder.lean ====
section
/-! DEFINITION. Unit `SER`: the function `Build` (R191), the operation BUILD (R190) and the phases of the unit
(R204). -/

namespace Sys2Proof.Machine

open Sys2Proof

/-- Lines 4 to 6 of R191 from the cumulative length `off`: the offsets and the encoded frames, or none where the total
passes `2^32 - 1` (R198). -/
def encodeAll (off : Nat) : List (List Pixel) → Option (List Nat × List (List Byte))
  | [] => some ([], [])
  | f :: fs =>
    if off + (encodeFrame f).length > Config.u32Max then none
    else
      match encodeAll (off + (encodeFrame f).length) fs with
      | none => none
      | some (offs, es) => some (off :: offs, encodeFrame f :: es)

/-- The header BUILD emits (line 7 of R191, R195). -/
def builtHeader (width height rate : U16) (n : Nat) : List Byte :=
  le16 width.toNat ++ le16 height.toNat ++ le32 n ++ le16 rate.toNat ++ le16 0

/-- Lines 7 to 9 of R191. -/
def assembleBlob (width height rate : U16) (offs : List Nat) (es : List (List Byte)) : List Byte :=
  builtHeader width height rate es.length ++ offs.flatMap le32 ++ es.flatten

/-- Lines 1 to 3 of R191, in the order of R267: the fault they raise, or none. -/
def buildCheck (frames : List (List Pixel)) (width height : U16) : Option Code :=
  if width.toNat * height.toNat = 0 then some .dimensionError
  else if frames.any (fun f => f.length ≠ width.toNat * height.toNat) then some .dimensionError
  else if frames.length > Config.u32Max then some .capacityError
  else none

/-- `Build(frames, width, height, frame_rate)` (R191). -/
def buildBlob (frames : List (List Pixel)) (width height rate : U16) : Except Code (List Byte) :=
  match buildCheck frames width height with
  | some c => .error c
  | none =>
    match encodeAll 0 frames with
    | none => .error .capacityError
    | some (offs, es) => .ok (assembleBlob width height rate offs es)

/-- BUILD (R190): all frames of `PIXIN`, in order. -/
def execBuild (width height frameRate : U16) (s : State) : Host.Outcome State Fault Refusal :=
  whenIdle s <|
    match buildBlob s.operand.pixIn width height frameRate with
    | .error c => .next (raise c s)
    | .ok blob => .next (deliver (.bytes blob) s.freeSer.freeEnc)

/-- The number of the next frame to be checked: one more, but never past `2^32`, the first number that says the list is
too long (R29, R198; log 23). -/
def nextChecked (i : BitVec 33) : BitVec 33 := if i.toNat > Config.u32Max then i else i + 1

/-- A step of a BUILD in progress (R204). `SER.i` numbers the frame that is checked, encoded or indexed (R29). `CHECK`
tests `SER.npx` (line 1 of R191), then one frame a step (line 2), then their number (line 3). In phase `ENCODE` the unit
drives `ENC` once per frame, started from `IDLE` (R193); a frame's offset and length are entered when `ENC` is `DONE`,
with the sum computed exactly (R198, log 22). `EMIT_IDX` emits one entry a step. -/
def stepBuilding (s : State) (b : Building) : State :=
  match s.ser.phase with
  | .idle => s
  | .check =>
    if s.ser.npx = 0 then raise .dimensionError s
    else
      match b.unchecked with
      | f :: rest =>
        if f.length ≠ s.ser.npx.toNat then raise .dimensionError s
        else
          { s with
            ser := { s.ser with i := nextChecked s.ser.i }
            flight := .building { b with unchecked := rest } }
      | [] =>
        if s.ser.i.toNat > Config.u32Max then raise .capacityError s
        else { s with ser := { s.ser with phase := .encode, i := 0, off := 0 } }
  | .encode =>
    match s.enc.st with
    | .idle =>
      match s.operand.pixIn[s.ser.i.toNat]? with
      | none => { s with ser := { s.ser with phase := .emitHdr } }
      | some f =>
        let r := encStep s.enc f []
        { s with enc := r.1, flight := .building { b with rest := r.2.1, cur := r.2.2 } }
    | .done =>
      if s.ser.off.toNat + b.cur.length > Config.u32Max then raise .capacityError s
      else
        { s with
          enc := { s.enc with st := .idle }
          ser := { s.ser with i := s.ser.i + 1, off := s.ser.off + BitVec.ofNat 33 b.cur.length }
          flight := .building { b with
            cur := [], encoded := b.encoded ++ [b.cur], offsets := b.offsets ++ [s.ser.off.toNat] } }
    | _ =>
      let r := encStep s.enc b.rest b.cur
      { s with enc := r.1, flight := .building { b with rest := r.2.1, cur := r.2.2 } }
  | .emitHdr =>
    { s with
      ser := { s.ser with phase := .emitIdx, i := 0 }
      flight := .building { b with out := builtHeader b.width b.height b.rate b.encoded.length } }
  | .emitIdx =>
    match b.offsets[s.ser.i.toNat]? with
    | some off =>
      { s with ser := { s.ser with i := s.ser.i + 1 }, flight := .building { b with out := b.out ++ le32 off } }
    | none => { s with ser := { s.ser with phase := .emitData } }
  | .emitData =>
    { s with
      ser := { s.ser with phase := .done }
      flight := .building { b with out := b.out ++ b.encoded.flatten } }
  | .done => deliver (.bytes b.out) s

end Sys2Proof.Machine
end

