-- ==== Sys2Proof/Machine/Decoder.lean ====
section
/-! DEFINITION. Unit `DEC`: the function `Decode` (R161), the operation DECODE (R160), the elements MARK and RUN of the
unit's byte code (R113) and the rest of its state machine (R170 to R174). -/

namespace Sys2Proof.Machine

open Sys2Proof

/-- The loop of R161 from `cur` and `total`, on the bytes from `pos` on: the pixels it appends, or none where it raises
`FormatError`. -/
def decodeRuns (n : Nat) (cur : Pixel) (total : Nat) : List Byte → Option (List Pixel)
  | [] => if total = n then some [] else none
  | [_] => none
  | l :: h :: rest =>
    if leValue [l, h] > n - total then none
    else (decodeRuns n (!cur) (total + leValue [l, h]) rest).map (List.replicate (leValue [l, h]) cur ++ ·)

/-- `Decode(B, N)` (R161): the pixels, or none where it raises `FormatError`. -/
def decodeFrame (B : List Byte) (n : Nat) : Option (List Pixel) :=
  match B with
  | [] => none
  | m :: rest => if m.toNat > 1 then none else decodeRuns n (m.getLsbD 0) 0 rest

/-- DECODE (R160). -/
def execDecode (n : U32) (s : State) : Host.Outcome State Fault Refusal :=
  whenIdle s <| withBytes s fun B =>
    match decodeFrame B n.toNat with
    | none => .next (raise .formatError s)
    | some px => .next (deliver (.pixels px) s.freeDec)

/-- MARK (R163, R172): `DEC` in state `MARKER` takes its starting value. -/
def execMark (v : Pixel) (s : State) : Host.Outcome State Fault Refusal :=
  match s.flight, s.dec.st with
  | .decoding _ _ _ _, .marker => .next { s with dec := { s.dec with cur := v, pos := 1, st := .runs } }
  | _, _ => .refused .elementNotDue

/-- RUN (R164, R166, R173): `DEC` in state `RUNS` appends `len` copies of the current value and flips it, or raises
`FormatError` where the total would pass `N`. -/
def execRun (len : U16) (s : State) : Host.Outcome State Fault Refusal :=
  match s.flight, s.dec.st with
  | .decoding byFrameAt n slice out, .runs =>
    if len.toNat > s.dec.n.toNat - s.dec.total.toNat then .next (raise .formatError s)
    else
      .next { s with
        dec := { s.dec with
          cur := !s.dec.cur, total := s.dec.total + len.setWidth 32, pos := s.dec.pos + 2 }
        flight := .decoding byFrameAt n slice (out ++ List.replicate len.toNat s.dec.cur) }
  | _, _ => .refused .elementNotDue

/-- The steps of a decode in progress that run no element: the start (R171), the end (R174) and, at `DONE`, the
delivery of the pixels. -/
def stepDecoding (s : State) (n : U32) (slice : List Byte) (out : List Pixel) : State :=
  match s.dec.st with
  | .idle => { s with dec := { s.dec with n := n, total := 0, pos := 0, st := .marker } }
  | .marker => s
  | .runs =>
    if slice.length - s.dec.pos.toNat = 1 then raise .formatError s
    else if s.dec.total ≠ s.dec.n then raise .formatError s
    else { s with dec := { s.dec with st := .done } }
  | .done => deliver (.pixels out) s

end Sys2Proof.Machine
end

