-- ==== Sys2Proof/Machine/Reader.lean ====
section
/-! DEFINITION. Unit `RDR`: the procedures `Open` (R221) and `FrameAt` (R231), the operations OPEN (R220) and FRAMEAT
(R230), and the records HDR (R94) and IDX (R97) as the unit reads them. -/

namespace Sys2Proof.Machine

open Sys2Proof

/-! ### OPEN -/

/-- Lines 3 to 6 of R221: the checks on the header fields of `blob`, in exact arithmetic (R69), and the commit of the
handle (R228). A failed OPEN leaves the handle as it was (R229). -/
def admitHeader (width height : U16) (frameCount : U32) (frameRate flags : U16) (blob : List Byte) (s : State) :
    State :=
  if flags ≠ 0 then raise .formatError s
  else if blob.length < Config.headerBytes + Config.offsetBytes * frameCount.toNat then raise .formatError s
  else if width.toNat * height.toNat = 0 then raise .formatError s
  else
    deliver .none { s with
      hnd :=
        { valid := true, width := width, height := height, fcount := frameCount, rate := frameRate,
          flags := flags, blobLen := BitVec.ofNat 35 blob.length, blob := Memory.load blob } }

/-- `Open(blob)` (R221). -/
def openBlob (blob : List Byte) (s : State) : State :=
  match readHeader blob with
  | none => raise .formatError s
  | some h => admitHeader h.width h.height h.frameCount h.frameRate h.flags blob s

/-- OPEN (R220). -/
def execOpenBlob (s : State) : Host.Outcome State Fault Refusal :=
  whenIdle s <| withBytes s fun blob => .next (openBlob blob s)

/-- HDR (R94): the header record an OPEN in progress reads (R221 lines 2 to 6; log 16). -/
def execHdr (width height : U16) (frameCount : U32) (frameRate flags : U16) (s : State) :
    Host.Outcome State Fault Refusal :=
  match s.flight with
  | .opening blob => .next (admitHeader width height frameCount frameRate flags blob s)
  | _ => .refused .elementNotDue

/-! ### FRAMEAT -/

/-- The blob address of index entry `i` (R67, R97). -/
def entryAddr (i : Nat) : Nat := Config.headerBytes + Config.offsetBytes * i

/-- The blob address of the frame-data section (R68, R234). -/
def dataBase (h : Handle) : Nat := entryAddr h.fcount.toNat

/-- The length of the frame-data section (R234). -/
def dataLen (h : Handle) : Nat := h.blobLen.toNat - dataBase h

/-- The pixel count of every frame of the open blob (R237). -/
def framePixels (h : Handle) : Nat := h.width.toNat * h.height.toNat

/-- The byte range of a frame as offsets into the frame-data section (R231 line 4, R235); none where an index entry
lies outside the blob, which an open handle excludes (R66, log 9). -/
def frameRange (h : Handle) (index : Nat) : Option (Nat × Nat) :=
  match Memory.readLE h.blob (entryAddr index) 4 with
  | none => none
  | some start =>
    if index + 1 < h.fcount.toNat then (Memory.readLE h.blob (entryAddr (index + 1)) 4).map (start, ·)
    else some (start, dataLen h)

/-- The bytes `[start, stop)` of the frame-data section; none where they are no range inside it (R231 line 5, R236). -/
def frameSlice (h : Handle) (start stop : Nat) : Option (List Byte) :=
  if start > stop ∨ stop > dataLen h then none
  else Memory.readBytes h.blob (dataBase h + start) (stop - start)

/-- Lines 1 and 2 of R231 in the order of R267: the fault they raise, or none. -/
def frameAtCheck (h : Handle) (index : U32) : Option Code :=
  if h.valid = false then some .commandError
  else if index.toNat ≥ h.fcount.toNat then some .indexError
  else none

/-- `FrameAt(index)` (R231) on a handle: the frame, or the fault it raises. -/
def frameAt (h : Handle) (index : U32) : Except Code (List Pixel) :=
  match frameAtCheck h index with
  | some c => .error c
  | none =>
    match frameRange h index.toNat with
    | none => .error .formatError
    | some (start, stop) =>
      match frameSlice h start stop with
      | none => .error .formatError
      | some slice =>
        match decodeFrame slice (framePixels h) with
        | none => .error .formatError
        | some px => .ok px

/-- FRAMEAT (R230). -/
def execFrameat (index : U32) (s : State) : Host.Outcome State Fault Refusal :=
  whenIdle s <|
    match frameAt s.hnd index with
    | .error c => .next (raise c s)
    | .ok px => .next (deliver (.pixels px) s.freeDec.freeRdr)

/-- Lines 5 and 6 of R231 for a FRAMEAT in progress whose range is in `RDR.start` and `RDR.end`: the range check, and
the slice handed to `DEC` (R236, R237). -/
def sliceFrame (s : State) : State :=
  match frameSlice s.hnd s.rdr.start.toNat s.rdr.stop.toNat with
  | none => raise .formatError s
  | some slice => { s with flight := .decoding true (BitVec.ofNat 32 (framePixels s.hnd)) slice [] }

/-- IDX (R97): the index entry a FRAMEAT in progress reads (R231 line 4, R235; log 16). Entry `index` gives `RDR.start`;
entry `index + 1`, or the end of the blob where there is none, gives `RDR.end`. -/
def execIdx (offset : U32) (s : State) : Host.Outcome State Fault Refusal :=
  match s.flight with
  | .seeking index .start =>
    if index.toNat + 1 < s.hnd.fcount.toNat then
      .next { s with rdr := { s.rdr with start := offset.setWidth 35 }, flight := .seeking index .stop }
    else .next (sliceFrame { s with rdr := { s.rdr with start := offset.setWidth 35, stop := s.rdr.dlen } })
  | .seeking _ .stop => .next (sliceFrame { s with rdr := { s.rdr with stop := offset.setWidth 35 } })
  | _ => .refused .elementNotDue

end Sys2Proof.Machine
end

