-- ==== Sys2Proof/Machine/Dispatch.lean ====
section
/-! DEFINITION. The meaning of every instruction, one arm each. -/

namespace Sys2Proof.Machine

open Sys2Proof

def exec (i : Instr) (s : State) : Host.Outcome State Fault Refusal :=
  match i with
  | .encode => Sys2Proof.Machine.execEncode s
  | .decode n => Sys2Proof.Machine.execDecode n s
  | .build width height frameRate => Sys2Proof.Machine.execBuild width height frameRate s
  | .openBlob => Sys2Proof.Machine.execOpenBlob s
  | .frameat index => Sys2Proof.Machine.execFrameat index s
  | .mark v => Sys2Proof.Machine.execMark v s
  | .run len => Sys2Proof.Machine.execRun len s
  | .hdr width height frameCount frameRate flags => Sys2Proof.Machine.execHdr width height frameCount frameRate flags s
  | .idx offset => Sys2Proof.Machine.execIdx offset s

end Sys2Proof.Machine
end

