-- ==== Sys2Proof/Machine/Units.lean ====
section
/-! DEFINITION. The start of an operation that is run by the steps of the units, and the steps of its units that run no
instruction (log 2). -/

namespace Sys2Proof.Machine

open Sys2Proof

/-- Start an operation so that the units' own steps run it: the operand shapes of R93, `npx` of R191 for BUILD, lines 1
to 3 of R231 for FRAMEAT, and the input of the unit. -/
def startOp (i : Instr) (s : State) : Host.Outcome State Fault Refusal :=
  match i with
  | .encode => whenIdle s <| withFrame s fun f => .next { s with flight := .encoding f [] }
  | .decode n => whenIdle s <| withBytes s fun B => .next { s with flight := .decoding false n B [] }
  | .build width height rate =>
    whenIdle s <|
      .next { s with
        ser := { phase := .check, i := 0, off := 0, npx := BitVec.ofNat 32 (width.toNat * height.toNat) }
        flight := .building ⟨width, height, rate, s.operand.pixIn, [], [], [], [], []⟩ }
  | .openBlob => whenIdle s <| withBytes s fun blob => .next { s with flight := .opening blob }
  | .frameat index =>
    whenIdle s <|
      match frameAtCheck s.hnd index with
      | some c => .next (raise c s)
      | none =>
        .next { s with
          rdr := { s.rdr with
            base := BitVec.ofNat 35 (dataBase s.hnd), dlen := BitVec.ofNat 35 (dataLen s.hnd) }
          flight := .seeking index .start }
  | .mark _ => .refused .elementNotDue
  | .run _ => .refused .elementNotDue
  | .hdr _ _ _ _ _ => .refused .elementNotDue
  | .idx _ => .refused .elementNotDue

/-- A step of the operation in progress that runs no instruction. OPEN and the search of FRAMEAT have none: each of
their steps reads a record. -/
def stepUnits (s : State) : State :=
  match s.flight with
  | .idle => s
  | .encoding rest out => stepEncoding s rest out
  | .decoding _ n slice out => stepDecoding s n slice out
  | .opening _ => s
  | .seeking _ _ => s
  | .building b => stepBuilding s b

end Sys2Proof.Machine
end

