-- ==== Sys2Proof/Machine/Fetch.lean ====
section
/-! DEFINITION. What the next step finds: an instruction to run, or a transition that runs none. -/

namespace Sys2Proof.Machine

open Sys2Proof

/-- Reset (R300): every piece of state to the value of R34; an operation in progress is abandoned without a response.
What the host does after it stands, and so does the model's own counter of draws (log 18). -/
def State.resetBy (s : State) (later : List Input) : State :=
  { State.reset with input := later, fresh := s.fresh }

/-- The state a step starts from: the response of the last step has been passed to the host with that step and is gone
(R26; log 13). -/
def State.quiet (s : State) : State := { s with response := none }

/-- The state that has taken a request from the command channel, its operand on the operand channel (R26). -/
def State.accept (s : State) (r : Request) (later : List Input) : State :=
  { s with input := later, operand := r.operand }

/-- The blob address of the index entry a FRAMEAT in progress reads next (R78, R235). -/
def dueEntry (index : U32) : Entry → Nat
  | .start => entryAddr index.toNat
  | .stop => entryAddr (index.toNat + 1)

/-- Where the next instruction stands: its format, and the bytes from its first one on as far as they are there. With no
operation in progress it is the command word the host presents; in a decode the marker byte at offset 0 or the run field
at `DEC.pos`, as long as two bytes are left (R113, R172, R173); in an OPEN the header (R94); in a FRAMEAT the index entry
(R235). A reset comes before all of them (R300). -/
def due (s : State) : Option (Format × List Byte) :=
  match s.input with
  | .reset :: _ => none
  | later =>
    match s.flight with
    | .idle =>
      match later with
      | .command r :: _ => some (.cmd, leBytes 8 r.word.toNat)
      | _ => none
    | .encoding _ _ => none
    | .decoding _ _ slice _ =>
      match s.dec.st with
      | .marker => some (.mark, slice)
      | .runs =>
        if slice.length - s.dec.pos.toNat ≥ Config.runFieldBytes then some (.run, slice.drop s.dec.pos.toNat)
        else none
      | _ => none
    | .opening blob => some (.hdr, blob)
    | .seeking index entry =>
      match Memory.readBytes s.hnd.blob (dueEntry index entry) Config.offsetBytes with
      | some bs => some (.idx, bs)
      | none => some (.idx, [])
    | .building _ => none

/-- The state an instruction runs in: a command has been taken from the channel; inside an operation nothing has
changed yet. -/
def dueState (s : State) : State :=
  match s.flight, s.input with
  | .idle, .command r :: later => s.accept r later
  | _, _ => s

/-- The fault raised where the bytes that are due are no instruction: `CommandError` for a word (R93), `FormatError`
for an element or a record (R163, R222, R223, R66). -/
def Format.illegal : Format → Code
  | .cmd => .commandError
  | .mark => .formatError
  | .run => .formatError
  | .hdr => .formatError
  | .idx => .formatError

/-- A step in which no instruction is due: reset, the start of a stepped operation, a step of the units, or waiting for
a command (R301). -/
def stepOther (s : State) : Host.Outcome State Fault Refusal :=
  match s.input with
  | .reset :: later => .next (s.resetBy later)
  | later =>
    match s.flight, later with
    | .idle, .stepped r :: later =>
      match decodeCmd r.word with
      | .ok i => startOp i (s.accept r later)
      | .error _ => .next (raise .commandError (s.accept r later))
    | _, _ => .next (stepUnits s)

/-- Either the instruction to run and the state it runs in, or the whole outcome of a step that runs none. -/
inductive Fetch where
  | instr (i : Instr) (s : State)
  | other (o : Host.Outcome State Fault Refusal)

/-- Fetch and decode, in the state the step starts from. -/
def fetch (s : State) : Fetch :=
  match due s with
  | none => .other (stepOther s.quiet)
  | some (f, bs) =>
    match decode f bs with
    | .ok (i, _) => .instr i (dueState s.quiet)
    | .error _ => .other (.next (raise (Format.illegal f) (dueState s.quiet)))

/-- Whether an input is a reset event. -/
def Input.isReset : Input → Bool
  | .reset => true
  | .command _ => false
  | .stepped _ => false

/-- The operation in progress with its decoder slice replaced; a decode with `DEC.n` where none is in progress. -/
def sliceFlight (s : State) (slice : List Byte) : Flight :=
  match s.flight with
  | .decoding byFrameAt n _ out => .decoding byFrameAt n slice out
  | _ => .decoding false s.dec.n slice []

/-- The operand a placed command comes with: what stands on the operand channel between operations, never the operand
of an operation in progress (R26). -/
def placedOperand (s : State) : Operand :=
  match s.flight with
  | .idle => s.operand
  | _ => Operand.empty

/-- An instruction of the given format and bits placed where the next step fetches: a command at the head of the command
channel, an operation in progress abandoned; an element at the head of, or after the marker of, the slice of a decode that awaits it; a header at the head
of the blob of an OPEN; an index entry in the blob of a FRAMEAT (log 17). -/
def placeWord (s : State) (f : Format) (w : Nat) : State :=
  match f with
  | .cmd =>
    { s.unitsIdle with
      operand := Operand.empty
      input := .command ⟨BitVec.ofNat 64 w, placedOperand s⟩ :: s.input }
  | .mark =>
    { s with
      input := s.input.dropWhile Input.isReset
      dec := { s.dec with st := .marker, pos := 0 }
      flight := sliceFlight s (leBytes 1 w) }
  | .run =>
    { s with
      input := s.input.dropWhile Input.isReset
      dec := { s.dec with st := .runs, pos := 1 }
      flight := sliceFlight s (0x00 :: leBytes 2 w) }
  | .hdr => { s with input := s.input.dropWhile Input.isReset, flight := .opening (leBytes 12 w) }
  | .idx =>
    match s.flight with
    | .seeking index entry =>
      { s with
        input := s.input.dropWhile Input.isReset
        hnd := { s.hnd with blob := Memory.writeBytes s.hnd.blob (dueEntry index entry) (leBytes 4 w) } }
    | _ =>
      { s with
        input := s.input.dropWhile Input.isReset
        hnd := { s.hnd with blob := Memory.writeBytes s.hnd.blob (dueEntry 0 .start) (leBytes 4 w) }
        flight := .seeking 0 .start }

end Sys2Proof.Machine
end

