-- ==== Sys2Proof/Machine/Step.lean ====
section
/-! DEFINITION. One step of the block. -/

namespace Sys2Proof.Machine

open Sys2Proof

/-- One step: the instruction that is due is run; where none is, the block makes its other transition. -/
def step (s : State) : Host.Outcome State Fault Refusal :=
  match fetch s with
  | .instr i s' => exec i s'
  | .other o => o

/-- `s` with an instruction of the opcode table placed where `step` fetches its next one. -/
def State.withFetchWord (s : State) (nbits w : Nat) : State :=
  match formatOfBits nbits with
  | none => s
  | some f => placeWord s f w

end Sys2Proof.Machine
end

