-- ==== Sys2Proof/Safety.lean ====
section
/-! DEFINITION. The terms claims are stated in: the invariants of the block, what a host observes, and the spec's words
for frames and encoded frames that the machine itself does not need. -/

namespace Sys2Proof.Machine

open Sys2Proof

/-! ### Invariants -/

/-- The handle is the reset handle, or it is what a successful OPEN leaves: the parsed header of the blob it holds, with
non-zero dimensions, `flags = 0`, and a complete index (R23, R24, R228). -/
def Handle.Inv (h : Handle) : Prop :=
  (h.valid = false → h = Handle.reset) ∧
  (h.valid = true →
    ∃ bs : List Byte, h.blob = Memory.load bs ∧ bs.length = h.blobLen.toNat ∧
      readHeader bs = some ⟨h.width, h.height, h.fcount, h.rate, h.flags⟩ ∧
      h.flags = 0 ∧ 1 ≤ h.width.toNat ∧ 1 ≤ h.height.toNat ∧ dataBase h ≤ h.blobLen.toNat)

/-- The range of `ENC.cnt` (R27, R141). -/
def Enc.Inv (e : Enc) : Prop :=
  (e.st = .accumulating ∨ e.st = .flush → 1 ≤ e.cnt.toNat) ∧
  (e.st = .overflowSplit → e.cnt.toNat = Config.runMax)

/-- The loop invariants of R161 and the ranges of R28, for a decode of `slice` with count `n` that has emitted `out`. -/
def Dec.Inv (d : Dec) (n : U32) (slice : List Byte) (out : List Pixel) : Prop :=
  match d.st with
  | .idle => out = []
  | .marker => out = [] ∧ d.n = n ∧ d.total = 0 ∧ d.pos = 0
  | .runs | .done =>
    d.n = n ∧ d.total.toNat = out.length ∧ out.length ≤ n.toNat ∧ d.pos.toNat ≤ slice.length ∧
      d.pos.toNat % 2 = 1 ∧
      (∃ m : Pixel, slice.head? = some (pixelByte m) ∧ d.cur = (m ^^ decide ((d.pos.toNat - 1) / 2 % 2 = 1))) ∧
      (d.st = .done → d.total = n ∧ d.pos.toNat = slice.length)

/-- The ranges of R29 for a BUILD in progress on `frames`. `SER.npx` is the product of the dimensions; in `CHECK`,
`SER.i` numbers the first frame not yet checked and every frame before it has `SER.npx` pixels; after it every frame has,
and there is one offset per encoded frame; `SER.i` is the number of encoded frames in `ENCODE` and at most the number of
entries in `EMIT_IDX` (R193, R196, R204). -/
def Ser.Inv (r : Ser) (frames : List (List Pixel)) (b : Building) : Prop :=
  r.phase ≠ .idle ∧ b.offsets.length = b.encoded.length ∧ r.npx.toNat = b.width.toNat * b.height.toNat ∧
  (r.phase = .check →
    b.encoded = [] ∧
      ∃ checked, frames = checked ++ b.unchecked ∧ (∀ f ∈ checked, f.length = r.npx.toNat) ∧
        r.i.toNat = min checked.length (Config.u32Max + 1)) ∧
  (r.phase ≠ .check →
    1 ≤ r.npx.toNat ∧ frames.length ≤ Config.u32Max ∧ ∀ f ∈ frames, f.length = r.npx.toNat) ∧
  (r.phase = .encode →
    r.i.toNat = b.encoded.length ∧ b.encoded.length ≤ frames.length ∧
      r.off.toNat = b.encoded.flatten.length ∧ b.encoded.flatten.length ≤ Config.u32Max) ∧
  (r.phase ≠ .check → r.phase ≠ .encode → b.encoded.length = frames.length) ∧
  (r.phase = .emitIdx → r.i.toNat ≤ b.offsets.length)

/-- Which units are at work in which operation, and their ranges: between operations every unit is `IDLE` (R27, R28,
R34). -/
def State.UnitsInv (s : State) : Prop :=
  match s.flight with
  | .idle => s.enc.st = .idle ∧ s.dec.st = .idle ∧ s.ser.phase = .idle
  | .encoding _ _ => s.dec.st = .idle ∧ s.ser.phase = .idle ∧ s.enc.Inv
  | .decoding byFrameAt n slice out =>
    s.enc.st = .idle ∧ s.ser.phase = .idle ∧ slice.length < Config.byteInLimit ∧ s.dec.Inv n slice out ∧
      (byFrameAt = true → s.hnd.valid = true ∧ n.toNat = framePixels s.hnd)
  | .opening blob =>
    s.enc.st = .idle ∧ s.dec.st = .idle ∧ s.ser.phase = .idle ∧ blob.length < Config.byteInLimit
  | .seeking index entry =>
    s.enc.st = .idle ∧ s.dec.st = .idle ∧ s.ser.phase = .idle ∧ s.hnd.valid = true ∧
      index.toNat < s.hnd.fcount.toNat ∧ s.rdr.base.toNat = dataBase s.hnd ∧ s.rdr.dlen.toNat = dataLen s.hnd ∧
      (entry = .stop → index.toNat + 1 < s.hnd.fcount.toNat)
  | .building b =>
    s.dec.st = .idle ∧ (s.ser.phase ≠ .encode → s.enc.st = .idle) ∧ s.enc.Inv ∧ s.ser.Inv s.operand.pixIn b ∧
      (s.enc.st ≠ .idle → b.encoded.length < s.operand.pixIn.length)

/-- The channels hold nothing that persists: an operand only while its operation is in progress, a response only right
after the step that ended one, with the code in `STATUS.code` and a result only with `OK` (R26, R33). -/
def State.ChannelsInv (s : State) : Prop :=
  (s.flight = .idle → s.operand = Operand.empty) ∧
  ∀ r, s.response = some r → s.flight = .idle ∧ r.code = s.status ∧ (r.code ≠ .ok → r.result = .none)

/-- The invariant of the block. -/
def State.Inv (s : State) : Prop := s.hnd.Inv ∧ s.UnitsInv ∧ s.ChannelsInv

/-! ### What a host observes -/

/-- Two states in which the same commands would be seen to have ended alike: the same status, response and handle, and
no operation in progress (R12). -/
def State.SameOutcome (t u : State) : Prop :=
  t.status = u.status ∧ t.response = u.response ∧ t.hnd = u.hnd ∧ t.flight = .idle ∧ u.flight = .idle ∧
    t.input = u.input ∧ t.operand = u.operand

/-- The state after an operation that began in `s` and ended with the response `⟨c, r⟩`: the status and the response are
written, no operation is in progress, every unit is `IDLE`, the operand is gone, and what the host does next stands as it
was. What it did to the handle and to the units' working registers is said beside it. -/
def State.EndedFrom (t s : State) (c : Code) (r : Result) : Prop :=
  t.status = c ∧ t.response = some ⟨c, r⟩ ∧ t.UnitsIdle ∧ t.input = s.input ∧ t.operand = Operand.empty

/-- The state after a command that began in `s` and raised `c`: only the status and the response differ (R268), and the
command's operand is gone (R26). -/
def State.faulted (s : State) (c : Code) : State :=
  { s with status := c, response := some ⟨c, .none⟩, operand := Operand.empty }

/-- The offset of frame `i` in the frame-data section: the encoded lengths of the frames before it (R194). -/
def frameOffset (frames : List (List Pixel)) (i : Nat) : Nat :=
  ((frames.take i).map fun f => (encodeFrame f).length).sum

/-- The bytes of a blob from its parts (R99): the header of R94, one entry per frame, the encoded frames. -/
def blobOf (frames : List (List Pixel)) (width height rate : U16) : List Byte :=
  (le16 width.toNat ++ le16 height.toNat ++ le32 frames.length ++ le16 rate.toNat ++ le16 0)
    ++ (List.range frames.length).flatMap (fun i => le32 (frameOffset frames i))
    ++ (frames.map encodeFrame).flatten

/-- What BUILD demands of its operands (R192, R198, R199). -/
def Buildable (frames : List (List Pixel)) (width height : U16) : Prop :=
  width.toNat * height.toNat ≠ 0 ∧ (∀ f ∈ frames, f.length = width.toNat * height.toNat) ∧
    frames.length ≤ Config.u32Max ∧ ((frames.map encodeFrame).flatten).length ≤ Config.u32Max

/-! ### Frames and encoded frames -/

/-- The pixels a list of run fields stands for, the values alternating from `v` (R103). -/
def expandFields (v : Pixel) : List Nat → List Pixel
  | [] => []
  | f :: fs => List.replicate f v ++ expandFields (!v) fs

/-- The conditions of R105 on the fields after a field of value `prev`: a field of 0 stands only after a field of 65535,
and the last field is at least 1. -/
def canonicalFrom (prev : Nat) : List Nat → Bool
  | [] => decide (1 ≤ prev)
  | f :: fs => (decide (1 ≤ f) || decide (prev = Config.runMax)) && canonicalFrom f fs

/-- An encoded frame from its marker value and its fields (R100). -/
def encodedFrame (v : Pixel) (fields : List Nat) : List Byte := pixelByte v :: fields.flatMap le16

/-- A canonical encoded frame (R105), in its second form: the single byte `0x00`, or a marker and at least one field
with `f_0 ≥ 1`, the last at least 1, and every 0 between a 65535 and a field of at least 1. -/
def Canonical (B : List Byte) : Prop :=
  B = [0x00] ∨
    ∃ v fields, B = encodedFrame v fields ∧ (∀ f ∈ fields, f ≤ Config.runMax) ∧ canonicalFrom 0 fields = true

/-- The lengths of the maximal runs, the run in hand having value `v` and `c` pixels so far (R10). -/
def runLengthsFrom (v : Pixel) (c : Nat) : List Pixel → List Nat
  | [] => [c]
  | p :: rest => if p = v then runLengthsFrom v (c + 1) rest else c :: runLengthsFrom p 1 rest

/-- `L_1 .. L_m`, the lengths of the maximal runs of a frame (R10, R107). -/
def runLengths : List Pixel → List Nat
  | [] => []
  | p :: rest => runLengthsFrom p 1 rest

/-- `ceil(L / 65535)` of R107. -/
def ceilRun (L : Nat) : Nat := (L + (Config.runMax - 1)) / Config.runMax

/-- The fields of one maximal run of length `L` (R105): `(0xFFFF 0x0000)` repeated `q = ceil(L/65535) - 1` times, then
`L - 65535*q`. -/
def runGroup (L : Nat) : List Nat :=
  (List.replicate (ceilRun L - 1) [Config.runMax, 0]).flatten ++ [L - Config.runMax * (ceilRun L - 1)]

/-- What ENCODE must emit for a frame, from its maximal runs (R105): `0x00` for the empty frame, else the value of the
first pixel and the fields of each run in order. -/
def canonicalEncoding : List Pixel → List Byte
  | [] => [0x00]
  | p :: rest => encodedFrame p ((runLengths (p :: rest)).flatMap runGroup)

/-- The machine of `ENC` alone, `k` steps from `IDLE` on a frame (R137). -/
def encMachine (e : Enc) (F : List Pixel) : Nat → Enc × List Pixel × List Byte
  | 0 => (e, F, [])
  | k + 1 =>
    let r := encMachine e F k
    encStep r.1 r.2.1 r.2.2

end Sys2Proof.Machine
end

