-- ==== Sys2Proof/Certificates/Slice0/Obligations.lean ====
section
/-! DEFINITION. The statements for the provers, in the order of the spec's files: encodings, the operations one by one,
the units, faults and reset, and the laws that join them. -/

open Sys2Proof Sys2Proof.Machine

/-! ### Byte order and encodings -/

/-- R62: byte `k` of the little-endian form of `v` is `v div 256^k mod 256`; `MemRead` of `n` bytes in range is the sum
of `S[a+k] * 256^k`; a value that fits is read back from where it is stored. -/
def Obligations.LittleEndianBytesAndValue : Prop :=
  (∀ n v k, k < n → (leBytes n v)[k]? = some (BitVec.ofNat 8 (v / 256 ^ k % 256))) ∧
  (∀ (S : List Byte) a n, a + n ≤ S.length →
    memRead S a n = some (((List.range n).map fun k => (S.getD (a + k) 0).toNat * 256 ^ k).sum)) ∧
  (∀ (A B : List Byte) n v, v < 256 ^ n → memRead (A ++ leBytes n v ++ B) A.length n = some v)

/-- R62, R94, R97, R101, R102, R92: words written out bit by bit from the spec's formats decode to their
instructions. -/
def Obligations.WordsOfTheSpecDecode : Prop :=
  decodeTableWord 64 0x0000000000000001 = some .encode ∧
  decodeTableWord 64 0x00030D4000000002 = some (.decode 200000) ∧
  decodeTableWord 64 0x00020001001E0003 = some (.build 1 2 30) ∧
  decodeTableWord 64 0x0000000000000004 = some .openBlob ∧
  decodeTableWord 64 0x0000000100000005 = some (.frameat 1) ∧
  decodeTableWord 8 0x01 = some (.mark true) ∧
  decodeTableWord 16 0x0D43 = some (.run 3395) ∧
  decodeTableWord 96 0x0000001E0000000200020003 = some (.hdr 3 2 2 30 0) ∧
  decodeTableWord 32 0x00000005 = some (.idx 5)

/-- R92: a word selects a row of the table exactly when the command decoder reads that row's operation from it. -/
def Obligations.CommandDecoderFollowsMaskAndMatch : Prop :=
  ∀ (w : CmdWord) (r : CmdRow), r ∈ cmdTable →
    (r.selects w = true ↔ ∃ i, decodeCmd w = .ok i ∧ i.mnemonic = r.mnemonic)

/-- R91: the scalar operands are the plain slices of the word. -/
def Obligations.CommandOperandsAreSlices : Prop :=
  (∀ (w : CmdWord) n, decodeCmd w = .ok (.decode n) → n.toNat = w.toNat / 2 ^ 32) ∧
  (∀ (w : CmdWord) k, decodeCmd w = .ok (.frameat k) → k.toNat = w.toNat / 2 ^ 32) ∧
  (∀ (w : CmdWord) a b c, decodeCmd w = .ok (.build a b c) →
    c.toNat = w.toNat / 2 ^ 16 % 2 ^ 16 ∧ a.toNat = w.toNat / 2 ^ 32 % 2 ^ 16 ∧ b.toNat = w.toNat / 2 ^ 48)

/-- Every well-formed instruction is read back from its encoding, at every operand value, whatever follows it. -/
def Obligations.DecodeInvertsEncode : Prop :=
  ∀ (i : Instr) (rest : List Byte), i.wf = true → decode i.format (encode i ++ rest) = .ok (i, rest)

/-- What the decoder accepts is the encoding of a well-formed instruction of that format, and no bit of it is dropped. -/
def Obligations.EncodeInvertsDecode : Prop :=
  ∀ (f : Format) (bs rest : List Byte) (i : Instr), decode f bs = .ok (i, rest) →
    i.format = f ∧ i.wf = true ∧ bs = encode i ++ rest

/-- The canonical form of memory: two memories in it that read the same everywhere are the same data. -/
def Obligations.CanonicalMemoriesAreEqualWhenReadsAre : Prop :=
  ∀ m m' : Memory, Memory.wf m = true → Memory.wf m' = true →
    (∀ a, Memory.read m a = Memory.read m' a) → m = m'

/-! ### Fetch: a step runs the instruction that is due -/

/-- Between operations a step takes the command the host presents, puts its operand on the channel and runs the
operation its word decodes to; the response of the step before has been passed with it and is gone (that commands wait
in a list is the model's choice, log 1). -/
def Obligations.StepRunsThePresentedCommand : Prop :=
  ∀ (s : State) (r : Request) (later : List Input) (i : Instr),
    s.flight = .idle → s.input = .command r :: later → decodeCmd r.word = .ok i →
      step s = exec i { s with input := later, operand := r.operand, response := none }

/-- Inside an operation a step runs the element or record that is due: MARK at offset 0 of the slice, RUN at `DEC.pos`
while two bytes are left (R113), HDR at offset 0 of the blob (R94), IDX at `12 + 4*index`, and then at
`12 + 4*(index + 1)` (R78), of the open blob (that these are steps of their own is the model's choice, logs 2 and 16). -/
def Obligations.StepRunsTheDueElement : Prop :=
  ∀ s : State, s.input.head? ≠ some .reset →
    (∀ fa n slice out i rest, s.flight = .decoding fa n slice out → s.dec.st = .marker →
      decode .mark slice = .ok (i, rest) → step s = exec i { s with response := none }) ∧
    (∀ fa n slice out i rest, s.flight = .decoding fa n slice out → s.dec.st = .runs →
      s.dec.pos.toNat + 2 ≤ slice.length → decode .run (slice.drop s.dec.pos.toNat) = .ok (i, rest) →
        step s = exec i { s with response := none }) ∧
    (∀ blob i rest, s.flight = .opening blob → decode .hdr blob = .ok (i, rest) →
      step s = exec i { s with response := none }) ∧
    (∀ index bs i rest, s.flight = .seeking index .start →
      Memory.readBytes s.hnd.blob (12 + 4 * index.toNat) 4 = some bs → decode .idx bs = .ok (i, rest) →
        step s = exec i { s with response := none }) ∧
    (∀ index bs i rest, s.flight = .seeking index .stop →
      Memory.readBytes s.hnd.blob (12 + 4 * (index.toNat + 1)) 4 = some bs → decode .idx bs = .ok (i, rest) →
        step s = exec i { s with response := none })

/-- R93: an illegal word starts no operation; the block answers `CommandError` and changes nothing else. The word is
described by its bits as R91 numbers them. A sequence operand of the wrong shape makes the command illegal in the same
way: ENCODE with a `PIXIN` list whose length is not 1, DECODE or OPEN with no `BYTEIN`. -/
def Obligations.IllegalCommandsAnswerCommandError : Prop :=
  (∀ (s : State) (r : Request) (later : List Input),
    s.UnitsIdle → s.input = .command r :: later →
    (r.word.toNat % 8 = 0 ∨ r.word.toNat % 8 = 6 ∨ r.word.toNat % 8 = 7 ∨ r.word.toNat / 2 ^ 3 % 2 ^ 13 ≠ 0 ∨
      (r.word.toNat % 8 ≠ 3 ∧ r.word.toNat / 2 ^ 16 % 2 ^ 16 ≠ 0) ∨
      ((r.word.toNat % 8 = 1 ∨ r.word.toNat % 8 = 4) ∧ r.word.toNat / 2 ^ 32 ≠ 0)) →
      step s = .next (State.faulted { s with input := later } .commandError)) ∧
  (∀ s : State, s.UnitsIdle →
    (s.operand.pixIn.length ≠ 1 → exec .encode s = .next (s.faulted .commandError)) ∧
    (s.operand.byteIn = none →
      (∀ n, exec (.decode n) s = .next (s.faulted .commandError)) ∧
      exec .openBlob s = .next (s.faulted .commandError)))

/-- R22, R26, R303: every command presented between operations is answered in one step: `STATUS.code` and the response
carry the same code, a result comes only with `OK`, no operation is left in progress, the operand is gone and the next
command is next. -/
def Obligations.EveryCommandIsAnswered : Prop :=
  ∀ (s : State) (r : Request) (later : List Input),
    s.UnitsIdle → s.input = .command r :: later → (∀ B, r.operand.byteIn = some B → B.length < 2 ^ 35) →
      ∃ t x, step s = .next t ∧ t.response = some x ∧ x.code = t.status ∧ (t.status ≠ .ok → x.result = .none) ∧
        t.UnitsIdle ∧ t.input = later ∧ t.operand = Operand.empty

/-! ### ENCODE -/

/-- R130 with R105 and R131: ENCODE of any frame ends `OK` with the marker and the fields of its maximal runs; it writes
`STATUS.code` and the working registers of `ENC` and nothing else. -/
def Obligations.EncodeAnswersTheCanonicalEncoding : Prop :=
  ∀ (s : State) (F : List Pixel), s.UnitsIdle → s.operand.pixIn = [F] →
    ∃ t, exec .encode s = .next t ∧ t.EndedFrom s .ok (.bytes (canonicalEncoding F)) ∧
      t.hnd = s.hnd ∧ t.dec = s.dec ∧ t.ser = s.ser ∧ t.rdr = s.rdr

/-- R135: a run is split when, and only when, its count is 65535 and a further pixel of the run exists: a run of `L`
pixels that ends the frame, or is followed by a pixel of the other value, is emitted as the fields of `runGroup L`. -/
def Obligations.OverflowSplitOnlyInsideARun : Prop :=
  ∀ (v : Pixel) (L : Nat), 1 ≤ L →
    encodeFrame (List.replicate L v) = encodedFrame v (runGroup L) ∧
    ∀ rest, encodeFrame (List.replicate L v ++ (!v) :: rest) =
      encodedFrame v (runGroup L) ++ (encodeFrame ((!v) :: rest)).tail

/-- R146: the length of an encoded frame from the lengths of its maximal runs; it is odd, and for a frame of `N ≥ 1`
pixels lies between 3 and `1 + 2N`. -/
def Obligations.EncodedLengthFromRuns : Prop :=
  (encodeFrame []).length = 1 ∧
  ∀ F : List Pixel, F ≠ [] →
    (encodeFrame F).length = 1 + 2 * ((runLengths F).map fun L => 2 * ceilRun L - 1).sum ∧
    (encodeFrame F).length % 2 = 1 ∧ 3 ≤ (encodeFrame F).length ∧ (encodeFrame F).length ≤ 1 + 2 * F.length

/-- R105: the canonical encoded frames, those ENCODE can produce, are exactly `00` and the markers followed by one group
of fields per run; equivalently the form of `Canonical`, in which a 0 stands only between a 65535 and a field of at
least 1. Two frames never share an encoding. -/
def Obligations.CanonicalFramesAreTheEncoded : Prop :=
  (∀ B, (∃ F, encodeFrame F = B) ↔
    B = [0x00] ∨
      ∃ v lengths, lengths ≠ [] ∧ (∀ L ∈ lengths, 1 ≤ L) ∧ B = encodedFrame v (lengths.flatMap runGroup)) ∧
  (∀ B, Canonical B ↔ ∃ F, encodeFrame F = B) ∧ ∀ F G, encodeFrame F = encodeFrame G → F = G

/-- R138 to R145: the steps of `ENC` inside an operation, one clause per rule, from every state of its registers; each
writes the registers and the output its rule names and nothing else of the block (`s.quiet`: no response is on the
channel after it, R26). -/
def Obligations.EncoderStepsFollowTheirRules : Prop :=
  ∀ (s : State) (rest : List Pixel) (out : List Byte), s.flight = .encoding rest out → s.input.head? ≠ some .reset →
    (s.enc.st = .idle → rest = [] →
      step s = .next { s.quiet with enc := { s.enc with st := .done }, flight := .encoding [] (out ++ [0x00]) }) ∧
    (∀ p rest', s.enc.st = .idle → rest = p :: rest' →
      step s = .next { s.quiet with
        enc := { s.enc with val := p, cnt := 1, st := .accumulating }
        flight := .encoding rest' (out ++ [if p then 0x01 else 0x00]) }) ∧
    (∀ p rest', s.enc.st = .accumulating → rest = p :: rest' → p = s.enc.val → s.enc.cnt.toNat < 65535 →
      step s = .next { s.quiet with enc := { s.enc with cnt := s.enc.cnt + 1 }, flight := .encoding rest' out }) ∧
    (∀ p rest', s.enc.st = .accumulating → rest = p :: rest' → p = s.enc.val → s.enc.cnt.toNat = 65535 →
      step s = .next { s.quiet with enc := { s.enc with st := .overflowSplit }, flight := .encoding rest' out }) ∧
    (∀ p rest', s.enc.st = .accumulating → rest = p :: rest' → p ≠ s.enc.val →
      step s = .next { s.quiet with
        enc := { s.enc with nxt := p, fin := false, st := .flush }, flight := .encoding rest' out }) ∧
    (s.enc.st = .accumulating → rest = [] →
      step s = .next { s.quiet with enc := { s.enc with fin := true, st := .flush }, flight := .encoding [] out }) ∧
    (s.enc.st = .flush → s.enc.fin = true →
      step s = .next { s.quiet with
        enc := { s.enc with st := .done }, flight := .encoding rest (out ++ le16 s.enc.cnt.toNat) }) ∧
    (s.enc.st = .flush → s.enc.fin = false →
      step s = .next { s.quiet with
        enc := { s.enc with val := s.enc.nxt, cnt := 1, st := .accumulating }
        flight := .encoding rest (out ++ le16 s.enc.cnt.toNat) }) ∧
    (s.enc.st = .overflowSplit →
      step s = .next { s.quiet with
        enc := { s.enc with cnt := 1, st := .accumulating }
        flight := .encoding rest (out ++ [0xFF, 0xFF, 0x00, 0x00]) })

/-- R147: the machine of `ENC`, run from `IDLE` on a frame, consumes it all and is `DONE` with exactly `Encode(F)`
emitted. -/
def Obligations.EncoderMachineEmitsEncode : Prop :=
  ∀ (e : Enc) (F : List Pixel), e.st = .idle →
    ∃ k e', encMachine e F k = (e', [], encodeFrame F) ∧ e'.st = .done

/-- R148: at every point of the scan, the number of fields emitted is even exactly when the run in hand has the marker's
value. -/
def Obligations.EncoderParity : Prop :=
  ∀ (e : Enc) (p : Pixel) (rest : List Pixel) (k : Nat), e.st = .idle →
    (encMachine e (p :: rest) k).1.st ≠ .idle → (encMachine e (p :: rest) k).1.st ≠ .done →
      ∃ fields, (encMachine e (p :: rest) k).2.2 = encodedFrame p fields ∧
        (fields.length % 2 = 0 ↔ (encMachine e (p :: rest) k).1.val = p)

/-! ### DECODE and its elements -/

/-- R160, R164, R168: a slice that is a marker and whole fields whose sum is `N` decodes to the pixels the fields stand
for, the values alternating from the marker; the handle and every other unit stand as they were. -/
def Obligations.DecodeAnswersThePixelsOfItsFields : Prop :=
  ∀ (s : State) (n : U32) (v : Pixel) (fields : List Nat),
    s.UnitsIdle → s.operand.byteIn = some (encodedFrame v fields) →
    (encodedFrame v fields).length < 2 ^ 35 → (∀ f ∈ fields, f ≤ 65535) → fields.sum = n.toNat →
      ∃ t, exec (.decode n) s = .next t ∧ t.EndedFrom s .ok (.pixels (expandFields v fields)) ∧
        (expandFields v fields).length = n.toNat ∧
        t.hnd = s.hnd ∧ t.enc = s.enc ∧ t.ser = s.ser ∧ t.rdr = s.rdr

/-- R162, R163, R165, R166, R167, R169: every other slice raises `FormatError`, with no pixel delivered and nothing else
changed. -/
def Obligations.DecodeRefusesEveryOtherSlice : Prop :=
  ∀ (s : State) (n : U32) (B : List Byte),
    s.UnitsIdle → s.operand.byteIn = some B → B.length < 2 ^ 35 →
    (∀ v fields, (∀ f ∈ fields, f ≤ 65535) → fields.sum = n.toNat → B ≠ encodedFrame v fields) →
      exec (.decode n) s = .next (s.faulted .formatError)

/-- R179: a slice of odd length with marker 0 or 1 decodes for exactly one pixel count, the sum of its fields; every
other slice decodes for none. -/
def Obligations.DecodeSucceedsForExactlyOneCount : Prop :=
  (∀ v fields n, (∀ f ∈ fields, f ≤ 65535) → ((decodeFrame (encodedFrame v fields) n).isSome ↔ n = fields.sum)) ∧
  (∀ B : List Byte, (B.length % 2 = 1 ∧ ∃ m, B.head? = some m ∧ m.toNat ≤ 1) ↔
    ∃ v fields, B = encodedFrame v fields ∧ ∀ f ∈ fields, f ≤ 65535) ∧
  (∀ (B : List Byte) n, ¬ (B.length % 2 = 1 ∧ ∃ m, B.head? = some m ∧ m.toNat ≤ 1) → decodeFrame B n = none)

/-- R171 to R174: the steps of `DEC` inside an operation, one clause per case, from every state of its registers. A
clause that raises ends the operation and leaves the handle; the others write the registers and the output their rule
names and nothing else of the block (`s.quiet`: no response is on the channel after it, R26). At `DONE` the emitted
pixels are the result; that they are delivered by a further step, where R174 makes `DONE` and the result one, is the
model's choice, log 2. -/
def Obligations.DecoderStepsFollowTheirRules : Prop :=
  ∀ (s : State) (fa : Bool) (n : U32) (B : List Byte) (out : List Pixel),
    s.flight = .decoding fa n B out → s.input.head? ≠ some .reset →
    (s.dec.st = .idle →
      step s = .next { s.quiet with dec := { s.dec with n := n, total := 0, pos := 0, st := .marker } }) ∧
    (s.dec.st = .marker → (∀ m, B.head? = some m → m.toNat > 1) →
      ∃ t, step s = .next t ∧ t.EndedFrom s .formatError .none ∧ t.hnd = s.hnd) ∧
    (∀ m, s.dec.st = .marker → B.head? = some m → m.toNat ≤ 1 →
      step s = .next { s.quiet with dec := { s.dec with cur := m.getLsbD 0, pos := 1, st := .runs } }) ∧
    (∀ len, s.dec.st = .runs → memRead B s.dec.pos.toNat 2 = some len → len > s.dec.n.toNat - s.dec.total.toNat →
      ∃ t, step s = .next t ∧ t.EndedFrom s .formatError .none ∧ t.hnd = s.hnd) ∧
    (∀ len, s.dec.st = .runs → memRead B s.dec.pos.toNat 2 = some len → len ≤ s.dec.n.toNat - s.dec.total.toNat →
      step s = .next { s.quiet with
        dec := { s.dec with
          total := s.dec.total + BitVec.ofNat 32 len, cur := !s.dec.cur, pos := s.dec.pos + 2 }
        flight := .decoding fa n B (out ++ List.replicate len s.dec.cur) }) ∧
    (s.dec.st = .runs → B.length - s.dec.pos.toNat = 1 →
      ∃ t, step s = .next t ∧ t.EndedFrom s .formatError .none ∧ t.hnd = s.hnd) ∧
    (s.dec.st = .runs → B.length - s.dec.pos.toNat = 0 → s.dec.total ≠ s.dec.n →
      ∃ t, step s = .next t ∧ t.EndedFrom s .formatError .none ∧ t.hnd = s.hnd) ∧
    (s.dec.st = .runs → B.length - s.dec.pos.toNat = 0 → s.dec.total = s.dec.n →
      step s = .next { s.quiet with dec := { s.dec with st := .done } }) ∧
    (s.dec.st = .done → ∃ t, step s = .next t ∧ t.EndedFrom s .ok (.pixels out) ∧ t.hnd = s.hnd)

/-- R172: MARK sets the starting value and moves `DEC` to the run fields. -/
def Obligations.MarkSetsTheStartingValue : Prop :=
  ∀ (s : State) (v : Pixel) fa n slice out,
    s.flight = .decoding fa n slice out → s.dec.st = .marker →
      exec (.mark v) s = .next { s with dec := { s.dec with cur := v, pos := 1, st := .runs } }

/-- R173: RUN within the pixels still wanted appends `len` copies of the current value, adds to the total, flips the
value whatever `len` is, and moves past the field. -/
def Obligations.RunAppendsAndFlips : Prop :=
  ∀ (s : State) (len : U16) fa n slice out,
    s.flight = .decoding fa n slice out → s.dec.st = .runs →
    s.dec.total.toNat + len.toNat ≤ s.dec.n.toNat → s.dec.pos.toNat + 2 < 2 ^ 35 →
      ∃ t, exec (.run len) s = .next t ∧
        t.flight = .decoding fa n slice (out ++ List.replicate len.toNat s.dec.cur) ∧
        t.dec.total.toNat = s.dec.total.toNat + len.toNat ∧ t.dec.cur = !s.dec.cur ∧
        t.dec.pos.toNat = s.dec.pos.toNat + 2 ∧ t.dec.st = .runs ∧ t.dec.n = s.dec.n ∧
        t.status = s.status ∧ t.response = s.response ∧ t.hnd = s.hnd ∧ t.enc = s.enc ∧ t.ser = s.ser ∧
        t.rdr = s.rdr ∧ t.input = s.input ∧ t.operand = s.operand

/-- R166, R169: RUN that would take the total above `N` raises `FormatError`: the pixels appended so far are not
delivered, and the handle stands. -/
def Obligations.RunPastTheCountRaisesFormatError : Prop :=
  ∀ (s : State) (len : U16) fa n slice out,
    s.flight = .decoding fa n slice out → s.dec.st = .runs →
    s.dec.total.toNat ≤ s.dec.n.toNat → len.toNat > s.dec.n.toNat - s.dec.total.toNat →
      ∃ t, exec (.run len) s = .next t ∧ t.EndedFrom s .formatError .none ∧ t.hnd = s.hnd

/-- R175 with the bound of R170: the machine of `DEC`, run by steps from the start of a decode, ends within
`(len(B) + 5) / 2` steps and one that delivers (a step of its own by the model's log 2), with what `Decode(B, N)`
returns or raises. -/
def Obligations.DecoderMachineDeliversDecode : Prop :=
  ∀ (s : State) (n : U32) (B : List Byte),
    s.flight = .decoding false n B [] → s.dec.st = .idle → s.input.head? ≠ some .reset → B.length < 2 ^ 35 →
      ∃ k t, k ≤ (B.length + 5) / 2 + 1 ∧ core.run k s = .next t ∧ t.flight = .idle ∧ t.dec.st = .idle ∧
        t.hnd = s.hnd ∧
        (∀ px, decodeFrame B n.toNat = some px → t.status = .ok ∧ t.response = some ⟨.ok, .pixels px⟩) ∧
        (decodeFrame B n.toNat = none → t.status = .formatError ∧ t.response = some ⟨.formatError, .none⟩)

/-! ### BUILD -/

/-- R190, R191, R194 to R197: BUILD of frames that fit ends `OK` with header, index and encoded frames in that order and
nothing else; the handle, `DEC` and `RDR` stand as they were. -/
def Obligations.BuildAnswersTheBlob : Prop :=
  ∀ (s : State) (w h r : U16), s.UnitsIdle → Buildable s.operand.pixIn w h →
    ∃ t, exec (.build w h r) s = .next t ∧ t.EndedFrom s .ok (.bytes (blobOf s.operand.pixIn w h r)) ∧
      t.hnd = s.hnd ∧ t.dec = s.dec ∧ t.rdr = s.rdr

/-- R192, R199, R267: a zero dimension, or one frame anywhere whose pixel count is not `width*height`, raises
`DimensionError` before any capacity question, and nothing else changes. -/
def Obligations.BuildRaisesDimensionError : Prop :=
  ∀ (s : State) (w h r : U16), s.UnitsIdle →
    (w.toNat * h.toNat = 0 ∨ ∃ f ∈ s.operand.pixIn, f.length ≠ w.toNat * h.toNat) →
      exec (.build w h r) s = .next (s.faulted .dimensionError)

/-- R198: with right dimensions, more than `2^32 - 1` frames or more than `2^32 - 1` bytes of encoded frames raise
`CapacityError`; no offset wraps. -/
def Obligations.BuildRaisesCapacityError : Prop :=
  ∀ (s : State) (w h r : U16), s.UnitsIdle →
    w.toNat * h.toNat ≠ 0 → (∀ f ∈ s.operand.pixIn, f.length = w.toNat * h.toNat) →
    (s.operand.pixIn.length > 2 ^ 32 - 1 ∨ ((s.operand.pixIn.map encodeFrame).flatten).length > 2 ^ 32 - 1) →
      exec (.build w h r) s = .next (s.faulted .capacityError)

/-- R203: in a built blob entry 0 is 0, consecutive entries differ by the encoded length of the frame between them,
which is at least 3, and the last frame ends at the end of the blob. -/
def Obligations.BuiltIndexIncreases : Prop :=
  ∀ (frames : List (List Pixel)) (w h r : U16) (blob : List Byte), buildBlob frames w h r = .ok blob →
    (∀ f, frames.head? = some f → memRead blob 12 4 = some 0) ∧
    (∀ i f, frames[i]? = some f → i + 1 < frames.length →
      ∃ a b, memRead blob (12 + 4 * i) 4 = some a ∧ memRead blob (12 + 4 * (i + 1)) 4 = some b ∧
        b = a + (encodeFrame f).length ∧ a + 3 ≤ b) ∧
    (∀ f, frames.getLast? = some f →
      ∃ a, memRead blob (12 + 4 * (frames.length - 1)) 4 = some a ∧
        a + (encodeFrame f).length = blob.length - 12 - 4 * frames.length)

/-- R202: the size of a built blob and of its encoded frames, with the bounds of R202; it is within the largest size R5
gives. -/
def Obligations.BuiltBlobSize : Prop :=
  ∀ (frames : List (List Pixel)) (w h r : U16) (blob : List Byte), buildBlob frames w h r = .ok blob →
    blob.length = 12 + 4 * frames.length + (frames.map fun f => (encodeFrame f).length).sum ∧
    (∀ f ∈ frames, 3 ≤ (encodeFrame f).length ∧ (encodeFrame f).length ≤ 1 + 2 * (w.toNat * h.toNat)) ∧
    12 + 7 * frames.length ≤ blob.length ∧
    blob.length ≤ 12 + frames.length * (5 + 2 * (w.toNat * h.toNat)) ∧ blob.length ≤ 21474836487

/-- R72, R75, R205, R308: the index of a built blob gives ranges into which the encoded frames can be written in any
order: written at the offsets the blob's own entries hold, one frame each and in whatever order, they are the frame-data
section of the blob BUILD emits. No schedule of parallel encoders changes the blob. -/
def Obligations.AnyWriteOrderGivesTheFrameData : Prop :=
  ∀ (frames : List (List Pixel)) (w h r : U16) (blob : List Byte), buildBlob frames w h r = .ok blob →
    ∃ entry : Nat → Nat,
      (∀ i, i < frames.length → memRead blob (12 + 4 * i) 4 = some (entry i)) ∧
      ∀ order : List Nat, order.Perm (List.range frames.length) →
        order.foldl (fun m i => Memory.writeBytes m (entry i) (encodeFrame (frames.getD i []))) []
          = Memory.load (blob.drop (12 + 4 * frames.length))

/-! ### OPEN and the header record -/

/-- R220, R226, R228: OPEN of a blob that passes the four checks ends `OK` with no result; the handle registers are the
little-endian fields at offsets 0, 2, 4, 8, 10, the length and every byte of the blob; no unit is touched. -/
def Obligations.OpenCommitsTheHeader : Prop :=
  ∀ (s : State) (blob : List Byte) (w h fc fr : Nat),
    s.UnitsIdle → s.operand.byteIn = some blob → blob.length < 2 ^ 35 →
    memRead blob 0 2 = some w → memRead blob 2 2 = some h → memRead blob 4 4 = some fc →
    memRead blob 8 2 = some fr → memRead blob 10 2 = some 0 → 12 + 4 * fc ≤ blob.length → w * h ≠ 0 →
      ∃ t, exec .openBlob s = .next t ∧ t.EndedFrom s .ok .none ∧
        t.hnd.valid = true ∧ t.hnd.width.toNat = w ∧ t.hnd.height.toNat = h ∧ t.hnd.fcount.toNat = fc ∧
        t.hnd.rate.toNat = fr ∧ t.hnd.flags = 0 ∧ t.hnd.blobLen.toNat = blob.length ∧
        (∀ a, Memory.read t.hnd.blob a = blob[a]?) ∧
        t.enc = s.enc ∧ t.dec = s.dec ∧ t.ser = s.ser ∧ t.rdr = s.rdr

/-- R222 to R225, R229: a blob shorter than 12 bytes, one with `flags` not 0, one shorter than `12 + 4*frame_count` in
exact arithmetic, or one with a zero dimension raises `FormatError`, and the handle that was open stays as it was. -/
def Obligations.OpenRefusesBadHeaders : Prop :=
  ∀ (s : State) (blob : List Byte), s.UnitsIdle → s.operand.byteIn = some blob → blob.length < 2 ^ 35 →
    (blob.length < 12 ∨ (∃ fl, memRead blob 10 2 = some fl ∧ fl ≠ 0) ∨
      (∃ fc, memRead blob 4 4 = some fc ∧ blob.length < 12 + 4 * fc) ∨
      (∃ w h, memRead blob 0 2 = some w ∧ memRead blob 2 2 = some h ∧ w * h = 0)) →
      exec .openBlob s = .next (s.faulted .formatError)

/-- R221 for the header record as an OPEN in progress reads it: HDR with legal fields commits them with the blob and
ends the OPEN with `OK`; no unit is touched (that HDR is run as a step of its own is the model's choice, log 16). -/
def Obligations.HdrCommitsItsFields : Prop :=
  ∀ (s : State) (w h : U16) (fc : U32) (fr : U16) (blob : List Byte),
    s.flight = .opening blob → s.enc.st = .idle → s.dec.st = .idle → s.ser.phase = .idle → blob.length < 2 ^ 35 →
    12 + 4 * fc.toNat ≤ blob.length → w.toNat * h.toNat ≠ 0 →
      ∃ t, exec (.hdr w h fc fr 0) s = .next t ∧ t.EndedFrom s .ok .none ∧
        t.hnd = ⟨true, w, h, fc, fr, 0, BitVec.ofNat 35 blob.length, Memory.load blob⟩ ∧
        t.hnd.blobLen.toNat = blob.length ∧ t.enc = s.enc ∧ t.dec = s.dec ∧ t.ser = s.ser ∧ t.rdr = s.rdr

/-- R223, R224, R225 for the header record: HDR with `flags` not 0, a blob too short for its index or a zero dimension
ends the OPEN with `FormatError` and leaves the handle (the model's log 16). -/
def Obligations.HdrRefusesBadFields : Prop :=
  ∀ (s : State) (w h : U16) (fc : U32) (fr fl : U16) (blob : List Byte), s.flight = .opening blob →
    (fl ≠ 0 ∨ blob.length < 12 + 4 * fc.toNat ∨ w.toNat * h.toNat = 0) →
      ∃ t, exec (.hdr w h fc fr fl) s = .next t ∧ t.EndedFrom s .formatError .none ∧ t.hnd = s.hnd ∧ t.rdr = s.rdr

/-! ### FRAMEAT and the index entries -/

/-- R230, R234, R235, R237: with a handle open, an index in range, entries that give a range inside the frame data, and
a slice that is a marker and whole fields summing to `width*height`, FRAMEAT ends `OK` with that frame; the handle is
read and never written, `ENC` and `SER` stand as they were. The end of the last frame is the end of the blob. -/
def Obligations.FrameAtAnswersTheFrame : Prop :=
  ∀ (s : State) (k : U32) (start stop : Nat) (v : Pixel) (fields : List Nat),
    s.UnitsIdle → s.hnd.valid = true → k.toNat < s.hnd.fcount.toNat →
    Memory.readLE s.hnd.blob (12 + 4 * k.toNat) 4 = some start →
    (k.toNat + 1 < s.hnd.fcount.toNat → Memory.readLE s.hnd.blob (12 + 4 * (k.toNat + 1)) 4 = some stop) →
    (k.toNat + 1 = s.hnd.fcount.toNat → stop = s.hnd.blobLen.toNat - (12 + 4 * s.hnd.fcount.toNat)) →
    start ≤ stop → stop ≤ s.hnd.blobLen.toNat - (12 + 4 * s.hnd.fcount.toNat) →
    Memory.readBytes s.hnd.blob (12 + 4 * s.hnd.fcount.toNat + start) (stop - start)
      = some (encodedFrame v fields) →
    (∀ f ∈ fields, f ≤ 65535) → fields.sum = s.hnd.width.toNat * s.hnd.height.toNat →
      ∃ t, exec (.frameat k) s = .next t ∧ t.EndedFrom s .ok (.pixels (expandFields v fields)) ∧
        t.hnd = s.hnd ∧ t.enc = s.enc ∧ t.ser = s.ser

/-- R233, R232, R239, R267: without a handle FRAMEAT raises `CommandError` whatever the index; with one, an index not
below `HND_FCOUNT` raises `IndexError`; the handle stands. -/
def Obligations.FrameAtChecksHandleThenIndex : Prop :=
  ∀ (s : State) (k : U32), s.UnitsIdle →
    (s.hnd.valid = false → exec (.frameat k) s = .next (s.faulted .commandError)) ∧
    (s.hnd.valid = true → s.hnd.fcount.toNat ≤ k.toNat → exec (.frameat k) s = .next (s.faulted .indexError))

/-- R236: entries that give no range inside the frame-data section raise `FormatError`; the handle stands. -/
def Obligations.FrameAtRefusesBadRanges : Prop :=
  ∀ (s : State) (k : U32) (start stop : Nat),
    s.UnitsIdle → s.hnd.valid = true → k.toNat < s.hnd.fcount.toNat →
    Memory.readLE s.hnd.blob (12 + 4 * k.toNat) 4 = some start →
    (k.toNat + 1 < s.hnd.fcount.toNat → Memory.readLE s.hnd.blob (12 + 4 * (k.toNat + 1)) 4 = some stop) →
    (k.toNat + 1 = s.hnd.fcount.toNat → stop = s.hnd.blobLen.toNat - (12 + 4 * s.hnd.fcount.toNat)) →
    (start > stop ∨ stop > s.hnd.blobLen.toNat - (12 + 4 * s.hnd.fcount.toNat)) →
      exec (.frameat k) s = .next (s.faulted .formatError)

/-- R238: a slice that is not a marker and whole fields summing to `width*height` raises `FormatError`; the handle stays
open and unchanged. -/
def Obligations.FrameAtRefusesBadSlices : Prop :=
  ∀ (s : State) (k : U32) (start stop : Nat) (slice : List Byte),
    s.UnitsIdle → s.hnd.valid = true → k.toNat < s.hnd.fcount.toNat →
    Memory.readLE s.hnd.blob (12 + 4 * k.toNat) 4 = some start →
    (k.toNat + 1 < s.hnd.fcount.toNat → Memory.readLE s.hnd.blob (12 + 4 * (k.toNat + 1)) 4 = some stop) →
    (k.toNat + 1 = s.hnd.fcount.toNat → stop = s.hnd.blobLen.toNat - (12 + 4 * s.hnd.fcount.toNat)) →
    start ≤ stop → stop ≤ s.hnd.blobLen.toNat - (12 + 4 * s.hnd.fcount.toNat) →
    Memory.readBytes s.hnd.blob (12 + 4 * s.hnd.fcount.toNat + start) (stop - start) = some slice →
    (∀ v fields, (∀ f ∈ fields, f ≤ 65535) → fields.sum = s.hnd.width.toNat * s.hnd.height.toNat →
      slice ≠ encodedFrame v fields) →
      exec (.frameat k) s = .next (s.faulted .formatError)

/-- R235 for the index entries as a FRAMEAT in progress reads them: the first IDX is `RDR.start`; where a next entry
exists it is read next; otherwise, and after the second IDX, the range is complete and, where it lies inside the
frame-data section, its bytes are handed to `DEC` with `N = width*height` (that IDX is run as a step of its own is the
model's choice, log 16). -/
def Obligations.IdxGivesStartThenEnd : Prop :=
  ∀ (s : State) (k off : U32),
    (s.flight = .seeking k .start → k.toNat + 1 < s.hnd.fcount.toNat →
      exec (.idx off) s =
        .next { s with rdr := { s.rdr with start := off.setWidth 35 }, flight := .seeking k .stop }) ∧
    (∀ slice, s.flight = .seeking k .start → k.toNat + 1 = s.hnd.fcount.toNat →
      frameSlice s.hnd off.toNat s.rdr.dlen.toNat = some slice →
        exec (.idx off) s = .next { s with
          rdr := { s.rdr with start := off.setWidth 35, stop := s.rdr.dlen }
          flight := .decoding true (BitVec.ofNat 32 (s.hnd.width.toNat * s.hnd.height.toNat)) slice [] }) ∧
    (∀ slice, s.flight = .seeking k .stop → frameSlice s.hnd s.rdr.start.toNat off.toNat = some slice →
        exec (.idx off) s = .next { s with
          rdr := { s.rdr with stop := off.setWidth 35 }
          flight := .decoding true (BitVec.ofNat 32 (s.hnd.width.toNat * s.hnd.height.toNat)) slice [] })

/-- R236 for a FRAMEAT in progress: the second IDX, or the first of the last frame, that completes no range inside the
frame-data section raises `FormatError` and leaves the handle (the model's log 16). -/
def Obligations.IdxRefusesBadRanges : Prop :=
  ∀ (s : State) (k off : U32),
    (s.flight = .seeking k .start → k.toNat + 1 = s.hnd.fcount.toNat →
      (off.toNat > s.rdr.dlen.toNat ∨ s.rdr.dlen.toNat > dataLen s.hnd) →
        ∃ t, exec (.idx off) s = .next t ∧ t.EndedFrom s .formatError .none ∧ t.hnd = s.hnd) ∧
    (s.flight = .seeking k .stop → (s.rdr.start.toNat > off.toNat ∨ off.toNat > dataLen s.hnd) →
        ∃ t, exec (.idx off) s = .next t ∧ t.EndedFrom s .formatError .none ∧ t.hnd = s.hnd)

/-- R240: what FRAMEAT answers depends on the handle and the index alone, whatever came before. -/
def Obligations.FrameAtDependsOnTheHandleAlone : Prop :=
  ∀ (s s' t : State) (k : U32), s.UnitsIdle → s'.UnitsIdle → s.hnd = s'.hnd → exec (.frameat k) s = .next t →
    ∃ t', exec (.frameat k) s' = .next t' ∧ t'.status = t.status ∧ t'.response = t.response ∧ t'.hnd = t.hnd

/-! ### Status, faults, reset -/

/-- R22, R23, R35: the numbers of `STATUS.code`, and what the host reads at each ordinal; nothing else is readable. -/
def Obligations.HostReadsStatusAndHandle : Prop :=
  (Code.ok.bits = 0 ∧ Code.dimensionError.bits = 1 ∧ Code.formatError.bits = 2 ∧ Code.indexError.bits = 3 ∧
    Code.capacityError.bits = 4 ∧ Code.commandError.bits = 5) ∧
  ∀ s : State,
    (s.hostRead 0).map BitVec.toNat = some s.status.bits.toNat ∧
    (s.hostRead 1).map BitVec.toNat = some (if s.hnd.valid then 1 else 0) ∧
    (s.hostRead 2).map BitVec.toNat = some s.hnd.width.toNat ∧
    (s.hostRead 3).map BitVec.toNat = some s.hnd.height.toNat ∧
    (s.hostRead 4).map BitVec.toNat = some s.hnd.fcount.toNat ∧
    (s.hostRead 5).map BitVec.toNat = some s.hnd.rate.toNat ∧
    (s.hostRead 6).map BitVec.toNat = some s.hnd.flags.toNat ∧
    (s.hostRead 7).map BitVec.toNat = some s.hnd.blobLen.toNat ∧ ∀ k, 7 < k → s.hostRead k = none

/-- R268: faults are precise. An operation that does not end `OK` leaves the state as it was but for `STATUS.code`, the
response, which carries the code and no result, and its operand, which does not persist (R26). A faulting command, legal
or not, leaves the state before it but for `STATUS.code` and that response. -/
def Obligations.FaultsArePrecise : Prop :=
  (∀ (i : Instr) (s t : State), s.UnitsIdle → exec i s = .next t → t.status ≠ .ok → t = s.faulted t.status) ∧
  ∀ (s t : State) (r : Request) (later : List Input),
    s.UnitsIdle → s.operand = Operand.empty → s.input = .command r :: later → step s = .next t → t.status ≠ .ok →
      t = { s with input := later, status := t.status, response := some ⟨t.status, .none⟩ }

/-- R272: the codes each operation can end with. -/
def Obligations.FaultMatrix : Prop :=
  ∀ (s t : State), s.UnitsIdle →
    (exec .encode s = .next t → t.status = .ok ∨ t.status = .commandError) ∧
    (∀ n, exec (.decode n) s = .next t →
      t.status = .ok ∨ t.status = .formatError ∨ t.status = .commandError) ∧
    (∀ w h r, exec (.build w h r) s = .next t →
      t.status = .ok ∨ t.status = .dimensionError ∨ t.status = .capacityError) ∧
    (exec .openBlob s = .next t → t.status = .ok ∨ t.status = .formatError ∨ t.status = .commandError) ∧
    (∀ k, exec (.frameat k) s = .next t →
      t.status = .ok ∨ t.status = .formatError ∨ t.status = .indexError ∨ t.status = .commandError)

/-- R270, R32: a fault does not latch, and no operation reads `STATUS.code`: what an operation does is the same whatever
the last status and response were. -/
def Obligations.FaultDoesNotLatch : Prop :=
  ∀ (i : Instr) (s t : State) (c : Code) (r : Option Response), s.UnitsIdle →
    exec i s = .next t → exec i { s with status := c, response := r } = .next t

/-- R35: only a successful OPEN writes the handle. In every step that changes it, the block was reset, or an OPEN ended
with `OK` and the handle is that of its blob. -/
def Obligations.OnlyOpenWritesTheHandle : Prop :=
  ∀ s t : State, step s = .next t → t.hnd ≠ s.hnd →
    (∃ later, s.input = .reset :: later ∧ t.hnd = Handle.reset) ∨
    (t.status = .ok ∧ t.response = some ⟨.ok, .none⟩ ∧ t.hnd.valid = true ∧
      ∃ blob, t.hnd.blob = Memory.load blob ∧
        (s.flight = .opening blob ∨
          ∃ r later, s.flight = .idle ∧ s.input = .command r :: later ∧ r.word = 4 ∧
            r.operand.byteIn = some blob))

/-- R34: the values the spec gives for reset. -/
def Obligations.ResetValues : Prop :=
  State.reset.status = .ok ∧ State.reset.hnd = ⟨false, 0, 0, 0, 0, 0, 0, []⟩ ∧ State.reset.enc.st = .idle ∧
    State.reset.dec.st = .idle ∧ State.reset.flight = .idle ∧ State.reset.response = none

/-- R300: the reset event, whenever it arrives, puts the block to the reset values; an operation in progress is
abandoned without a response. Nothing else closes a handle without opening another. That the operand channel is empty
afterwards, where R26 gives it no reset value, and that the commands presented later stand as they were, are the model's
choices, logs 14 and 18. -/
def Obligations.ResetAbandonsTheOperation : Prop :=
  (∀ (s : State) (later : List Input), s.input = .reset :: later →
    ∃ t, step s = .next t ∧ t.status = .ok ∧ t.hnd = ⟨false, 0, 0, 0, 0, 0, 0, []⟩ ∧ t.UnitsIdle ∧ t.response = none ∧
      t.operand = Operand.empty ∧ t.input = later) ∧
  ∀ s t : State, step s = .next t → s.hnd.valid = true → t.hnd.valid = false → ∃ later, s.input = .reset :: later

/-- R301, R26: with no command presented and none in progress the block waits: nothing changes, but that a response
passed with the step before is gone (the model's logs 1 and 13). -/
def Obligations.IdleBlockWaits : Prop :=
  ∀ s : State, s.flight = .idle → s.input = [] → step s = .next { s with response := none }

/-! ### Invariants and laws -/

/-- The invariant holds after reset. -/
def Obligations.ResetMeetsTheInvariant : Prop := State.reset.Inv

/-- Every step keeps the invariant: the open handle is the parsed header of the blob it holds, with a complete index and
non-zero dimensions (R23, R24); between operations every unit is `IDLE`; the working registers of a unit at work keep
their ranges (R27 to R29) and the decoder's loop invariants (R161); an operand is there only while its operation is in
progress, a response only right after the step that ended one, agreeing with `STATUS.code` (R11, R26). -/
def Obligations.StepKeepsTheInvariant : Prop :=
  ∀ s t : State, s.Inv → step s = .next t → t.Inv

/-- R176: DECODE of what ENCODE answers, with the frame's own pixel count, ends `OK` with the frame. -/
def Obligations.DecodeOfEncodeIsTheFrame : Prop :=
  ∀ (s s' : State) (F : List Pixel), s.UnitsIdle → s'.UnitsIdle → s.operand.pixIn = [F] → F.length < 2 ^ 32 →
    ∃ t B, exec .encode s = .next t ∧ t.response = some ⟨.ok, .bytes B⟩ ∧
      (s'.operand.byteIn = some B →
        ∃ t', exec (.decode (BitVec.ofNat 32 F.length)) s' = .next t' ∧ t'.status = .ok ∧
          t'.response = some ⟨.ok, .pixels F⟩)

/-- R178: a canonical encoded frame decodes, and it is the encoding of the frame it decodes to; of a slice that decodes
but is not canonical, the frame's encoding is canonical and another. -/
def Obligations.EncodeOfDecodeIsTheCanonicalFrame : Prop :=
  (∀ v fields, (∀ f ∈ fields, f ≤ 65535) → Canonical (encodedFrame v fields) →
    ∃ F, decodeFrame (encodedFrame v fields) fields.sum = some F ∧ encodeFrame F = encodedFrame v fields) ∧
  (∀ (B : List Byte) (n : Nat) (F : List Pixel), ¬ Canonical B → decodeFrame B n = some F →
    Canonical (encodeFrame F) ∧ encodeFrame F ≠ B)

/-- R242: the handle that OPEN of a built blob leaves: the operands of the BUILD, the number of frames, `flags = 0` and
the blob's length. OPEN of a built blob never faults. -/
def Obligations.OpenReadsBackTheBuiltHeader : Prop :=
  ∀ (s t s' : State) (w h r : U16) (blob : List Byte), s.UnitsIdle → s'.UnitsIdle →
    exec (.build w h r) s = .next t → t.response = some ⟨.ok, .bytes blob⟩ → s'.operand.byteIn = some blob →
      ∃ t', exec .openBlob s' = .next t' ∧ t'.status = .ok ∧ t'.hnd.valid = true ∧ t'.hnd.width = w ∧
        t'.hnd.height = h ∧ t'.hnd.fcount.toNat = s.operand.pixIn.length ∧ t'.hnd.rate = r ∧ t'.hnd.flags = 0 ∧
        t'.hnd.blobLen.toNat = blob.length

/-- R241: with a built blob open, FRAMEAT of every index below the number of frames ends `OK` with that frame, and of
every other index with `IndexError`. -/
def Obligations.RandomAccessGivesTheFrames : Prop :=
  ∀ (s t s' t' u : State) (w h r : U16) (blob : List Byte) (k : U32),
    s.UnitsIdle → s'.UnitsIdle → u.UnitsIdle →
    exec (.build w h r) s = .next t → t.response = some ⟨.ok, .bytes blob⟩ →
    s'.operand.byteIn = some blob → exec .openBlob s' = .next t' → u.hnd = t'.hnd →
      ∃ u', exec (.frameat k) u = .next u' ∧
        (∀ F, s.operand.pixIn[k.toNat]? = some F → u'.status = .ok ∧ u'.response = some ⟨.ok, .pixels F⟩) ∧
        (s.operand.pixIn[k.toNat]? = none → u'.status = .indexError ∧ u'.response = some ⟨.indexError, .none⟩)

/-- R147, R175, R204, R70: a command run by the steps of the units ends as the same command does in one transition: the
same status, response and handle (the stepped form is the model's, log 2). -/
def Obligations.SteppedOperationEndsAsTheAtomicOne : Prop :=
  ∀ (s u : State) (r : Request) (later : List Input), s.Inv → s.flight = .idle → later.head? ≠ some .reset →
    step { s with input := .command r :: later } = .next u →
      ∃ k t, core.run k { s with input := .stepped r :: later } = .next t ∧ t.SameOutcome u

/-- R20, R27 to R30, R34: no result depends on what working registers held before, nor on the last status or response
(R32). Two states between operations with the same handle answer a command alike, in one transition; and run by the
steps of the units from each of them (the model's log 2), the command is answered, and just as it is in one
transition. -/
def Obligations.WorkingRegistersAreNotReadBeforeWritten : Prop :=
  ∀ (s s' : State) (r : Request) (later : List Input),
    s.Inv → s'.Inv → s.flight = .idle → s'.flight = .idle → s'.hnd = s.hnd → later.head? ≠ some .reset →
    (∀ B, r.operand.byteIn = some B → B.length < 2 ^ 35) →
      ∃ u u', step { s with input := .command r :: later } = .next u ∧
        step { s' with input := .command r :: later } = .next u' ∧ u.SameOutcome u' ∧
        ∃ k k' t t', core.run k { s with input := .stepped r :: later } = .next t ∧
          core.run k' { s' with input := .stepped r :: later } = .next t' ∧ t.SameOutcome t' ∧ t.SameOutcome u ∧
          t.input = later ∧ t.response ≠ none

/-- R311: every operation terminates: from any state of the invariant with an operation in progress and no reset
arriving, steps lead to a state with none in progress and a response for it. -/
def Obligations.EveryOperationEnds : Prop :=
  ∀ s : State, s.Inv → s.flight ≠ .idle → s.input.head? ≠ some .reset →
    ∃ k t, 0 < k ∧ core.run k s = .next t ∧ t.flight = .idle ∧ t.input = s.input ∧ t.response ≠ none
end

