-- ==== Sys2Proof/Laws/Bytes.lean ====
section
/-! SUPPORT. Byte order: what `leBytes`, `leValue` and `memRead` say of each other (R62, R66). -/

namespace Sys2Proof

@[simp] theorem leBytes_zero (v : Nat) : leBytes 0 v = [] := rfl

theorem leBytes_succ (n v : Nat) : leBytes (n + 1) v = BitVec.ofNat 8 (v % 256) :: leBytes n (v / 256) := rfl

@[simp] theorem length_leBytes (n v : Nat) : (leBytes n v).length = n := by
  induction n generalizing v with
  | zero => rfl
  | succ n ih => simp [leBytes_succ, ih]

@[simp] theorem length_le16 (v : Nat) : (le16 v).length = 2 := length_leBytes 2 v

@[simp] theorem length_le32 (v : Nat) : (le32 v).length = 4 := length_leBytes 4 v

@[simp] theorem leValue_nil : leValue [] = 0 := rfl

theorem leValue_cons (b : Byte) (bs : List Byte) : leValue (b :: bs) = b.toNat + 256 * leValue bs := rfl

theorem leValue_lt (bs : List Byte) : leValue bs < 256 ^ bs.length := by
  induction bs with
  | nil => simp
  | cons b bs ih =>
    have := b.isLt
    simp only [leValue_cons, List.length_cons, pow_succ]
    omega

/-- A number read back from its own little-endian bytes. -/
theorem leValue_leBytes (n v : Nat) : leValue (leBytes n v) = v % 256 ^ n := by
  induction n generalizing v with
  | zero => simp [Nat.mod_one]
  | succ n ih =>
    rw [leBytes_succ, leValue_cons, ih, pow_succ, Nat.mul_comm (256 ^ n), Nat.mod_mul]
    simp

/-- Bytes written back from their own value. -/
theorem leBytes_leValue (bs : List Byte) : leBytes bs.length (leValue bs) = bs := by
  induction bs with
  | nil => rfl
  | cons b bs ih =>
    have := b.isLt
    have hm : (b.toNat + 256 * leValue bs) % 256 = b.toNat := by omega
    have hd : (b.toNat + 256 * leValue bs) / 256 = leValue bs := by omega
    simp [leValue_cons, leBytes_succ, hm, hd, ih]

theorem leValue_le16 {v : Nat} (h : v < 65536) : leValue (le16 v) = v := by
  rw [le16, leValue_leBytes]; exact Nat.mod_eq_of_lt (by simpa using h)

theorem leValue_le32 {v : Nat} (h : v < 4294967296) : leValue (le32 v) = v := by
  rw [le32, leValue_leBytes]; exact Nat.mod_eq_of_lt (by simpa using h)

/-- A read in range answers the value of its bytes. -/
theorem memRead_of_le {S : List Byte} {a n : Nat} (h : a + n ≤ S.length) :
    memRead S a n = some (leValue ((S.drop a).take n)) := by simp [memRead, h]

/-- A read out of range answers nothing. -/
theorem memRead_of_lt {S : List Byte} {a n : Nat} (h : S.length < a + n) : memRead S a n = none := by
  simp [memRead]; omega

theorem memRead_lt {S : List Byte} {a n v : Nat} (h : memRead S a n = some v) : v < 256 ^ n := by
  by_cases hl : a + n ≤ S.length
  · rw [memRead_of_le hl] at h
    have hlen : ((S.drop a).take n).length = n := by simp; omega
    have := leValue_lt ((S.drop a).take n)
    rw [hlen] at this
    simp_all
  · simp [memRead, hl] at h

/-- A field in the middle of a byte sequence. -/
theorem memRead_append {A B : List Byte} {F : List Byte} :
    memRead (A ++ (F ++ B)) A.length F.length = some (leValue F) := by
  rw [memRead_of_le (by simp)]; simp

/-- A header is there exactly when twelve bytes are (R222). -/
theorem readHeader_isSome_iff (S : List Byte) : (readHeader S).isSome ↔ 12 ≤ S.length := by
  by_cases h : 12 ≤ S.length
  · simp [readHeader, memRead, h, show 2 ≤ S.length by omega, show 4 ≤ S.length by omega,
      show 8 ≤ S.length by omega, show 10 ≤ S.length by omega]
  · constructor
    · intro hs
      have : memRead S 10 2 = none := memRead_of_lt (by omega)
      simp [readHeader, this] at hs
    · intro; omega

end Sys2Proof
end

