-- ==== Sys2Proof/Laws/Codec.lean ====
section
/-! SUPPORT. Frames, runs, fields and bytes: what `Encode` emits and what `Decode` accepts. -/

namespace Sys2Proof.Machine

open Sys2Proof

/-- A run of at most 65535 is one field. -/
theorem runGroup_small {L : Nat} (h1 : 1 ≤ L) (h : L ≤ 65535) : runGroup L = [L] := by
  have : ceilRun L = 1 := by simp only [ceilRun, Config.runMax]; omega
  simp [runGroup, this]

/-- 65535 more pixels are two more fields in front (R135). -/
theorem runGroup_big {L : Nat} (h1 : 1 ≤ L) : runGroup (L + 65535) = 65535 :: 0 :: runGroup L := by
  have h2 : ceilRun (L + 65535) = ceilRun L + 1 := by simp only [ceilRun, Config.runMax]; omega
  have h3 : 1 ≤ ceilRun L := by simp only [ceilRun, Config.runMax]; omega
  obtain ⟨q, hq⟩ : ∃ q, ceilRun L = q + 1 := ⟨ceilRun L - 1, by omega⟩
  have h4 : L + 65535 - 65535 * (q + 1) = L - 65535 * q := by omega
  simp only [runGroup, h2, hq, Config.runMax, Nat.add_sub_cancel, List.replicate_succ, List.flatten_cons,
      List.cons_append, List.nil_append, h4]

/-- The scan emits the fields of the runs that remain (R131, R105). -/
theorem encodeScan_eq_runs (rest : List Pixel) : ∀ (v : Pixel) (c : Nat), 1 ≤ c → c ≤ 65535 →
    encodeScan v c rest = ((runLengthsFrom v c rest).flatMap runGroup).flatMap le16 := by
  induction rest with
  | nil => intro v c h1 h2; simp [encodeScan, runLengthsFrom, runGroup_small h1 h2]
  | cons p rest ih =>
    intro v c h1 h2
    have key : ∀ (rest : List Pixel) (v : Pixel) (c : Nat), 1 ≤ c →
        (runLengthsFrom v (c + 65535) rest).flatMap runGroup =
            65535 :: 0 :: (runLengthsFrom v c rest).flatMap runGroup := by
      intro rest
      induction rest with
      | nil => intro v c h; simp [runLengthsFrom, runGroup_big h]
      | cons q rest ih' =>
        intro v c h
        simp only [runLengthsFrom]
        split
        · rw [show c + 65535 + 1 = c + 1 + 65535 by omega, ih' _ _ (by omega)]
        · simp [runGroup_big h]
    simp only [encodeScan, runLengthsFrom, Config.runMax]
    split
    · split
      · rename_i hp hc
        subst hc
        rw [ih v 1 (by omega) (by omega), show 65535 + 1 = 1 + 65535 by omega, key rest v 1 (by omega)]
        simp only [List.flatMap_cons]
        rfl
      · rename_i hp hc
        exact ih v (c + 1) (by omega) (by omega)
    · rw [ih p 1 (by omega) (by omega)]
      simp [runGroup_small h1 h2]

/-- `Encode` by its scan and by maximal runs is the same function (R131, R105). -/
theorem encodeFrame_eq_canonicalEncoding (F : List Pixel) : encodeFrame F = canonicalEncoding F := by
  cases F with
  | nil => rfl
  | cons p rest => simp [encodeFrame, canonicalEncoding, encodedFrame, runLengths,
      encodeScan_eq_runs rest p 1 (by omega) (by omega)]

/-- More pixels of the value in hand lengthen the run in hand. -/
theorem runLengthsFrom_replicate (v : Pixel) (L c : Nat) (rest : List Pixel) :
    runLengthsFrom v c (List.replicate L v ++ rest) = runLengthsFrom v (c + L) rest := by
  induction L generalizing c with
  | zero => rfl
  | succ L ih => rw [List.replicate_succ, List.cons_append, runLengthsFrom, if_pos rfl, ih, Nat.add_assoc,
      Nat.add_comm 1 L]

/-- The number of fields of a run (R146). -/
theorem runGroup_length (L : Nat) (h : 1 ≤ L) : (runGroup L).length = 2 * ceilRun L - 1 := by
  have : 1 ≤ ceilRun L := by simp [ceilRun]; omega
  simp [runGroup]; omega

/-- Every maximal run has a pixel. -/
theorem runLengthsFrom_pos (F : List Pixel) : ∀ v c, 1 ≤ c → ∀ L ∈ runLengthsFrom v c F, 1 ≤ L := by
  induction F with
  | nil => intro v c h L hL; simp [runLengthsFrom] at hL; omega
  | cons p F ih =>
    intro v c h L hL
    simp only [runLengthsFrom] at hL
    split at hL
    · exact ih _ _ (by omega) L hL
    · rcases List.mem_cons.mp hL with rfl | hL
      · exact h
      · exact ih _ _ (by omega) L hL

theorem runLengthsFrom_ne_nil (F : List Pixel) : ∀ v c, runLengthsFrom v c F ≠ [] := by
  induction F with
  | nil => intro v c; simp [runLengthsFrom]
  | cons p F ih => intro v c; simp only [runLengthsFrom]; split <;> simp [ih]

/-- The runs cover the frame. -/
theorem runLengthsFrom_sum (F : List Pixel) : ∀ v c, (runLengthsFrom v c F).sum = c + F.length := by
  induction F with
  | nil => intro v c; simp [runLengthsFrom]
  | cons p F ih => intro v c; simp only [runLengthsFrom]; split <;> simp [ih] <;> omega

theorem flatMap_le16_length (l : List Nat) : (l.flatMap le16).length = 2 * l.length := by
  induction l with
  | nil => rfl
  | cons a l ih => simp [ih]; omega

theorem leValue_pair_lt (l h : Byte) : leValue [l, h] < 65536 := by
  have := leValue_lt [l, h]; simpa using this

theorem le16_leValue_pair (l h : Byte) : le16 (leValue [l, h]) = [l, h] := leBytes_leValue [l, h]

/-- The fields count the pixels. -/
theorem expandFields_length (v : Pixel) (fs : List Nat) : (expandFields v fs).length = fs.sum := by
  induction fs generalizing v with
  | nil => rfl
  | cons f fs ih => simp [expandFields, ih]

/-- Whole fields that sum to what is wanted decode to their pixels. -/
theorem decodeRuns_fields (n : Nat) (fs : List Nat) : ∀ v total, (∀ f ∈ fs, f ≤ 65535) → total + fs.sum = n →
    decodeRuns n v total (fs.flatMap le16) = some (expandFields v fs) := by
  induction fs with
  | nil => intro v total _ h; simp at h; simp [decodeRuns, expandFields, h]
  | cons f fs ih =>
    intro v total hf h
    have h1 := hf f (by simp)
    simp only [List.sum_cons] at h
    have h2 : le16 f = [BitVec.ofNat 8 (f % 256), BitVec.ofNat 8 (f / 256 % 256)] := rfl
    have h3 : leValue [BitVec.ofNat 8 (f % 256), BitVec.ofNat 8 (f / 256 % 256)] =
        f := by rw [← h2]; exact leValue_le16 (by omega)
    rw [List.flatMap_cons, h2, List.cons_append, List.cons_append, List.nil_append, decodeRuns, h3,
        if_neg (by omega),
      ih _ _ (fun g hg => hf g (by simp [hg])) (by omega)]
    rfl

/-- Whatever decodes is whole fields that sum to what is wanted. -/
theorem decodeRuns_some (n : Nat) : ∀ (B : List Byte) (v : Pixel) (total : Nat) (px : List Pixel), total ≤ n →
    decodeRuns n v total B = some px → ∃ fs : List Nat, (∀ f ∈ fs, f ≤ 65535) ∧ total + fs.sum = n ∧ B =
        fs.flatMap le16 ∧ px = expandFields v fs
  | [], v, total, px, _, h => by
    simp [decodeRuns] at h
    exact ⟨[], by simp, by simpa using h.1, rfl, by simp [expandFields, h.2]⟩
  | [_], v, total, px, _, h => by simp [decodeRuns] at h
  | l :: h :: rest, v, total, px, ht, hd => by
    rw [decodeRuns] at hd
    split at hd
    · cases hd
    · rename_i hle
      obtain ⟨px', hpx, rfl⟩ := Option.map_eq_some_iff.mp hd
      obtain ⟨fs, h1, h2, h3, h4⟩ := decodeRuns_some n rest (!v) (total + leValue [l, h]) px' (by omega) hpx
      have := leValue_pair_lt l h
      refine ⟨leValue [l, h] :: fs, ?_, ?_, ?_, ?_⟩
      · intro f hf
        rcases List.mem_cons.mp hf with rfl | hf
        · omega
        · exact h1 f hf
      · simp only [List.sum_cons]; omega
      · rw [List.flatMap_cons, le16_leValue_pair, ← h3]; rfl
      · rw [h4]; rfl

theorem pixelByte_toNat (v : Pixel) : (pixelByte v).toNat = if v then 1 else 0 := by cases v <;> rfl

/-- A marker and whole fields that sum to `N` decode to their pixels (R160). -/
theorem decodeFrame_fields (n : Nat) (v : Pixel) (fs : List Nat) (hf : ∀ f ∈ fs, f ≤ 65535) (hs : fs.sum = n) :
    decodeFrame (encodedFrame v fs) n = some (expandFields v fs) := by
  have h1 : ¬ (pixelByte v).toNat > 1 := by cases v <;> decide
  have h2 : (pixelByte v).getLsbD 0 = v := by cases v <;> rfl
  simp only [decodeFrame, encodedFrame, if_neg h1, h2]
  exact decodeRuns_fields n fs v 0 hf (by omega)

/-- Whatever decodes is a marker and whole fields that sum to `N` (R162 to R168). -/
theorem decodeFrame_some {B : List Byte} {n : Nat} {px : List Pixel} (h : decodeFrame B n = some px) :
    ∃ v fs, (∀ f ∈ fs, f ≤ 65535) ∧ fs.sum = n ∧ B = encodedFrame v fs ∧ px = expandFields v fs := by
  cases B with
  | nil => simp [decodeFrame] at h
  | cons m rest =>
    simp only [decodeFrame] at h
    split at h
    · cases h
    · rename_i hm
      obtain ⟨fs, h1, h2, h3, h4⟩ := decodeRuns_some n rest _ 0 px (by omega) h
      refine ⟨m.getLsbD 0, fs, h1, by omega, ?_, h4⟩
      have : m = pixelByte (m.getLsbD 0) := by
        have hc : m.toNat = 0 ∨ m.toNat = 1 := by omega
        rcases hc with hc | hc
        · have : m = 0#8 := BitVec.eq_of_toNat_eq hc
          subst this; rfl
        · have : m = 1#8 := BitVec.eq_of_toNat_eq hc
          subst this; rfl
      rw [encodedFrame, ← this, h3]

/-- The fields of one run keep the form of R105. -/
theorem canonicalFrom_runGroup (L : Nat) (h : 1 ≤ L) (prev : Nat) (tail : List Nat) :
    canonicalFrom prev (runGroup L ++ tail) = canonicalFrom ((L - 1) % 65535 + 1) tail := by
  induction L using Nat.strong_induction_on generalizing prev with
  | _ L ih =>
    by_cases hL : L ≤ 65535
    · rw [runGroup_small h hL]
      have : (L - 1) % 65535 + 1 = L := by omega
      simp [canonicalFrom, this]; omega
    · obtain ⟨M, rfl⟩ : ∃ M, L = M + 65535 := ⟨L - 65535, by omega⟩
      rw [runGroup_big (by omega)]
      simp only [List.cons_append, canonicalFrom]
      rw [ih M (by omega) (by omega) 0]
      have : (M + 65535 - 1) % 65535 = (M - 1) % 65535 := by omega
      rw [this]; simp

/-- Every field of a run fits 16 bits. -/
theorem runGroup_le (L : Nat) (h : 1 ≤ L) : ∀ f ∈ runGroup L, f ≤ 65535 := by
  induction L using Nat.strong_induction_on with
  | _ L ih =>
    by_cases hL : L ≤ 65535
    · rw [runGroup_small h hL]; simpa using hL
    · obtain ⟨M, rfl⟩ : ∃ M, L = M + 65535 := ⟨L - 65535, by omega⟩
      rw [runGroup_big (by omega)]
      intro f hf
      simp only [List.mem_cons] at hf
      rcases hf with rfl | rfl | hf
      · omega
      · omega
      · exact ih M (by omega) (by omega) f hf

/-- The fields of a run sum to its length. -/
theorem runGroup_sum (L : Nat) (h : 1 ≤ L) : (runGroup L).sum = L := by
  induction L using Nat.strong_induction_on with
  | _ L ih =>
    by_cases hL : L ≤ 65535
    · rw [runGroup_small h hL]; simp
    · obtain ⟨M, rfl⟩ : ∃ M, L = M + 65535 := ⟨L - 65535, by omega⟩
      rw [runGroup_big (by omega)]; simp [ih M (by omega) (by omega)]; omega

/-- The fields of a run stand for its pixels. -/
theorem expandFields_runGroup (L : Nat) (h : 1 ≤ L) (v : Pixel) (tail : List Nat) :
    expandFields v (runGroup L ++ tail) = List.replicate L v ++ expandFields (!v) tail := by
  induction L using Nat.strong_induction_on generalizing v with
  | _ L ih =>
    by_cases hL : L ≤ 65535
    · rw [runGroup_small h hL]; simp [expandFields]
    · obtain ⟨M, rfl⟩ : ∃ M, L = M + 65535 := ⟨L - 65535, by omega⟩
      rw [runGroup_big (by omega)]
      simp only [List.cons_append, expandFields, List.replicate_zero, List.nil_append, Bool.not_not]
      rw [ih M (by omega) (by omega), ← List.append_assoc, ← List.replicate_add, Nat.add_comm]

/-- The fields of the runs stand for the frame. -/
theorem expandFields_runs (F : List Pixel) : ∀ v c, 1 ≤ c →
    expandFields v ((runLengthsFrom v c F).flatMap runGroup) = List.replicate c v ++ F := by
  induction F with
  | nil => intro v c h; have := expandFields_runGroup c h v []; simpa [runLengthsFrom, expandFields] using this
  | cons p F ih =>
    intro v c h
    simp only [runLengthsFrom]
    split
    · rename_i hp
      rw [ih v (c + 1) (by omega), hp, List.replicate_succ']; simp
    · rename_i hp
      have : p = !v := by cases p <;> cases v <;> simp_all
      rw [List.flatMap_cons, expandFields_runGroup c h, ← this, ih p 1 (by omega)]; simp

/-- Fields are determined by their bytes. -/
theorem flatMap_le16_inj (fs : List Nat) : ∀ fs' : List Nat, (∀ f ∈ fs, f ≤ 65535) → (∀ f ∈ fs', f ≤ 65535) →
    fs.flatMap le16 = fs'.flatMap le16 → fs = fs' := by
  induction fs with
  | nil =>
    intro fs' _ _ h
    cases fs' with
    | nil => rfl
    | cons => simp [le16, leBytes_succ] at h
  | cons f fs ih =>
    intro fs' ha ha' h
    cases fs' with
    | nil => simp [le16, leBytes_succ] at h
    | cons f' fs' =>
      simp only [List.flatMap_cons] at h
      have hh := List.append_inj h (by simp)
      have h16 := congrArg leValue hh.1
      have b1 := ha f (by simp)
      have b2 := ha' f' (by simp)
      rw [leValue_le16 (by omega), leValue_le16 (by omega)] at h16
      rw [h16, ih fs' (fun x hx => ha x (by simp [hx])) (fun x hx => ha' x (by simp [hx])) hh.2]

/-- The scan counts pixels of the run in hand without output. -/
theorem encodeScan_absorb (k : Nat) : ∀ (v : Pixel) (c : Nat) (rest : List Pixel), c + k ≤ 65535 →
    encodeScan v c (List.replicate k v ++ rest) = encodeScan v (c + k) rest := by
  induction k with
  | zero => intro v c rest _; rfl
  | succ k ih =>
    intro v c rest h
    rw [List.replicate_succ, List.cons_append, encodeScan, if_pos rfl,
        if_neg (by simp only [Config.runMax]; omega), ih _ _ _ (by omega),
      Nat.add_assoc, Nat.add_comm 1 k]

end Sys2Proof.Machine
end

