-- ==== Sys2Proof/Laws/Command.lean ====
section
/-! SUPPORT. The fields of a command word as slices of its value, and the command decoder as arithmetic on it. -/

namespace Sys2Proof

/-- A field of the word as a slice of its value (R91). -/
theorem CmdWord.slice_toNat (w : CmdWord) (a l : Nat) : (w.extractLsb' a l).toNat = w.toNat / 2 ^ a % 2 ^ l := by
  simp [BitVec.extractLsb'_toNat, Nat.shiftRight_eq_div_pow]

theorem CmdWord.op_toNat (w : CmdWord) : (CmdWord.op w).toNat = w.toNat % 8 := by simp [CmdWord.op]

theorem CmdWord.z_toNat (w : CmdWord) : (CmdWord.z w).toNat = w.toNat / 2 ^ 3 % 2 ^ 13 := CmdWord.slice_toNat w 3 13

theorem CmdWord.rate_toNat (w : CmdWord) : (CmdWord.rate w).toNat =
    w.toNat / 2 ^ 16 % 2 ^ 16 := CmdWord.slice_toNat w 16 16

theorem CmdWord.lo_toNat (w : CmdWord) : (CmdWord.lo w).toNat =
    w.toNat / 2 ^ 32 % 2 ^ 16 := CmdWord.slice_toNat w 32 16

theorem CmdWord.hi_toNat (w : CmdWord) : (CmdWord.hi w).toNat = w.toNat / 2 ^ 48 := by
  rw [CmdWord.hi, CmdWord.slice_toNat]; have := w.isLt; omega

theorem CmdWord.a32_toNat (w : CmdWord) : (CmdWord.a32 w).toNat = w.toNat / 2 ^ 32 := by
  rw [CmdWord.a32, CmdWord.slice_toNat]; have := w.isLt; omega

theorem CmdWord.op_eq_iff (w : CmdWord) (k : BitVec 3) : CmdWord.op w = k ↔ w.toNat % 8 = k.toNat := by
  rw [← CmdWord.op_toNat]; exact ⟨fun h => by rw [h], BitVec.eq_of_toNat_eq⟩

theorem CmdWord.z_eq_zero_iff (w : CmdWord) : CmdWord.z w = 0 ↔ w.toNat / 2 ^ 3 % 2 ^ 13 = 0 := by
  rw [← CmdWord.z_toNat]; exact ⟨fun h => by rw [h]; rfl, fun h => BitVec.eq_of_toNat_eq h⟩

theorem CmdWord.rate_eq_zero_iff (w : CmdWord) : CmdWord.rate w = 0 ↔ w.toNat / 2 ^ 16 % 2 ^ 16 = 0 := by
  rw [← CmdWord.rate_toNat]; exact ⟨fun h => by rw [h]; rfl, fun h => BitVec.eq_of_toNat_eq h⟩

theorem CmdWord.a32_eq_zero_iff (w : CmdWord) : CmdWord.a32 w = 0 ↔ w.toNat / 2 ^ 32 = 0 := by
  rw [← CmdWord.a32_toNat]; exact ⟨fun h => by rw [h]; rfl, fun h => BitVec.eq_of_toNat_eq h⟩

/-- The value of a command word assembled from its fields (R91). -/
theorem cmdWord_toNat (hi lo rate : U16) (op : BitVec 3) :
    (cmdWord hi lo rate op).toNat = op.toNat + 2 ^ 16 * rate.toNat + 2 ^ 32 * lo.toNat + 2 ^ 48 * hi.toNat := by
  have := hi.isLt; have := lo.isLt; have := rate.isLt; have := op.isLt
  simp only [cmdWord, BitVec.toNat_ofNat]; omega

/-- The command decoder as arithmetic on the value of the word (R91 to R93). -/
theorem decodeCmd_eq (w : CmdWord) :
    decodeCmd w =
      if w.toNat % 8 = 1 then
        if w.toNat / 2 ^ 3 % 2 ^ 13 = 0 ∧ w.toNat / 2 ^ 16 % 2 ^ 16 = 0 ∧ w.toNat / 2 ^ 32 =
            0 then .ok .encode else .error .mustBeZero
      else if w.toNat % 8 = 2 then
        if w.toNat / 2 ^ 3 % 2 ^ 13 = 0 ∧ w.toNat / 2 ^ 16 % 2 ^ 16 = 0 then .ok (.decode (CmdWord.a32 w))
            else .error .mustBeZero
      else if w.toNat % 8 = 3 then
        if w.toNat / 2 ^ 3 % 2 ^ 13 = 0 then .ok (.build (CmdWord.lo w) (CmdWord.hi w) (CmdWord.rate w))
            else .error .mustBeZero
      else if w.toNat % 8 = 4 then
        if w.toNat / 2 ^ 3 % 2 ^ 13 = 0 ∧ w.toNat / 2 ^ 16 % 2 ^ 16 = 0 ∧ w.toNat / 2 ^ 32 =
            0 then .ok .openBlob else .error .mustBeZero
      else if w.toNat % 8 = 5 then
        if w.toNat / 2 ^ 3 % 2 ^ 13 = 0 ∧ w.toNat / 2 ^ 16 % 2 ^ 16 = 0 then .ok (.frameat (CmdWord.a32 w))
            else .error .mustBeZero
      else .error .illegalOp := by
  simp only [decodeCmd, CmdWord.op_eq_iff, CmdWord.z_eq_zero_iff, CmdWord.rate_eq_zero_iff,
      CmdWord.a32_eq_zero_iff]; rfl

/-- A whole command word decodes as the word does. -/
theorem decode_cmd (w : CmdWord) : decode .cmd (leBytes 8 w.toNat) =
    (decodeCmd w).map (·, []) := by
  have hw := w.isLt
  have h8 : (leBytes 8 w.toNat).length = 8 := length_leBytes _ _
  unfold decode
  rw [if_neg (by rw [h8]; simp [Format.bytes]), List.take_of_length_le (by rw [h8]; simp [Format.bytes]),
    List.drop_of_length_le (by rw [h8]; simp [Format.bytes])]
  simp only [decodeExact, leValue_leBytes, Nat.mod_eq_of_lt (show w.toNat < 256 ^ 8 by simpa using hw),
      BitVec.ofNat_toNat, BitVec.setWidth_eq]
  rcases decodeCmd w with e | i <;> rfl

/-- Two bytes of an encoded frame are always a run field (R102). -/
theorem decode_run (l h : Byte) (rest : List Byte) : decode .run (l :: h :: rest) =
    .ok (.run (BitVec.ofNat 16 (leValue [l, h])), rest) := by
  simp [decode, decodeExact, Format.bytes]

/-- One byte is a marker exactly when it is 0 or 1 (R101). -/
theorem decode_mark (m : Byte) (rest : List Byte) : decode .mark (m :: rest) =
    if m.toNat > 1 then .error .markerValue else .ok (.mark (m.getLsbD 0), rest) := by
  have h1 : decode .mark (m :: rest) = (decodeExact .mark [m]).map (·, rest) := by
    simp only [decode, Format.bytes, Config.markerBytes, List.length_cons, List.take_succ_cons, List.take_zero,
      List.drop_succ_cons, List.drop_zero]
    rw [if_neg (by omega)]
    rcases decodeExact .mark [m] with e | i <;> rfl
  have h2 : leValue [m] = m.toNat := by simp [leValue_cons]
  rw [h1, decodeExact, h2]
  by_cases h0 : m.toNat = 0
  · have : m = 0#8 := BitVec.eq_of_toNat_eq h0
    subst this; rfl
  · by_cases h1 : m.toNat = 1
    · have : m = 1#8 := BitVec.eq_of_toNat_eq h1
      subst this; rfl
    · simp [Except.map, h0, h1, show m.toNat > 1 by omega]

/-- A header from its five fields (R94). -/
theorem readHeader_of {blob : List Byte} {w h fc fr fl : Nat} (r1 : memRead blob 0 2 = some w) (r2 :
    memRead blob 2 2 = some h)
    (r3 : memRead blob 4 4 = some fc) (r4 : memRead blob 8 2 = some fr) (r5 : memRead blob 10 2 = some fl) :
    readHeader blob = some ⟨BitVec.ofNat 16 w, BitVec.ofNat 16 h, BitVec.ofNat 32 fc, BitVec.ofNat 16 fr,
        BitVec.ofNat 16 fl⟩ := by
  simp [readHeader, r1, r2, r3, r4, r5]

end Sys2Proof
end

