-- ==== Sys2Proof/Laws/Memory.lean ====
section
/-! SUPPORT. The laws of the blob memory: read after write, reads of a loaded byte sequence, and that every operation
keeps the canonical form. -/

namespace Sys2Proof.Machine

open Sys2Proof

@[simp] theorem Memory.read_nil (a : Nat) : Memory.read [] a = none := rfl

theorem Memory.above_mono {j k : Nat} {m : Memory} (hk : j ≤ k) (h : Memory.above k m = true) :
    Memory.above j m = true := by
  cases m with
  | nil => rfl
  | cons c m =>
    simp only [Memory.above, Bool.and_eq_true, decide_eq_true_eq] at *
    exact ⟨by omega, h.2⟩

theorem Memory.wf_of_above {k : Nat} {m : Memory} (h : Memory.above k m = true) : Memory.wf m = true := by
  cases m with
  | nil => rfl
  | cons c m => simp [Memory.above, Memory.wf] at *; exact h.2

theorem Memory.read_of_above {k a : Nat} {m : Memory} (h : Memory.above k m = true) (ha : a ≤ k) :
    Memory.read m a = none := by
  induction m generalizing k with
  | nil => rfl
  | cons c m ih =>
    simp [Memory.above] at h
    simp [Memory.read, show ¬ c.1 = a by omega, ih h.2 (by omega)]

theorem Memory.write_above {k a : Nat} {m : Memory} (v : Byte) (hm : Memory.above k m = true) (ha : k < a) :
    Memory.above k (Memory.write m a v) = true := by
  induction m generalizing k with
  | nil => simp [Memory.write, Memory.above, ha]
  | cons c m ih =>
    simp [Memory.above] at hm
    unfold Memory.write
    split
    · simp [Memory.above, *]
    · split
      · simp [Memory.above, hm]
      · simp [Memory.above, hm, ih hm.2 (show c.1 < a by omega)]

/-- A write keeps the canonical form. -/
theorem Memory.write_wf {m : Memory} (a : Nat) (v : Byte) (h : Memory.wf m = true) :
    Memory.wf (Memory.write m a v) = true := by
  cases m with
  | nil => rfl
  | cons c m =>
    unfold Memory.write
    split
    · simp [Memory.wf, Memory.above, *]; simpa [Memory.wf] using h
    · split
      · simpa [Memory.wf] using h
      · simp only [Memory.wf]; exact Memory.write_above v (by simpa [Memory.wf] using h) (by omega)

theorem Memory.writeBytes_wf {m : Memory} (a : Nat) (bs : List Byte) (h : Memory.wf m = true) :
    Memory.wf (Memory.writeBytes m a bs) = true := by
  induction bs generalizing m a with
  | nil => exact h
  | cons b bs ih => exact ih (a + 1) (Memory.write_wf a b h)

theorem Memory.loadFrom_above {j k : Nat} (bs : List Byte) (h : j < k) :
    Memory.above j (Memory.loadFrom k bs) = true := by
  induction bs generalizing j k with
  | nil => rfl
  | cons b bs ih => simp [Memory.loadFrom, Memory.above, h, ih]

/-- A loaded byte sequence is in the canonical form. -/
theorem Memory.load_wf (bs : List Byte) : Memory.wf (Memory.load bs) = true := by
  cases bs with
  | nil => rfl
  | cons b bs => simp [Memory.load, Memory.loadFrom, Memory.wf, Memory.loadFrom_above]

/-- Read after write. -/
theorem Memory.read_write (m : Memory) (a b : Nat) (v : Byte) (h : Memory.wf m = true) :
    Memory.read (Memory.write m a v) b = if b = a then some v else Memory.read m b := by
  induction m with
  | nil => simp [Memory.write, Memory.read, eq_comm]
  | cons c m ih =>
    have hc : Memory.above c.1 m = true := by simpa [Memory.wf] using h
    have ih := ih (Memory.wf_of_above hc)
    unfold Memory.write
    split
    · simp [Memory.read, eq_comm]
    · split
      · rename_i h1 h2
        by_cases hb : b = a
        · simp [Memory.read, hb, h2]
        · simp [Memory.read, hb, show ¬ c.1 = b by omega]
      · rename_i h1 h2
        by_cases hb : c.1 = b
        · simp [Memory.read, hb, show ¬ b = a by omega]
        · simp [Memory.read, hb, ih]

theorem Memory.read_loadFrom (k : Nat) (bs : List Byte) (a : Nat) :
    Memory.read (Memory.loadFrom k bs) a = if k ≤ a then bs[a - k]? else none := by
  induction bs generalizing k with
  | nil => simp [Memory.loadFrom]
  | cons b bs ih =>
    simp only [Memory.loadFrom, Memory.read, ih]
    by_cases h1 : k = a
    · simp [h1]
    · by_cases h2 : k ≤ a
      · have : a - k = a - (k + 1) + 1 := by omega
        simp [h1, h2, show k + 1 ≤ a by omega, this]
      · simp [h1, h2, show ¬ k + 1 ≤ a by omega]

/-- Byte `a` of a loaded sequence is its element `a`; beyond its end there is none. -/
@[simp] theorem Memory.read_load (bs : List Byte) (a : Nat) : Memory.read (Memory.load bs) a = bs[a]? := by
  simp [Memory.load, Memory.read_loadFrom]

/-- Bytes of a loaded sequence are its slice, and there are none out of range. -/
theorem Memory.readBytes_load (bs : List Byte) (a n : Nat) (h : n ≠ 0) :
    Memory.readBytes (Memory.load bs) a n = if a + n ≤ bs.length then some ((bs.drop a).take n) else none := by
  induction n generalizing a with
  | zero => exact absurd rfl h
  | succ n ih =>
    unfold Memory.readBytes
    by_cases ha : a < bs.length
    · rw [Memory.read_load, List.getElem?_eq_getElem ha, List.drop_eq_getElem_cons ha, List.take_succ_cons]
      by_cases hn : n = 0
      · subst hn; simp [Memory.readBytes]; omega
      · rw [ih (a + 1) hn]
        by_cases hle : a + 1 + n ≤ bs.length
        · simp [hle, show a + (n + 1) ≤ bs.length by omega]
        · simp [hle, show ¬ a + (n + 1) ≤ bs.length by omega]
    · rw [Memory.read_load, List.getElem?_eq_none (by omega)]
      simp [show ¬ a + (n + 1) ≤ bs.length by omega]

theorem Memory.readBytes_zero (m : Memory) (a : Nat) : Memory.readBytes m a 0 = some [] := rfl

theorem Memory.readBytes_length {m : Memory} {a n : Nat} {bs : List Byte}
    (h : Memory.readBytes m a n = some bs) : bs.length = n := by
  induction n generalizing a bs with
  | zero => simp [Memory.readBytes] at h; simp [← h]
  | succ n ih =>
    unfold Memory.readBytes at h
    split at h
    · rename_i b bs' _ hbs
      obtain rfl : b :: bs' = bs := by simpa using h
      simp [ih hbs]
    · cases h

/-- `MemRead` of a loaded sequence is `MemRead` of the sequence. -/
theorem Memory.readLE_load (bs : List Byte) (a n : Nat) (h : n ≠ 0) :
    Memory.readLE (Memory.load bs) a n = memRead bs a n := by
  simp only [Memory.readLE, Memory.readBytes_load bs a n h, memRead]; split <;> rfl

/-- The memory after reset is in the canonical form. -/
theorem Memory.wf_reset : Memory.wf State.reset.hnd.blob = true := rfl

end Sys2Proof.Machine
end

