-- ==== Sys2Proof/Laws/Container.lean ====
section
/-! SUPPORT. Offsets, the index and the checks of the container. -/

namespace Sys2Proof.Machine

open Sys2Proof

/-- The total length of the encoded frames (R194). -/
def encodedTotal (frames : List (List Pixel)) : Nat := (frames.map fun f => (encodeFrame f).length).sum

theorem flatten_encoded_length (frames : List (List Pixel)) : ((frames.map encodeFrame).flatten).length =
    encodedTotal frames := by
  simp [encodedTotal, List.length_flatten, Function.comp_def]

theorem frameOffset_zero (fs : List (List Pixel)) : frameOffset fs 0 = 0 := by simp [frameOffset]

theorem frameOffset_cons_succ (f : List Pixel) (fs : List (List Pixel)) (i : Nat) :
    frameOffset (f :: fs) (i + 1) = (encodeFrame f).length + frameOffset fs i := by
  simp [frameOffset]

theorem frameOffset_le (frames : List (List Pixel)) (i : Nat) : frameOffset frames i ≤ encodedTotal frames := by
  induction frames generalizing i with
  | nil => simp [frameOffset]
  | cons f fs ih =>
    cases i with
    | zero => simp [frameOffset]
    | succ i => rw [frameOffset_cons_succ]; have := ih i; simp [encodedTotal] at *; omega

theorem frameOffset_succ (frames : List (List Pixel)) : ∀ (i : Nat) (f : List Pixel), frames[i]? = some f →
    frameOffset frames (i + 1) = frameOffset frames i + (encodeFrame f).length := by
  induction frames with
  | nil => intro i f h; simp at h
  | cons g fs ih =>
    intro i f h
    cases i with
    | zero => simp at h; subst h; simp [frameOffset]
    | succ i => simp at h; rw [frameOffset_cons_succ, ih i f h, frameOffset_cons_succ]; omega

theorem frameOffset_length (frames : List (List Pixel)) : frameOffset frames frames.length =
    encodedTotal frames := by simp [frameOffset, encodedTotal]

/-- The offsets and the encoded frames, or nothing where the total passes `2^32 - 1`. -/
theorem encodeAll_eq (frames : List (List Pixel)) : ∀ off, off ≤ Config.u32Max →
    encodeAll off frames = if off + encodedTotal frames ≤ Config.u32Max then
      some ((List.range frames.length).map (fun i => off + frameOffset frames i), frames.map encodeFrame)
          else none := by
  induction frames with
  | nil => intro off h; simp [encodeAll, encodedTotal]; exact h
  | cons f fs ih =>
    intro off h
    have hl : encodedTotal (f :: fs) = (encodeFrame f).length + encodedTotal fs := by simp [encodedTotal]
    simp only [encodeAll, hl]
    split
    · rw [if_neg (by omega)]
    · rename_i h1
      rw [ih _ (by omega)]
      by_cases h2 : off + (encodeFrame f).length + encodedTotal fs ≤ Config.u32Max
      · rw [if_pos h2, if_pos (by omega)]
        simp only [List.length_cons, List.range_succ_eq_map, List.map_cons, List.map_map, frameOffset_zero,
            Nat.add_zero, Function.comp_def, frameOffset_cons_succ, Nat.add_assoc]
      · rw [if_neg h2, if_neg (by omega)]

/-- BUILD of frames that fit gives the blob of R99. -/
theorem buildBlob_of_buildable {frames : List (List Pixel)} {w h : U16} (r : U16) (hb : Buildable frames w h) :
    buildBlob frames w h r = .ok (blobOf frames w h r) := by
  obtain ⟨h1, h2, h3, h4⟩ := hb
  have hc : buildCheck frames w h = none := by
    unfold buildCheck
    rw [if_neg h1, if_neg, if_neg (by omega)]
    simp only [List.any_eq_true, not_exists, not_and]
    intro f hf
    simp [h2 f hf]
  rw [flatten_encoded_length] at h4
  simp only [buildBlob, hc, encodeAll_eq frames 0 (by simp), Nat.zero_add, if_pos h4]
  simp [assembleBlob, builtHeader, blobOf, List.flatMap_map]

/-- BUILD of wrong dimensions (R192, R199). -/
theorem buildBlob_dimensionError {frames : List (List Pixel)} {w h : U16} (r : U16) (hb : w.toNat * h.toNat = 0 ∨
    ∃ f ∈ frames, f.length ≠ w.toNat * h.toNat) :
    buildBlob frames w h r = .error .dimensionError := by
  have hc : buildCheck frames w h = some .dimensionError := by
    unfold buildCheck
    by_cases h0 : w.toNat * h.toNat = 0
    · rw [if_pos h0]
    · rw [if_neg h0, if_pos]
      obtain ⟨f, hf, hn⟩ := hb.resolve_left h0
      exact List.any_eq_true.mpr ⟨f, hf, by simpa using hn⟩
  simp [buildBlob, hc]

/-- BUILD past the capacity (R198). -/
theorem buildBlob_capacityError {frames : List (List Pixel)} {w h : U16} (r : U16) (h1 : w.toNat * h.toNat ≠ 0)
    (h2 : ∀ f ∈ frames, f.length = w.toNat * h.toNat)
    (h3 : frames.length > 2 ^ 32 - 1 ∨ ((frames.map encodeFrame).flatten).length > 2 ^ 32 - 1) :
    buildBlob frames w h r = .error .capacityError := by
  have hany : ¬ (frames.any (fun f => decide (f.length ≠ w.toNat * h.toNat))) = true := by
    simp only [List.any_eq_true, not_exists, not_and]
    intro f hf
    simp [h2 f hf]
  rw [flatten_encoded_length] at h3
  by_cases h4 : frames.length > Config.u32Max
  · have hc : buildCheck frames w h = some .capacityError := by
      unfold buildCheck; rw [if_neg h1, if_neg hany, if_pos h4]
    simp [buildBlob, hc]
  · have hc : buildCheck frames w h = none := by
      unfold buildCheck; rw [if_neg h1, if_neg hany, if_neg h4]
    have : ¬ (encodedTotal frames ≤ Config.u32Max) := by
      simp only [Config.u32Max] at *; omega
    simp only [buildBlob, hc, encodeAll_eq frames 0 (by simp), Nat.zero_add, if_neg this]

theorem flatMap_le32_length (l : List Nat) : (l.flatMap le32).length = 4 * l.length := by
  induction l with
  | nil => rfl
  | cons a l ih => simp [ih]; omega

/-- Entry `i` of a table of 32-bit fields inside a byte sequence. -/
theorem memRead_flatMap_le32 (pre : List Byte) (l : List Nat) (post : List Byte) : ∀ (i v : Nat), l[i]? =
    some v → v < 4294967296 →
    memRead (pre ++ (l.flatMap le32 ++ post)) (pre.length + 4 * i) 4 = some v := by
  induction l generalizing pre with
  | nil => intro i v h; simp at h
  | cons a l ih =>
    intro i v h hv
    cases i with
    | zero =>
      simp at h; subst h
      have := @memRead_append pre (l.flatMap le32 ++ post) (le32 a)
      rw [length_le32, leValue_le32 hv] at this
      simpa using this
    | succ i =>
      simp at h
      have := ih (pre ++ le32 a) i v h hv
      simp only [List.length_append, length_le32] at this
      rw [show pre.length + 4 * (i + 1) = pre.length + 4 + 4 * i by omega]
      simpa using this

/-- Read after a write of several bytes: the bytes written in their range, what was there elsewhere. -/
theorem Memory.read_writeBytes (bs : List Byte) : ∀ (m : Memory) (a x : Nat), Memory.wf m = true →
    Memory.read (Memory.writeBytes m a bs) x = if a ≤ x ∧
        x < a + bs.length then bs[x - a]? else Memory.read m x := by
  induction bs with
  | nil =>
    intro m a x h
    rw [Memory.writeBytes, if_neg (by simp)]
  | cons b bs ih =>
    intro m a x h
    rw [Memory.writeBytes, ih _ _ _ (Memory.write_wf a b h), Memory.read_write _ _ _ _ h]
    by_cases h1 : x = a
    · subst h1; simp
    · by_cases h2 : a + 1 ≤ x ∧ x < a + 1 + bs.length
      · rw [if_pos h2, if_pos (by simp; omega), show x - a = x - (a + 1) + 1 by omega, List.getElem?_cons_succ]
      · rw [if_neg h2, if_neg h1, if_neg (by simp; omega)]

/-- The range of a frame from its entries (R235). -/
theorem frameRange_of {h : Handle} {k start stop : Nat} (hk : k < h.fcount.toNat)
    (r1 : Memory.readLE h.blob (12 + 4 * k) 4 = some start)
    (r2 : k + 1 < h.fcount.toNat → Memory.readLE h.blob (12 + 4 * (k + 1)) 4 = some stop)
    (r3 : k + 1 = h.fcount.toNat → stop = h.blobLen.toNat - (12 + 4 * h.fcount.toNat)) :
    frameRange h k = some (start, stop) := by
  simp only [frameRange, entryAddr, Config.headerBytes, Config.offsetBytes, r1]
  by_cases hc : k + 1 < h.fcount.toNat
  · rw [if_pos hc, r2 hc]; rfl
  · rw [if_neg hc, r3 (by omega)]; rfl

/-- With a handle open and an index in range FRAMEAT goes on. -/
theorem frameAtCheck_of_inRange {h : Handle} {k : U32} (hv : h.valid = true) (hk : k.toNat < h.fcount.toNat) :
    frameAtCheck h k = none := by
  unfold frameAtCheck; rw [if_neg (by simp [hv]), if_neg (by omega)]

end Sys2Proof.Machine
end

