-- ==== Sys2Proof/Laws/State.lean ====
section
/-! SUPPORT. What each update of State leaves in each field, so that no proof unfolds a record update. -/

namespace Sys2Proof.Machine

open Sys2Proof

variable (s : State)

/-! ### freeEnc -/

@[simp] theorem State.freeEnc_status : s.freeEnc.status = s.status := rfl
@[simp] theorem State.freeEnc_hnd : s.freeEnc.hnd = s.hnd := rfl
@[simp] theorem State.freeEnc_dec : s.freeEnc.dec = s.dec := rfl
@[simp] theorem State.freeEnc_ser : s.freeEnc.ser = s.ser := rfl
@[simp] theorem State.freeEnc_rdr : s.freeEnc.rdr = s.rdr := rfl
@[simp] theorem State.freeEnc_input : s.freeEnc.input = s.input := rfl
@[simp] theorem State.freeEnc_operand : s.freeEnc.operand = s.operand := rfl
@[simp] theorem State.freeEnc_response : s.freeEnc.response = s.response := rfl
@[simp] theorem State.freeEnc_flight : s.freeEnc.flight = s.flight := rfl
@[simp] theorem State.freeEnc_fresh : s.freeEnc.fresh = s.fresh + 1 := rfl
@[simp] theorem State.freeEnc_enc_st : s.freeEnc.enc.st = .idle := rfl

/-! ### freeDec -/

@[simp] theorem State.freeDec_status : s.freeDec.status = s.status := rfl
@[simp] theorem State.freeDec_hnd : s.freeDec.hnd = s.hnd := rfl
@[simp] theorem State.freeDec_enc : s.freeDec.enc = s.enc := rfl
@[simp] theorem State.freeDec_ser : s.freeDec.ser = s.ser := rfl
@[simp] theorem State.freeDec_rdr : s.freeDec.rdr = s.rdr := rfl
@[simp] theorem State.freeDec_input : s.freeDec.input = s.input := rfl
@[simp] theorem State.freeDec_operand : s.freeDec.operand = s.operand := rfl
@[simp] theorem State.freeDec_response : s.freeDec.response = s.response := rfl
@[simp] theorem State.freeDec_flight : s.freeDec.flight = s.flight := rfl
@[simp] theorem State.freeDec_fresh : s.freeDec.fresh = s.fresh + 1 := rfl
@[simp] theorem State.freeDec_dec_st : s.freeDec.dec.st = .idle := rfl

/-! ### freeSer -/

@[simp] theorem State.freeSer_status : s.freeSer.status = s.status := rfl
@[simp] theorem State.freeSer_hnd : s.freeSer.hnd = s.hnd := rfl
@[simp] theorem State.freeSer_enc : s.freeSer.enc = s.enc := rfl
@[simp] theorem State.freeSer_dec : s.freeSer.dec = s.dec := rfl
@[simp] theorem State.freeSer_rdr : s.freeSer.rdr = s.rdr := rfl
@[simp] theorem State.freeSer_input : s.freeSer.input = s.input := rfl
@[simp] theorem State.freeSer_operand : s.freeSer.operand = s.operand := rfl
@[simp] theorem State.freeSer_response : s.freeSer.response = s.response := rfl
@[simp] theorem State.freeSer_flight : s.freeSer.flight = s.flight := rfl
@[simp] theorem State.freeSer_fresh : s.freeSer.fresh = s.fresh + 1 := rfl
@[simp] theorem State.freeSer_ser_phase : s.freeSer.ser.phase = .idle := rfl

/-! ### freeRdr -/

@[simp] theorem State.freeRdr_status : s.freeRdr.status = s.status := rfl
@[simp] theorem State.freeRdr_hnd : s.freeRdr.hnd = s.hnd := rfl
@[simp] theorem State.freeRdr_enc : s.freeRdr.enc = s.enc := rfl
@[simp] theorem State.freeRdr_dec : s.freeRdr.dec = s.dec := rfl
@[simp] theorem State.freeRdr_ser : s.freeRdr.ser = s.ser := rfl
@[simp] theorem State.freeRdr_input : s.freeRdr.input = s.input := rfl
@[simp] theorem State.freeRdr_operand : s.freeRdr.operand = s.operand := rfl
@[simp] theorem State.freeRdr_response : s.freeRdr.response = s.response := rfl
@[simp] theorem State.freeRdr_flight : s.freeRdr.flight = s.flight := rfl
@[simp] theorem State.freeRdr_fresh : s.freeRdr.fresh = s.fresh + 1 := rfl

/-! ### unitsIdle -/

@[simp] theorem State.unitsIdle_status : s.unitsIdle.status = s.status := rfl
@[simp] theorem State.unitsIdle_hnd : s.unitsIdle.hnd = s.hnd := rfl
@[simp] theorem State.unitsIdle_rdr : s.unitsIdle.rdr = s.rdr := rfl
@[simp] theorem State.unitsIdle_input : s.unitsIdle.input = s.input := rfl
@[simp] theorem State.unitsIdle_operand : s.unitsIdle.operand = s.operand := rfl
@[simp] theorem State.unitsIdle_response : s.unitsIdle.response = s.response := rfl
@[simp] theorem State.unitsIdle_fresh : s.unitsIdle.fresh = s.fresh := rfl
@[simp] theorem State.unitsIdle_flight : s.unitsIdle.flight = .idle := rfl
@[simp] theorem State.unitsIdle_enc : s.unitsIdle.enc = { s.enc with st := .idle } := rfl
@[simp] theorem State.unitsIdle_dec : s.unitsIdle.dec = { s.dec with st := .idle } := rfl
@[simp] theorem State.unitsIdle_ser : s.unitsIdle.ser = { s.ser with phase := .idle } := rfl

/-- Where every unit is idle already, `unitsIdle` changes nothing. -/
theorem State.unitsIdle_of_idle (h : s.UnitsIdle) : s.unitsIdle = s := by
  obtain ⟨hf, he, hd, hs⟩ := h
  rcases s with ⟨_, _, ⟨_, _, _, _, _⟩, ⟨_, _, _, _, _⟩, ⟨_, _, _, _⟩, _, _, _, _, _, _⟩
  simp_all [State.unitsIdle]

/-! ### release -/

theorem State.release_of_idle (h : s.flight = .idle) : s.release = s := by simp [State.release, h]
@[simp] theorem State.release_status : s.release.status = s.status := by
  unfold State.release; split <;> rfl
@[simp] theorem State.release_hnd : s.release.hnd = s.hnd := by
  unfold State.release; split <;> rfl
@[simp] theorem State.release_input : s.release.input = s.input := by
  unfold State.release; split <;> rfl
@[simp] theorem State.release_operand : s.release.operand = s.operand := by
  unfold State.release; split <;> rfl
@[simp] theorem State.release_response : s.release.response = s.response := by
  unfold State.release; split <;> rfl
@[simp] theorem State.release_flight : s.release.flight = s.flight := by
  unfold State.release; split <;> rfl

/-! ### respond, raise, deliver -/

variable (c : Code) (r : Result)

@[simp] theorem respond_status : (respond c r s).status = c := rfl
@[simp] theorem respond_response : (respond c r s).response = some ⟨c, r⟩ := rfl
@[simp] theorem respond_flight : (respond c r s).flight = .idle := rfl
@[simp] theorem respond_hnd : (respond c r s).hnd = s.hnd := by simp [respond]
@[simp] theorem respond_input : (respond c r s).input = s.input := by simp [respond]
@[simp] theorem respond_operand : (respond c r s).operand = Operand.empty := rfl
@[simp] theorem respond_enc_st : (respond c r s).enc.st = .idle := rfl
@[simp] theorem respond_dec_st : (respond c r s).dec.st = .idle := rfl
@[simp] theorem respond_ser_phase : (respond c r s).ser.phase = .idle := rfl

@[simp] theorem raise_status : (raise c s).status = c := rfl
@[simp] theorem raise_response : (raise c s).response = some ⟨c, .none⟩ := rfl
@[simp] theorem raise_flight : (raise c s).flight = .idle := rfl
@[simp] theorem raise_hnd : (raise c s).hnd = s.hnd := by simp [raise]
@[simp] theorem raise_input : (raise c s).input = s.input := by simp [raise]
@[simp] theorem raise_operand : (raise c s).operand = Operand.empty := rfl
@[simp] theorem raise_enc_st : (raise c s).enc.st = .idle := rfl
@[simp] theorem raise_dec_st : (raise c s).dec.st = .idle := rfl
@[simp] theorem raise_ser_phase : (raise c s).ser.phase = .idle := rfl

@[simp] theorem deliver_status : (deliver r s).status = .ok := rfl
@[simp] theorem deliver_response : (deliver r s).response = some ⟨.ok, r⟩ := rfl
@[simp] theorem deliver_flight : (deliver r s).flight = .idle := rfl
@[simp] theorem deliver_hnd : (deliver r s).hnd = s.hnd := by simp [deliver]
@[simp] theorem deliver_input : (deliver r s).input = s.input := by simp [deliver]
@[simp] theorem deliver_operand : (deliver r s).operand = Operand.empty := rfl
@[simp] theorem deliver_enc_st : (deliver r s).enc.st = .idle := rfl
@[simp] theorem deliver_dec_st : (deliver r s).dec.st = .idle := rfl
@[simp] theorem deliver_ser_phase : (deliver r s).ser.phase = .idle := rfl

/-- With no operation in progress the end of an operation writes the status and the response, takes the operand off its
channel, and does nothing else (R26, R268). -/
theorem respond_of_idle (h : s.UnitsIdle) :
    respond c r s = { s with status := c, response := some ⟨c, r⟩, operand := Operand.empty } := by
  simp only [respond, State.release_of_idle s h.1, State.unitsIdle_of_idle s h]

end Sys2Proof.Machine
end

