-- ==== Sys2Proof/Laws/Exec.lean ====
section
/-! SUPPORT. What each shared operation and each meaning can answer: one inversion lemma per function, to be cited
instead of unfolding it. -/

namespace Sys2Proof.Machine

open Sys2Proof

variable {s t : State}

theorem whenIdle_of_idle (h : s.flight = .idle) (k : Host.Outcome State Fault Refusal) : whenIdle s k = k := by
  simp [whenIdle, h]

theorem whenIdle_next {k : Host.Outcome State Fault Refusal} (h : whenIdle s k = .next t) :
    s.flight = .idle ∧ k = .next t := by
  unfold whenIdle at h
  split at h
  · exact ⟨‹_›, h⟩
  · cases h

theorem withFrame_next {k : List Pixel → Host.Outcome State Fault Refusal} (h : withFrame s k = .next t) :
    (∃ f, s.operand.pixIn = [f] ∧ k f = .next t) ∨
      (s.operand.pixIn.length ≠ 1 ∧ t = raise .commandError s) := by
  unfold withFrame at h
  split at h
  · exact .inl ⟨_, ‹_›, h⟩
  · rename_i hn
    refine .inr ⟨fun hl => ?_, by simpa using h.symm⟩
    obtain ⟨f, hf⟩ := List.length_eq_one_iff.mp hl
    exact hn f hf

theorem withBytes_next {k : List Byte → Host.Outcome State Fault Refusal} (h : withBytes s k = .next t) :
    (∃ b, s.operand.byteIn = some b ∧ b.length < Config.byteInLimit ∧ k b = .next t) ∨
      (s.operand.byteIn = none ∧ t = raise .commandError s) := by
  unfold withBytes at h
  split at h
  · exact .inr ⟨‹_›, by simpa using h.symm⟩
  · split at h
    · exact .inl ⟨_, ‹_›, ‹_›, h⟩
    · cases h

theorem execEncode_next (h : execEncode s = .next t) :
    s.flight = .idle ∧
      ((∃ f, s.operand.pixIn = [f] ∧ t = deliver (.bytes (encodeFrame f)) s.freeEnc) ∨
        (s.operand.pixIn.length ≠ 1 ∧ t = raise .commandError s)) := by
  obtain ⟨hi, h⟩ := whenIdle_next h
  obtain ⟨f, hf, h⟩ | h := withFrame_next h
  · exact ⟨hi, .inl ⟨f, hf, by simpa using h.symm⟩⟩
  · exact ⟨hi, .inr h⟩

theorem execDecode_next {n : U32} (h : execDecode n s = .next t) :
    s.flight = .idle ∧
      ((∃ B, s.operand.byteIn = some B ∧ B.length < Config.byteInLimit ∧
          ((∃ px, decodeFrame B n.toNat = some px ∧ t = deliver (.pixels px) s.freeDec) ∨
            (decodeFrame B n.toNat = none ∧ t = raise .formatError s))) ∨
        (s.operand.byteIn = none ∧ t = raise .commandError s)) := by
  obtain ⟨hi, h⟩ := whenIdle_next h
  refine ⟨hi, ?_⟩
  obtain ⟨B, hB, hl, h⟩ | h := withBytes_next h
  · refine .inl ⟨B, hB, hl, ?_⟩
    split at h
    · exact .inr ⟨‹_›, by simpa using h.symm⟩
    · exact .inl ⟨_, ‹_›, by simpa using h.symm⟩
  · exact .inr h

theorem execBuild_next {w h r : U16} (he : execBuild w h r s = .next t) :
    s.flight = .idle ∧
      ((∃ blob, buildBlob s.operand.pixIn w h r = .ok blob ∧ t = deliver (.bytes blob) s.freeSer.freeEnc) ∨
        (∃ c, buildBlob s.operand.pixIn w h r = .error c ∧ t = raise c s)) := by
  obtain ⟨hi, he⟩ := whenIdle_next he
  refine ⟨hi, ?_⟩
  split at he
  · exact .inr ⟨_, ‹_›, by simpa using he.symm⟩
  · exact .inl ⟨_, ‹_›, by simpa using he.symm⟩

/-- The handle a successful OPEN of `blob` commits (R228). -/
abbrev committed (w h : U16) (fc : U32) (fr fl : U16) (blob : List Byte) : Handle :=
  { valid := true, width := w, height := h, fcount := fc, rate := fr, flags := fl,
    blobLen := BitVec.ofNat 35 blob.length, blob := Memory.load blob }

theorem admitHeader_cases (w h : U16) (fc : U32) (fr fl : U16) (blob : List Byte) (s : State) :
    (fl = 0 ∧ 12 + 4 * fc.toNat ≤ blob.length ∧ w.toNat * h.toNat ≠ 0 ∧
        admitHeader w h fc fr fl blob s = deliver .none { s with hnd := committed w h fc fr fl blob }) ∨
      ((fl ≠ 0 ∨ blob.length < 12 + 4 * fc.toNat ∨ w.toNat * h.toNat = 0) ∧
        admitHeader w h fc fr fl blob s = raise .formatError s) := by
  unfold admitHeader
  split
  · exact .inr ⟨.inl ‹_›, rfl⟩
  · split
    · exact .inr ⟨.inr (.inl ‹_›), rfl⟩
    · split
      · exact .inr ⟨.inr (.inr ‹_›), rfl⟩
      · rename_i h1 h2 h3
        exact .inl ⟨not_not.mp h1, not_lt.mp h2, h3, rfl⟩

theorem openBlob_cases (blob : List Byte) (s : State) :
    (∃ h, readHeader blob = some h ∧
        openBlob blob s = admitHeader h.width h.height h.frameCount h.frameRate h.flags blob s) ∨
      (readHeader blob = none ∧ openBlob blob s = raise .formatError s) := by
  unfold openBlob
  split
  · exact .inr ⟨‹_›, rfl⟩
  · exact .inl ⟨_, ‹_›, rfl⟩

theorem execOpenBlob_next (h : execOpenBlob s = .next t) :
    s.flight = .idle ∧
      ((∃ blob, s.operand.byteIn = some blob ∧ blob.length < Config.byteInLimit ∧ t = openBlob blob s) ∨
        (s.operand.byteIn = none ∧ t = raise .commandError s)) := by
  obtain ⟨hi, h⟩ := whenIdle_next h
  obtain ⟨b, hb, hl, h⟩ | h := withBytes_next h
  · exact ⟨hi, .inl ⟨b, hb, hl, by simpa using h.symm⟩⟩
  · exact ⟨hi, .inr h⟩

theorem execFrameat_next {k : U32} (h : execFrameat k s = .next t) :
    s.flight = .idle ∧
      ((∃ px, frameAt s.hnd k = .ok px ∧ t = deliver (.pixels px) s.freeDec.freeRdr) ∨
        (∃ c, frameAt s.hnd k = .error c ∧ t = raise c s)) := by
  obtain ⟨hi, h⟩ := whenIdle_next h
  refine ⟨hi, ?_⟩
  split at h
  · exact .inr ⟨_, ‹_›, by simpa using h.symm⟩
  · exact .inl ⟨_, ‹_›, by simpa using h.symm⟩

theorem execMark_next {v : Pixel} (h : execMark v s = .next t) :
    (∃ fa n slice out, s.flight = .decoding fa n slice out) ∧ s.dec.st = .marker ∧
      t = { s with dec := { s.dec with cur := v, pos := 1, st := .runs } } := by
  unfold execMark at h
  split at h
  · exact ⟨⟨_, _, _, _, ‹_›⟩, ‹_›, by simpa using h.symm⟩
  · cases h

theorem execRun_next {len : U16} (h : execRun len s = .next t) :
    ∃ fa n slice out, s.flight = .decoding fa n slice out ∧ s.dec.st = .runs ∧
      ((len.toNat > s.dec.n.toNat - s.dec.total.toNat ∧ t = raise .formatError s) ∨
        (len.toNat ≤ s.dec.n.toNat - s.dec.total.toNat ∧
          t = { s with
            dec := { s.dec with
              cur := !s.dec.cur, total := s.dec.total + len.setWidth 32, pos := s.dec.pos + 2 }
            flight := .decoding fa n slice (out ++ List.replicate len.toNat s.dec.cur) })) := by
  unfold execRun at h
  split at h
  · refine ⟨_, _, _, _, ‹_›, ‹_›, ?_⟩
    split at h
    · exact .inl ⟨‹_›, by simpa using h.symm⟩
    · exact .inr ⟨not_lt.mp ‹_›, by simpa using h.symm⟩
  · cases h

theorem execHdr_next {w h : U16} {fc : U32} {fr fl : U16} (he : execHdr w h fc fr fl s = .next t) :
    ∃ blob, s.flight = .opening blob ∧ t = admitHeader w h fc fr fl blob s := by
  unfold execHdr at he
  split at he
  · exact ⟨_, ‹_›, by simpa using he.symm⟩
  · cases he

theorem execIdx_next {off : U32} (h : execIdx off s = .next t) :
    (∃ index, s.flight = .seeking index .start ∧ index.toNat + 1 < s.hnd.fcount.toNat ∧
        t = { s with rdr := { s.rdr with start := off.setWidth 35 }, flight := .seeking index .stop }) ∨
      (∃ index, s.flight = .seeking index .start ∧ s.hnd.fcount.toNat ≤ index.toNat + 1 ∧
        t = sliceFrame { s with rdr := { s.rdr with start := off.setWidth 35, stop := s.rdr.dlen } }) ∨
      (∃ index, s.flight = .seeking index .stop ∧
        t = sliceFrame { s with rdr := { s.rdr with stop := off.setWidth 35 } }) := by
  unfold execIdx at h
  split at h
  · split at h
    · exact .inl ⟨_, ‹_›, ‹_›, by simpa using h.symm⟩
    · exact .inr (.inl ⟨_, ‹_›, not_lt.mp ‹_›, by simpa using h.symm⟩)
  · exact .inr (.inr ⟨_, ‹_›, by simpa using h.symm⟩)
  · cases h

/-- Every step runs the instruction that is due, raises the fault of bytes that are none, or makes another
transition. -/
theorem step_cases (s : State) :
    (∃ f bs i rest, due s = some (f, bs) ∧ decode f bs = .ok (i, rest) ∧ step s = exec i (dueState s.quiet)) ∨
      (∃ f bs e, due s = some (f, bs) ∧ decode f bs = .error e ∧
        step s = .next (raise (Format.illegal f) (dueState s.quiet))) ∨
      (due s = none ∧ step s = stepOther s.quiet) := by
  unfold step fetch
  rcases hd : due s with _ | ⟨f, bs⟩
  · exact .inr (.inr ⟨rfl, rfl⟩)
  · rcases hdec : decode f bs with e | ⟨i, rest⟩
    · exact .inr (.inl ⟨f, bs, e, rfl, hdec, by simp [hdec]⟩)
    · exact .inl ⟨f, bs, i, rest, rfl, hdec, by simp [hdec]⟩

end Sys2Proof.Machine
end

