-- ==== Sys2Proof/Laws/Fetch.lean ====
section
/-! SUPPORT. What a step does by what is due, and how an operation ends. -/

namespace Sys2Proof.Machine

open Sys2Proof

/-! ### The state a step starts from -/

@[simp] theorem State.quiet_status (s : State) : s.quiet.status = s.status := rfl
@[simp] theorem State.quiet_hnd (s : State) : s.quiet.hnd = s.hnd := rfl
@[simp] theorem State.quiet_enc (s : State) : s.quiet.enc = s.enc := rfl
@[simp] theorem State.quiet_dec (s : State) : s.quiet.dec = s.dec := rfl
@[simp] theorem State.quiet_ser (s : State) : s.quiet.ser = s.ser := rfl
@[simp] theorem State.quiet_rdr (s : State) : s.quiet.rdr = s.rdr := rfl
@[simp] theorem State.quiet_input (s : State) : s.quiet.input = s.input := rfl
@[simp] theorem State.quiet_operand (s : State) : s.quiet.operand = s.operand := rfl
@[simp] theorem State.quiet_response (s : State) : s.quiet.response = none := rfl
@[simp] theorem State.quiet_flight (s : State) : s.quiet.flight = s.flight := rfl
@[simp] theorem State.quiet_fresh (s : State) : s.quiet.fresh = s.fresh := rfl

/-- With no response on the channel a step starts from the state as it is. -/
theorem State.quiet_of_none {s : State} (h : s.response = none) : s.quiet = s := by
  cases s; simp_all [State.quiet]

/-- No step depends on the response the last one left. -/
theorem step_quiet (s : State) : step s.quiet = step s := rfl

/-! ### What a step runs -/

/-- Inside an operation nothing is taken from the channels before the instruction runs. -/
theorem dueState_of_flight {s : State} (h : s.flight ≠ .idle) : dueState s = s := by
  unfold dueState; split
  · exact absurd ‹_› h
  · rfl

/-- A step runs the instruction that is due. -/
theorem step_of_due {s : State} {f bs i rest} (h : due s = some (f, bs)) (hd : decode f bs = .ok (i, rest)) :
    step s = exec i (dueState s.quiet) := by
  simp [step, fetch, h, hd]

/-- Bytes that are due and are no instruction raise their fault. -/
theorem step_of_due_error {s : State} {f bs e} (h : due s = some (f, bs)) (hd : decode f bs = .error e) :
    step s = .next (raise (Format.illegal f) (dueState s.quiet)) := by
  simp [step, fetch, h, hd]

/-- Where no instruction is due the step is one of the other transitions. -/
theorem step_of_none {s : State} (h : due s = none) : step s = stepOther s.quiet := by
  simp [step, fetch, h]

/-- Between operations the command at the head of the channel is due. -/
theorem due_cmd {s : State} {r later} (h : s.flight = .idle) (hi : s.input = .command r :: later) :
    due s = some (.cmd, leBytes 8 r.word.toNat) := by
  simp [due, hi, h]

/-- A command runs with its own operand on the channel and the later inputs still to come. -/
theorem dueState_cmd {s : State} {r later} (h : s.flight = .idle) (hi : s.input = .command r :: later) :
    dueState s = { s with input := later, operand := r.operand } := by
  simp [dueState, hi, h, State.accept]

/-- What is due when no reset arrives, by the operation in progress. -/
theorem due_of_not_reset {s : State} (h : s.input.head? ≠ some .reset) : due s =
    match s.flight with
    | .idle =>
      match s.input with
      | .command r :: _ => some (.cmd, leBytes 8 r.word.toNat)
      | _ => none
    | .encoding _ _ => none
    | .decoding _ _ slice _ =>
      match s.dec.st with
      | .marker => some (.mark, slice)
      | .runs =>
        if slice.length - s.dec.pos.toNat ≥ Config.runFieldBytes then some (.run, slice.drop s.dec.pos.toNat)
        else none
      | _ => none
    | .opening blob => some (.hdr, blob)
    | .seeking index entry =>
      match Memory.readBytes s.hnd.blob (dueEntry index entry) Config.offsetBytes with
      | some bs => some (.idx, bs)
      | none => some (.idx, [])
    | .building _ => none := by
  unfold due
  split
  · rename_i h'; simp [h'] at h
  · rfl

/-- Inside an operation, with no instruction due and no reset arriving, the units step. -/
theorem step_units {s : State} (hr : s.input.head? ≠ some .reset) (hf : s.flight ≠ .idle) (hd : due s = none) :
    step s = .next (stepUnits s.quiet) := by
  rw [step_of_none hd]
  unfold stepOther
  split
  · rename_i h; exact absurd (by simp [show s.input = _ from h]) hr
  · split
    · exact absurd ‹_› hf
    · rfl

/-- A run is a first step and the rest. -/
theorem core_run_succ {s t : State} (k : Nat) (h : step s = .next t) : core.run (k + 1) s = core.run k t := by
  have : core.step s = .next t := h
  simp [Host.Core.run, this]

/-- Delivering a result ends the operation. -/
theorem deliver_endedFrom {s s' : State} (r : Result) (hi : s'.input = s.input) :
    (deliver r s').EndedFrom s .ok r :=
  ⟨rfl, rfl, ⟨rfl, rfl, rfl, rfl⟩, by simpa, rfl⟩

/-- Raising a fault ends the operation. -/
theorem raise_endedFrom {s s' : State} (c : Code) (hi : s'.input = s.input) : (raise c s').EndedFrom s c .none :=
  ⟨rfl, rfl, ⟨rfl, rfl, rfl, rfl⟩, by simpa, rfl⟩

/-- Between operations a fault writes the status and the response, and the operand is gone (R268, R26). -/
theorem raise_of_unitsIdle {s : State} (c : Code) (h : s.UnitsIdle) : raise c s =
    s.faulted c := respond_of_idle s c .none h

/-- Setting `IDLE` where it is already set changes nothing. -/
theorem enc_st_idle_eq {s : State} (h : s.enc.st = .idle) : ({ s.enc with st := .idle } : Enc) = s.enc := by
  rcases s with ⟨_, _, ⟨_, _, _, _, _⟩, _, _, _, _, _, _, _, _⟩; simp_all

theorem dec_st_idle_eq {s : State} (h : s.dec.st = .idle) : ({ s.dec with st := .idle } : Dec) = s.dec := by
  rcases s with ⟨_, _, _, ⟨_, _, _, _, _⟩, _, _, _, _, _, _, _⟩; simp_all

theorem ser_phase_idle_eq {s : State} (h : s.ser.phase = .idle) : ({ s.ser with phase := .idle } : Ser) =
    s.ser := by
  rcases s with ⟨_, _, _, _, ⟨_, _, _, _⟩, _, _, _, _, _, _⟩; simp_all

/-- What delivery leaves of the units and the handle when no operation is in progress. -/
theorem deliver_fields_of_idle {s : State} (r : Result) (h : s.flight = .idle) :
    (deliver r s).enc = { s.enc with st := .idle } ∧ (deliver r s).dec = { s.dec with st := .idle } ∧
    (deliver r s).ser = { s.ser with phase := .idle } ∧ (deliver r s).rdr = s.rdr ∧ (deliver r s).hnd = s.hnd ∧
    (deliver r s).fresh = s.fresh := by
  simp [deliver, respond, State.release_of_idle s h]

end Sys2Proof.Machine
end

