-- ==== Sys2Proof/Laws/PerInstr.lean ====
section
/-! SUPPORT. Statements for all instructions, one lemma per constructor. -/

namespace Sys2Proof.Laws.EncodedLength

open Sys2Proof

/-- The encoding of an instruction has the length its format has (R90). -/
def Statement (i : Instr) : Prop := (Sys2Proof.encode i).length = i.format.bytes

theorem encode : Statement .encode := by simp [Statement, Sys2Proof.encode, Instr.format, Format.bytes]

theorem decode (n : U32) : Statement (.decode n) := by
  simp [Statement, Sys2Proof.encode, Instr.format, Format.bytes]

theorem build (width height frameRate : U16) : Statement (.build width height frameRate) := by
  simp [Statement, Sys2Proof.encode, Instr.format, Format.bytes]

theorem openBlob : Statement .openBlob := by simp [Statement, Sys2Proof.encode, Instr.format, Format.bytes]

theorem frameat (index : U32) : Statement (.frameat index) := by
  simp [Statement, Sys2Proof.encode, Instr.format, Format.bytes]

theorem mark (v : Pixel) : Statement (.mark v) := by
  simp [Statement, Sys2Proof.encode, Instr.format, Format.bytes]

theorem run (len : U16) : Statement (.run len) := by
  simp [Statement, Sys2Proof.encode, Instr.format, Format.bytes]

theorem hdr (width height : U16) (frameCount : U32) (frameRate flags : U16) :
    Statement (.hdr width height frameCount frameRate flags) := by
  simp [Statement, Sys2Proof.encode, encodeHeader, Instr.format, Format.bytes]

theorem idx (offset : U32) : Statement (.idx offset) := by
  simp [Statement, Sys2Proof.encode, Instr.format, Format.bytes]

end Sys2Proof.Laws.EncodedLength
end

