-- ==== Sys2Proof/Tests/Slice0.lean ====
section
/-! SUPPORT. Tests. Every expected value is one of 95_test_vectors.md, named in the comment, or is computed by hand from
the rule named there. `witness_…` shows inputs that meet the hypotheses of the obligation it is named after. -/

namespace Sys2Proof.Tests

open Sys2Proof Sys2Proof.Machine

/-! ### Small states -/

/-- `B30` of V-B1. -/
def b30 : List Byte :=
  [0x02, 0x00, 0x02, 0x00, 0x02, 0x00, 0x00, 0x00, 0x1E, 0x00, 0x00, 0x00, 0x00, 0x00, 0x00, 0x00, 0x05, 0x00, 0x00, 0x00,
   0x00, 0x02, 0x00, 0x02, 0x00, 0x01, 0x01, 0x00, 0x03, 0x00]

/-- The two frames of V-B1. -/
def f0011 : List Pixel := [false, false, true, true]
def f1000 : List Pixel := [true, false, false, false]

/-- Between operations, with `PIXIN` given. -/
def withPix (frames : List (List Pixel)) : State := { State.reset with operand := ⟨frames, none⟩ }

/-- Between operations, with `BYTEIN` given. -/
def withBytes (b : List Byte) : State := { State.reset with operand := ⟨[], some b⟩ }

/-- `B30` open (V-R1). -/
def openB30 : State := { State.reset with hnd := ⟨true, 2, 2, 2, 30, 0, 30, Memory.load b30⟩ }

/-- An ENCODE in progress. -/
def encoding (st : EncSt) (val : Pixel) (cnt : BitVec 16) (nxt fin : Bool) (rest : List Pixel) (out : List Byte) : State :=
  { State.reset with enc := ⟨st, val, cnt, nxt, fin⟩, flight := .encoding rest out }

/-- A decode in progress. -/
def decoding (st : DecSt) (cur : Pixel) (n total : U32) (pos : BitVec 35) (slice : List Byte) (out : List Pixel) : State :=
  { State.reset with dec := ⟨st, cur, n, total, pos⟩, flight := .decoding false n slice out }

/-- A FRAMEAT on `B30` in progress, the registers of `RDR` as given. -/
def seeking (index : U32) (entry : Entry) (start : BitVec 35) : State :=
  { openB30 with rdr := ⟨20, 10, start, 0⟩, flight := .seeking index entry }

/-- A command presented between operations. -/
def presenting (word : CmdWord) (o : Operand) : State := { State.reset with input := [.command ⟨word, o⟩] }

/-- The state of a `next` outcome. -/
def after : Host.Outcome State Fault Refusal → Option State
  | .next s => some s
  | .fault _ => none
  | .refused _ => none

/-- The response of a `next` outcome. -/
def answer (o : Host.Outcome State Fault Refusal) : Option (Option Response) := (after o).map State.response

/-! ### Well-formedness: the one check, on an ill-formed term -/

/-- R96: a header with `flags = 1` is ill-formed, and its encoding is refused by name. -/
theorem test_wf_refuses_flags :
    (Instr.hdr 2 2 2 30 1).wf = false ∧ (Instr.hdr 2 2 2 30 0).wf = true ∧
      decode .hdr (encode (.hdr 2 2 2 30 1)) = .error .reservedFlags := by decide

/-! ### Decoding of words written out from the spec -/

/-- V-C1 to V-C8, V-C18, V-C19. -/
theorem test_decode_commands :
    decodeTableWord 64 0x0000000000000001 = some .encode ∧
    decodeTableWord 64 0x0000000400000002 = some (.decode 4) ∧
    decodeTableWord 64 0x00030D4000000002 = some (.decode 200000) ∧
    decodeTableWord 64 0x00020002001E0003 = some (.build 2 2 30) ∧
    decodeTableWord 64 0x00F0012C000F0003 = some (.build 300 240 15) ∧
    decodeTableWord 64 0xFFFFFFFFFFFF0003 = some (.build 65535 65535 65535) ∧
    decodeTableWord 64 0x0000000000000004 = some .openBlob ∧
    decodeTableWord 64 0x0000000100000005 = some (.frameat 1) ∧
    decodeTableWord 64 0xFFFFFFFF00000005 = some (.frameat 4294967295) ∧
    decodeTableWord 64 0x0000000000000002 = some (.decode 0) ∧
    decodeTableWord 64 0x0000000000000003 = some (.build 0 0 0) := by decide

/-- V-C9 to V-C17, V-C20: illegal words. -/
theorem test_decode_illegal_commands :
    [0x0000000000000000, 0x0000000000000006, 0x0000000000000007, 0x0000000000000009, 0x0000000100000001,
     0x0000000400010002, 0x00020002001E000B, 0x0000000000010004, 0x0000000000010005, 0x0000000000000008].all
      (fun w => decodeTableWord 64 w == none) = true := by decide

/-- R101: the marker bytes 0 and 1, and no other. -/
theorem test_decode_mark :
    decodeTableWord 8 0x00 = some (.mark false) ∧ decodeTableWord 8 0x01 = some (.mark true) ∧
      decodeTableWord 8 0x02 = none ∧ decodeTableWord 8 0xFF = none := by decide

/-- R102, V-E12: the bytes `43 0D` are the field 3395; `FF FF` is 65535. -/
theorem test_decode_run :
    decode .run [0x43, 0x0D] = .ok (.run 3395, []) ∧ decodeTableWord 16 0x0D43 = some (.run 3395) ∧
      decode .run [0xFF, 0xFF, 0x00] = .ok (.run 65535, [0x00]) ∧ decode .run [0xFF] = .error .truncated := by decide

/-- R94: the header of `B56` (V-B12), and the same bytes as a table word. -/
theorem test_decode_hdr :
    decode .hdr [0x2C, 0x01, 0xF0, 0x00, 0x04, 0x00, 0x00, 0x00, 0x0F, 0x00, 0x00, 0x00]
        = .ok (.hdr 300 240 4 15 0, []) ∧
      decodeTableWord 96 0x0000000F0000000400F0012C = some (.hdr 300 240 4 15 0) ∧
      decodeTableWord 96 0x8000000F0000000400F0012C = none := by decide

/-- R97: entry 1 of `B30` (V-B1). -/
theorem test_decode_idx :
    decode .idx [0x05, 0x00, 0x00, 0x00] = .ok (.idx 5, []) ∧ decodeTableWord 32 0x80000001 = some (.idx 0x80000001) := by
  decide

/-! ### The operations -/

/-- V-E4 and V-E1. -/
theorem test_encode :
    answer (exec .encode (withPix [f0011])) = some (some ⟨.ok, .bytes [0x00, 0x02, 0x00, 0x02, 0x00]⟩) ∧
      answer (exec .encode (withPix [[]])) = some (some ⟨.ok, .bytes [0x00]⟩) := by decide

/-- V-E8 and V-E10 at the place where the count is full: the scan with 65535 in hand. -/
theorem test_encode_split :
    encodeScan true 65535 [true] = [0xFF, 0xFF, 0x00, 0x00, 0x01, 0x00] ∧ encodeScan true 65535 [] = [0xFF, 0xFF] ∧
      encodeScan true 65535 [false] = [0xFF, 0xFF, 0x01, 0x00] := by decide

/-- V-D15 (a trailing zero-length field) and V-D16 (a leading one). -/
theorem test_decode_accepts :
    answer (exec (.decode 4) (withBytes [0x00, 0x02, 0x00, 0x02, 0x00, 0x00, 0x00])) = some (some ⟨.ok, .pixels f0011⟩) ∧
      answer (exec (.decode 4) (withBytes [0x00, 0x00, 0x00, 0x04, 0x00]))
        = some (some ⟨.ok, .pixels [true, true, true, true]⟩) := by decide

/-- V-D1, V-D6, V-D8, V-D10, V-D11, V-D13, V-D14. -/
theorem test_decode_refuses :
    [(([] : List Byte), (0 : U32)), ([0x02], 0), ([0x01, 0x01], 1), ([0x01, 0x01, 0x00], 2), ([0x01, 0x01, 0x00], 0),
     ([0x00, 0x02, 0x00, 0x02, 0x00, 0x00], 4), ([0x00, 0x02, 0x00, 0x02, 0x00, 0x01, 0x00], 4)].all
      (fun c => answer (exec (.decode c.2) (withBytes c.1)) == some (some ⟨.formatError, .none⟩)) = true := by decide

/-- V-B1. -/
theorem test_build : answer (exec (.build 2 2 30) (withPix [f0011, f1000])) = some (some ⟨.ok, .bytes b30⟩) := by decide

/-- V-B2 (no frames), V-B3 and V-B9 (dimensions). -/
theorem test_build_edges :
    answer (exec (.build 2 2 30) (withPix [])) =
        some (some ⟨.ok, .bytes [0x02, 0x00, 0x02, 0x00, 0x00, 0x00, 0x00, 0x00, 0x1E, 0x00, 0x00, 0x00]⟩) ∧
      answer (exec (.build 2 2 30) (withPix [f0011, [true, false, false]])) = some (some ⟨.dimensionError, .none⟩) ∧
      answer (exec (.build 0 2 30) (withPix [])) = some (some ⟨.dimensionError, .none⟩) := by decide

/-- V-R1. -/
theorem test_open : (after (exec .openBlob (withBytes b30))).map State.hnd = some openB30.hnd := by decide

/-- V-R3, V-R5, V-R7, V-R9, V-R10: refused, and the handle that was open stays. -/
theorem test_open_refuses :
    [b30.take 11, b30.set 10 0x01, b30.take 19, [0x00, 0x00, 0x02, 0x00, 0x00, 0x00, 0x00, 0x00, 0x1E, 0x00, 0x00, 0x00],
     [0x02, 0x00, 0x02, 0x00, 0x00, 0x00, 0x00, 0x40, 0x1E, 0x00, 0x00, 0x00]].all
      (fun b =>
        (after (exec .openBlob { openB30 with operand := ⟨[], some b⟩ })).map (fun t => (t.response, t.hnd))
          == some (some ⟨.formatError, .none⟩, openB30.hnd)) = true := by decide

/-- V-R21, V-R22, V-R23, V-R20. -/
theorem test_frameat :
    answer (exec (.frameat 0) openB30) = some (some ⟨.ok, .pixels f0011⟩) ∧
      answer (exec (.frameat 1) openB30) = some (some ⟨.ok, .pixels f1000⟩) ∧
      answer (exec (.frameat 2) openB30) = some (some ⟨.indexError, .none⟩) ∧
      answer (exec (.frameat 0) State.reset) = some (some ⟨.commandError, .none⟩) := by decide

/-- V-R26, V-R28, V-R29, V-R31, V-R34, V-R35: index entries and data changed. -/
theorem test_frameat_refuses :
    [(b30.set 16 0x0B, (0 : U32)), ((b30.set 12 0x05).set 16 0x00, 0), ((b30.set 12 0x05).set 16 0x00, 1),
     (b30.set 16 0x0A, 1), (b30.set 20 0x02, 0)].all
      (fun c =>
        answer (exec (.frameat c.2) { openB30 with hnd := { openB30.hnd with blob := Memory.load c.1 } })
          == some (some ⟨.formatError, .none⟩)) = true ∧
      answer (exec (.frameat 1) { openB30 with hnd := { openB30.hnd with blob := Memory.load (b30.set 20 0x02) } })
        = some (some ⟨.ok, .pixels f1000⟩) := by decide

/-! ### The elements, the records and the steps of the units -/

/-- T3, step 2. -/
theorem test_mark :
    (after (step (decoding .marker true 4 0 0 [0x00, 0x02, 0x00, 0x02, 0x00] []))).map State.dec
      = some ⟨.runs, false, 4, 0, 1⟩ := by decide

/-- T3, step 4; and a field past the count (V-D29). -/
theorem test_run :
    (after (step (decoding .runs true 4 2 3 [0x00, 0x02, 0x00, 0x02, 0x00] [false, false]))).map
        (fun t => (t.dec, t.flight))
        = some (⟨.runs, false, 4, 4, 5⟩, .decoding false 4 [0x00, 0x02, 0x00, 0x02, 0x00] f0011) ∧
      answer (step (decoding .runs true 3 2 3 [0x00, 0x02, 0x00, 0x02, 0x00] [false, false]))
        = some (some ⟨.formatError, .none⟩) := by decide

/-- V-R1, the header read as a record; V-R10 the same way. -/
theorem test_hdr :
    (after (step { State.reset with flight := .opening b30 })).map State.hnd = some openB30.hnd ∧
      answer (exec (.hdr 2 2 0x40000000 30 0) { State.reset with flight := .opening (b30.take 12) })
        = some (some ⟨.formatError, .none⟩) := by decide

/-- P1, step 3 (`start = 5`, `end = dlen = 10`): the entry of the last frame. -/
theorem test_idx_last :
    (after (step (seeking 1 .start 0))).map (fun t => (t.rdr, t.flight))
      = some (⟨20, 10, 5, 10⟩, .decoding true 4 [0x01, 0x01, 0x00, 0x03, 0x00] []) := by decide

/-- V-R21: entry 0 and then entry 1. -/
theorem test_idx_two :
    (after (step (seeking 0 .start 7))).map (fun t => (t.rdr, t.flight)) = some (⟨20, 10, 0, 0⟩, .seeking 0 .stop) ∧
      (after (step (seeking 0 .stop 0))).map (fun t => (t.rdr, t.flight))
        = some (⟨20, 10, 0, 5⟩, .decoding true 4 [0x00, 0x02, 0x00, 0x02, 0x00] []) := by decide

/-- T1, steps 1, 3, 4 and 6. -/
theorem test_encoder_steps :
    (after (step (encoding .idle true 9 true true [false, false, true] []))).map (fun t => (t.enc, t.flight))
        = some (⟨.accumulating, false, 1, true, true⟩, .encoding [false, true] [0x00]) ∧
      (after (step (encoding .accumulating false 2 false true [true] [0x00]))).map (fun t => (t.enc, t.flight))
        = some (⟨.flush, false, 2, true, false⟩, .encoding [] [0x00]) ∧
      (after (step (encoding .flush false 2 true false [] [0x00]))).map (fun t => (t.enc, t.flight))
        = some (⟨.accumulating, true, 1, true, false⟩, .encoding [] [0x00, 0x02, 0x00]) ∧
      (after (step (encoding .flush true 1 true true [] [0x00, 0x02, 0x00]))).map (fun t => (t.enc, t.flight))
        = some (⟨.done, true, 1, true, true⟩, .encoding [] [0x00, 0x02, 0x00, 0x01, 0x00]) := by decide

/-- T2 at pixel 65535 and after it. -/
theorem test_encoder_split :
    (after (step (encoding .accumulating false 65535 false false [false] [0x00]))).map (fun t => (t.enc, t.flight))
        = some (⟨.overflowSplit, false, 65535, false, false⟩, .encoding [] [0x00]) ∧
      (after (step (encoding .overflowSplit false 65535 false false [] [0x00]))).map (fun t => (t.enc, t.flight))
        = some (⟨.accumulating, false, 1, false, false⟩, .encoding [] [0x00, 0xFF, 0xFF, 0x00, 0x00]) := by decide

/-- A BUILD of the frames of V-B1 in progress. -/
def building (phase : SerPhase) (i off : BitVec 33) (unchecked : List (List Pixel)) (offsets : List Nat) (out : List Byte) :
    State :=
  { State.reset with
    ser := ⟨phase, i, off, 4⟩
    operand := ⟨[f0011, f1000], none⟩
    flight := .building ⟨2, 2, 30, unchecked, [], [], [], offsets, out⟩ }

/-- R29, R204: `SER.i` numbers the frame being checked and the entry being emitted; V-B1 has entries 0 and 5. -/
theorem test_serializer_steps :
    (after (step (building .check 1 0 [f1000] [] []))).map (fun t => t.ser) = some ⟨.check, 2, 0, 4⟩ ∧
      (after (step (building .check 2 0 [] [] []))).map (fun t => t.ser) = some ⟨.encode, 0, 0, 4⟩ ∧
      answer (step (building .check 1 0 [[true]] [] [])) = some (some ⟨.dimensionError, .none⟩) ∧
      (after (step (building .emitIdx 1 10 [] [0, 5] [0x07]))).map (fun t => (t.ser, t.flight))
        = some (⟨.emitIdx, 2, 10, 4⟩,
            .building ⟨2, 2, 30, [], [], [], [], [0, 5], [0x07, 0x05, 0x00, 0x00, 0x00]⟩) ∧
      (after (step (building .emitIdx 2 10 [] [0, 5] []))).map (fun t => t.ser) = some ⟨.emitData, 2, 10, 4⟩ := by decide

/-- R26: neither the operand nor the response outlives the operation. -/
theorem test_channels_do_not_persist :
    (after (step (presenting 0x0000000400000002 ⟨[], some [0x00, 0x04, 0x00]⟩))).map (fun t => (t.operand, t.response))
        = some (⟨[], none⟩, some ⟨.ok, .pixels [false, false, false, false]⟩) ∧
      (after (step { openB30 with response := some ⟨.ok, .none⟩ })).map State.response = some none ∧
      (State.withFetchWord { withPix [f0011] with flight := .opening [] } 64 1).input = [.command ⟨1, ⟨[], none⟩⟩] := by
  decide

/-! ### Placing a word, reset -/

/-- Every format placed at reset is the next instruction run; a word placed twice is run too. -/
theorem test_placed_words_run :
    answer (step (State.reset.withFetchWord 64 0x0000000000000005)) = some (some ⟨.commandError, .none⟩) ∧
      (after (step (State.reset.withFetchWord 8 0x01))).map State.dec = some ⟨.runs, true, 0, 0, 1⟩ ∧
      (after (step (State.reset.withFetchWord 16 0x0000))).map State.dec = some ⟨.runs, true, 0, 0, 3⟩ ∧
      (after (step (State.reset.withFetchWord 96 0x0000001E0000000000020003))).map (fun t => t.hnd.width) = some 3 ∧
      (after (step (State.reset.withFetchWord 32 0))).map State.flight = some (.decoding true 0 [] []) := by decide

/-- R300: reset inside an operation. -/
theorem test_reset :
    after (step { openB30 with input := [.reset], flight := .opening [] }) = some State.reset := by decide

/-- V-C9 at a step: P3, line 6. -/
theorem test_illegal_word :
    (after (step { openB30 with input := [.command ⟨0, ⟨[], none⟩⟩] })).map (fun t => (t.status, t.hnd))
      = some (.commandError, openB30.hnd) := by decide

/-! ### Witnesses: inputs that meet the hypotheses of the obligations -/

theorem witness_LittleEndianBytesAndValue :
    3 < 4 ∧ 26 + 4 ≤ b30.length ∧ 255 < 256 ^ 1 ∧ 4294967295 < 256 ^ 4 := by decide

/-- A row each that selects, and that does not. -/
theorem witness_CommandDecoderFollowsMaskAndMatch :
    cmdTable.map (fun r => r.selects 0x0000000000000001) = [true, false, false, false, false] ∧
      cmdTable.map (fun r => r.selects 0x00030D4000000002) = [false, true, false, false, false] ∧
      cmdTable.map (fun r => r.selects 0xFFFFFFFFFFFF0003) = [false, false, true, false, false] ∧
      cmdTable.map (fun r => r.selects 0x0000000000000004) = [false, false, false, true, false] ∧
      cmdTable.map (fun r => r.selects 0xFFFFFFFF00000005) = [false, false, false, false, true] ∧
      cmdTable.map (fun r => r.selects 0x0000000000010005) = [false, false, false, false, false] := by decide

theorem witness_CommandOperandsAreSlices :
    decodeCmd 0xFFFFFFFF00000002 = .ok (.decode 4294967295) ∧ decodeCmd 0xFFFFFFFF00000005 = .ok (.frameat 4294967295) ∧
      decodeCmd 0x0002FFFF001E0003 = .ok (.build 65535 2 30) := by decide

theorem witness_DecodeInvertsEncode :
    [.encode, .decode 4294967295, .build 65535 65535 65535, .openBlob, .frameat 4294967295, .mark true, .run 65535,
      .hdr 65535 65535 4294967295 65535 0, .idx 4294967295].all Instr.wf = true := by decide

theorem witness_EncodeInvertsDecode :
    decode .cmd [0x05, 0, 0, 0, 0x01, 0, 0, 0, 0x07] = .ok (.frameat 1, [0x07]) ∧
      decode .mark [0x01, 0x07] = .ok (.mark true, [0x07]) ∧ decode .run [0xFF, 0xFF] = .ok (.run 65535, []) ∧
      decode .hdr (b30.take 13) = .ok (.hdr 2 2 2 30 0, [0x00]) ∧
      decode .idx [0xFF, 0xFF, 0xFF, 0xFF] = .ok (.idx 4294967295, []) := by decide

theorem witness_CanonicalMemoriesAreEqualWhenReadsAre :
    Memory.wf (Memory.load [7, 8]) = true ∧ Memory.wf (Memory.write (Memory.write [] 1 8) 0 7) = true ∧
      ∀ a, Memory.read (Memory.load [7, 8]) a = Memory.read (Memory.write (Memory.write [] 1 8) 0 7) a :=
  ⟨by decide, by decide, fun _ => rfl⟩

theorem witness_StepRunsThePresentedCommand :
    (presenting 0x0000000400000002 ⟨[], some [0x00]⟩).flight = .idle ∧
      (presenting 0x0000000400000002 ⟨[], some [0x00]⟩).input
        = .command ⟨0x0000000400000002, ⟨[], some [0x00]⟩⟩ :: [] ∧
      decodeCmd 0x0000000400000002 = .ok (.decode 4) := by decide

/-- The five clauses; RUN with exactly two bytes left. -/
theorem witness_StepRunsTheDueElement :
    (decoding .marker false 1 0 0 [0x01, 0x01, 0x00] []).input.head? ≠ some .reset ∧
      decode .mark [0x01, 0x01, 0x00] = .ok (.mark true, [0x01, 0x00]) ∧
      (decoding .runs true 1 0 1 [0x01, 0x01, 0x00] []).dec.pos.toNat + 2 ≤ [0x01, 0x01, 0x00].length ∧
      decode .run ([0x01, 0x01, 0x00].drop 1) = .ok (.run 1, []) ∧
      decode .hdr b30 = .ok (.hdr 2 2 2 30 0, b30.drop 12) ∧
      (seeking 1 .start 0).flight = .seeking 1 .start ∧
      Memory.readBytes (seeking 1 .start 0).hnd.blob (12 + 4 * 1) 4 = some [0x05, 0x00, 0x00, 0x00] ∧
      (seeking 0 .stop 0).flight = .seeking 0 .stop ∧
      Memory.readBytes (seeking 0 .stop 0).hnd.blob (12 + 4 * (0 + 1)) 4 = some [0x05, 0x00, 0x00, 0x00] ∧
      decode .idx [0x05, 0x00, 0x00, 0x00] = .ok (.idx 5, []) := by decide

/-- A word for each reason (V-C9 to V-C16), and the operand shapes. -/
theorem witness_IllegalCommandsAnswerCommandError :
    (presenting 0 ⟨[], none⟩).UnitsIdle ∧ (presenting 0 ⟨[], none⟩).input = .command ⟨0, ⟨[], none⟩⟩ :: [] ∧
      (0x0000000000000000 : CmdWord).toNat % 8 = 0 ∧ (0x0000000000000006 : CmdWord).toNat % 8 = 6 ∧
      (0x0000000000000007 : CmdWord).toNat % 8 = 7 ∧
      (0x0000000000000009 : CmdWord).toNat / 2 ^ 3 % 2 ^ 13 ≠ 0 ∧
      ((0x0000000400010002 : CmdWord).toNat % 8 ≠ 3 ∧ (0x0000000400010002 : CmdWord).toNat / 2 ^ 16 % 2 ^ 16 ≠ 0) ∧
      ((0x0000000100000001 : CmdWord).toNat % 8 = 1 ∧ (0x0000000100000001 : CmdWord).toNat / 2 ^ 32 ≠ 0) ∧
      (withPix []).UnitsIdle ∧ (withPix []).operand.pixIn.length ≠ 1 ∧ (withPix [[], []]).operand.pixIn.length ≠ 1 ∧
      (withPix []).operand.byteIn = none := by decide

theorem witness_EveryCommandIsAnswered :
    (presenting 0x0000000400000002 ⟨[], some [0x00]⟩).UnitsIdle ∧
      (presenting 0x0000000400000002 ⟨[], some [0x00]⟩).input
        = .command ⟨0x0000000400000002, ⟨[], some [0x00]⟩⟩ :: [] ∧
      ∀ B, (⟨[], some [0x00]⟩ : Operand).byteIn = some B → B.length < 2 ^ 35 :=
  ⟨by decide, by decide, by simp +contextual⟩

theorem witness_EncodeAnswersTheCanonicalEncoding :
    (withPix [[]]).UnitsIdle ∧ (withPix [[]]).operand.pixIn = [[]] ∧ (withPix [f0011]).UnitsIdle ∧
      (withPix [f0011]).operand.pixIn = [f0011] := by decide

theorem witness_OverflowSplitOnlyInsideARun : 1 ≤ 1 ∧ 1 ≤ 65535 ∧ 1 ≤ 65536 := by decide

theorem witness_EncodedLengthFromRuns : [true] ≠ [] ∧ f0011 ≠ [] := by decide

/-- One state per clause, the count at its boundary. -/
theorem witness_EncoderStepsFollowTheirRules :
    (encoding .idle false 0 false false [] []).flight = .encoding [] [] ∧
      (encoding .idle false 0 false false [] []).input.head? ≠ some .reset ∧
      (encoding .idle false 0 false false [] []).enc.st = .idle ∧
      (encoding .idle false 0 false false [true] []).enc.st = .idle ∧
      ((encoding .accumulating true 65534 false false [true] [1]).enc.st = .accumulating ∧
        true = (encoding .accumulating true 65534 false false [true] [1]).enc.val ∧
        (encoding .accumulating true 65534 false false [true] [1]).enc.cnt.toNat < 65535) ∧
      (true = (encoding .accumulating true 65535 false false [true] [1]).enc.val ∧
        (encoding .accumulating true 65535 false false [true] [1]).enc.cnt.toNat = 65535) ∧
      false ≠ (encoding .accumulating true 65535 false false [false] [1]).enc.val ∧
      (encoding .accumulating true 65535 false false [] [1]).enc.st = .accumulating ∧
      ((encoding .flush true 1 false true [] [1]).enc.st = .flush ∧ (encoding .flush true 1 false true [] [1]).enc.fin = true) ∧
      (encoding .flush true 1 false false [] [1]).enc.fin = false ∧
      (encoding .overflowSplit true 65535 false false [] [1]).enc.st = .overflowSplit := by decide

theorem witness_EncoderMachineEmitsEncode : State.reset.enc.st = .idle := by decide

/-- After one step and after four, on `[0,0,1]` (T1). -/
theorem witness_EncoderParity :
    State.reset.enc.st = .idle ∧
      (encMachine State.reset.enc [false, false, true] 1).1.st ≠ .idle ∧
      (encMachine State.reset.enc [false, false, true] 1).1.st ≠ .done ∧
      (encMachine State.reset.enc [false, false, true] 4).1.st ≠ .idle ∧
      (encMachine State.reset.enc [false, false, true] 4).1.st ≠ .done := by decide

/-- V-D12, and V-D22 with its one field at 65535. -/
theorem witness_DecodeAnswersThePixelsOfItsFields :
    (withBytes [0x00, 0x02, 0x00, 0x02, 0x00]).UnitsIdle ∧
      (withBytes [0x00, 0x02, 0x00, 0x02, 0x00]).operand.byteIn = some (encodedFrame false [2, 2]) ∧
      (encodedFrame false [2, 2]).length < 2 ^ 35 ∧ (∀ f ∈ [2, 2], f ≤ 65535) ∧ [2, 2].sum = (4 : U32).toNat ∧
      (withBytes [0x00, 0xFF, 0xFF]).operand.byteIn = some (encodedFrame false [65535]) ∧
      (∀ f ∈ [65535], f ≤ 65535) ∧ [65535].sum = (65535 : U32).toNat := by decide

/-- V-D1 (empty), V-D6 (marker) and V-D8 (half a field). -/
theorem witness_DecodeRefusesEveryOtherSlice :
    (withBytes []).UnitsIdle ∧ (withBytes []).operand.byteIn = some [] ∧ ([] : List Byte).length < 2 ^ 35 ∧
      (∀ v fields, (∀ f ∈ fields, f ≤ 65535) → fields.sum = (0 : U32).toNat → ([] : List Byte) ≠ encodedFrame v fields) ∧
      (∀ v fields, (∀ f ∈ fields, f ≤ 65535) → fields.sum = (0 : U32).toNat → [0x02] ≠ encodedFrame v fields) ∧
      (∀ v fields, (∀ f ∈ fields, f ≤ 65535) → fields.sum = (1 : U32).toNat → [0x01, 0x01] ≠ encodedFrame v fields) := by
  refine ⟨by decide, by decide, by decide, ?_, ?_, ?_⟩
  · intro v fields _ _ h; cases h
  · intro v fields _ _ h; cases v <;> simp [encodedFrame, pixelByte] at h
  · intro v fields _ _ h
    have := congrArg List.length h
    simp only [encodedFrame, List.length_cons, List.length_nil, flatMap_le16_length] at this
    omega

theorem witness_DecodeSucceedsForExactlyOneCount :
    (∀ f ∈ [65535, 0, 1], f ≤ 65535) ∧ ¬ (([0x02] : List Byte).length % 2 = 1 ∧ ∃ m : Byte, [0x02].head? = some m ∧ m.toNat ≤ 1) ∧
      ¬ (([] : List Byte).length % 2 = 1 ∧ ∃ m : Byte, ([] : List Byte).head? = some m ∧ m.toNat ≤ 1) := by
  refine ⟨by decide, ?_, by simp⟩
  rintro ⟨_, m, h, hm⟩
  obtain rfl := Option.some.inj h
  exact absurd hm (by decide)

/-- One state per clause: the field at, and just above, what is still wanted. -/
theorem witness_DecoderStepsFollowTheirRules :
    (decoding .idle true 4 9 9 [0x00] []).flight = .decoding false 4 [0x00] [] ∧
      (decoding .idle true 4 9 9 [0x00] []).input.head? ≠ some .reset ∧
      (decoding .idle true 4 9 9 [0x00] []).dec.st = .idle ∧
      (decoding .marker true 4 0 0 [0x02] []).dec.st = .marker ∧ [0x02].head? = some (2 : Byte) ∧ (2 : Byte).toNat > 1 ∧
      [0x01].head? = some (1 : Byte) ∧ (1 : Byte).toNat ≤ 1 ∧
      ((decoding .runs true 3 1 1 [0x00, 0x02, 0x00] []).dec.st = .runs ∧ memRead [0x00, 0x02, 0x00] 1 2 = some 2 ∧
        2 ≤ (decoding .runs true 3 1 1 [0x00, 0x02, 0x00] []).dec.n.toNat
          - (decoding .runs true 3 1 1 [0x00, 0x02, 0x00] []).dec.total.toNat) ∧
      2 > (decoding .runs true 3 2 1 [0x00, 0x02, 0x00] []).dec.n.toNat
          - (decoding .runs true 3 2 1 [0x00, 0x02, 0x00] []).dec.total.toNat ∧
      [0x00, 0x02].length - (decoding .runs true 3 2 1 [0x00, 0x02] []).dec.pos.toNat = 1 ∧
      ([0x00].length - (decoding .runs true 3 2 1 [0x00] []).dec.pos.toNat = 0 ∧
        (decoding .runs true 3 2 1 [0x00] []).dec.total ≠ (decoding .runs true 3 2 1 [0x00] []).dec.n) ∧
      (decoding .runs true 3 3 1 [0x00] []).dec.total = (decoding .runs true 3 3 1 [0x00] []).dec.n ∧
      (decoding .done true 3 3 1 [0x00] []).dec.st = .done := by decide

theorem witness_MarkSetsTheStartingValue :
    (decoding .marker false 1 0 0 [0x01] []).flight = .decoding false 1 [0x01] [] ∧
      (decoding .marker false 1 0 0 [0x01] []).dec.st = .marker := by decide

/-- A field of exactly what is wanted, and the next larger one. -/
theorem witness_RunAppendsAndFlips_RunPastTheCountRaisesFormatError :
    (decoding .runs true 4 2 3 [0x00] []).flight = .decoding false 4 [0x00] [] ∧
      (decoding .runs true 4 2 3 [0x00] []).dec.st = .runs ∧
      (decoding .runs true 4 2 3 [0x00] []).dec.total.toNat + (2 : U16).toNat
        ≤ (decoding .runs true 4 2 3 [0x00] []).dec.n.toNat ∧
      (decoding .runs true 4 2 3 [0x00] []).dec.pos.toNat + 2 < 2 ^ 35 ∧
      (decoding .runs true 4 2 3 [0x00] []).dec.total.toNat ≤ (decoding .runs true 4 2 3 [0x00] []).dec.n.toNat ∧
      (3 : U16).toNat > (decoding .runs true 4 2 3 [0x00] []).dec.n.toNat
        - (decoding .runs true 4 2 3 [0x00] []).dec.total.toNat := by decide

theorem witness_DecoderMachineDeliversDecode :
    (decoding .idle true 4 9 9 [0x00, 0x04, 0x00] []).flight = .decoding false 4 [0x00, 0x04, 0x00] [] ∧
      (decoding .idle true 4 9 9 [0x00, 0x04, 0x00] []).dec.st = .idle ∧
      (decoding .idle true 4 9 9 [0x00, 0x04, 0x00] []).input.head? ≠ some .reset ∧
      ([0x00, 0x04, 0x00] : List Byte).length < 2 ^ 35 ∧
      decodeFrame [0x00, 0x04, 0x00] 4 = some [false, false, false, false] ∧ decodeFrame [0x00, 0x04, 0x00] 3 = none := by
  decide

theorem witness_BuildAnswersTheBlob :
    (withPix [f0011, f1000]).UnitsIdle ∧ Buildable (withPix [f0011, f1000]).operand.pixIn 2 2 :=
  ⟨by decide, by decide, by decide, by decide, by decide⟩

/-- V-B9 and V-B3. -/
theorem witness_BuildRaisesDimensionError :
    (withPix []).UnitsIdle ∧ (0 : U16).toNat * (2 : U16).toNat = 0 ∧
      ∃ f ∈ (withPix [f0011, [true, false, false]]).operand.pixIn, f.length ≠ (2 : U16).toNat * (2 : U16).toNat := by
  decide

/-- `2^32` frames of one pixel, and `1431655766` of them, the first number whose encodings pass `2^32 - 1` bytes. -/
theorem witness_BuildRaisesCapacityError :
    (withPix []).UnitsIdle ∧ (1 : U16).toNat * (1 : U16).toNat ≠ 0 ∧
      (∀ f ∈ List.replicate (2 ^ 32) [true], f.length = (1 : U16).toNat * (1 : U16).toNat) ∧
      (List.replicate (2 ^ 32) [true]).length > 2 ^ 32 - 1 ∧
      (∀ f ∈ List.replicate 1431655766 [true], f.length = (1 : U16).toNat * (1 : U16).toNat) ∧
      (((List.replicate 1431655766 [true]).map encodeFrame).flatten).length > 2 ^ 32 - 1 := by
  have h1 : (encodeFrame [true]).length = 3 := by decide
  refine ⟨by decide, by decide, ?_, ?_, ?_, ?_⟩
  · intro f hf; rw [List.eq_of_mem_replicate hf]; rfl
  · rw [List.length_replicate]; norm_num
  · intro f hf; rw [List.eq_of_mem_replicate hf]; rfl
  · rw [List.map_replicate, List.length_flatten, List.map_replicate, List.sum_replicate, h1]; norm_num

/-- The blob of V-B1: the first entry, two neighbours, the last. -/
theorem witness_BuiltIndexIncreases_BuiltBlobSize :
    buildBlob [f0011, f1000] 2 2 30 = .ok b30 ∧ [f0011, f1000].head? = some f0011 ∧ [f0011, f1000][0]? = some f0011 ∧
      0 + 1 < [f0011, f1000].length ∧ [f0011, f1000].getLast? = some f1000 ∧ f0011 ∈ [f0011, f1000] :=
  ⟨rfl, by decide, by decide, by decide, by decide, by decide⟩

theorem witness_AnyWriteOrderGivesTheFrameData :
    buildBlob [f0011, f1000] 2 2 30 = .ok b30 ∧ [1, 0].Perm (List.range [f0011, f1000].length) :=
  ⟨rfl, List.Perm.swap 0 1 []⟩

/-- V-R1; and V-R8, whose length is exactly `12 + 4*frame_count`. -/
theorem witness_OpenCommitsTheHeader :
    (withBytes b30).UnitsIdle ∧ (withBytes b30).operand.byteIn = some b30 ∧ b30.length < 2 ^ 35 ∧
      memRead b30 0 2 = some 2 ∧ memRead b30 2 2 = some 2 ∧ memRead b30 4 4 = some 2 ∧ memRead b30 8 2 = some 30 ∧
      memRead b30 10 2 = some 0 ∧ 12 + 4 * 2 ≤ b30.length ∧ 12 + 4 * 2 ≤ (b30.take 20).length ∧ 2 * 2 ≠ 0 := by decide

/-- V-R3, V-R6, V-R7, V-R9. -/
theorem witness_OpenRefusesBadHeaders :
    (withBytes (b30.take 11)).UnitsIdle ∧ (withBytes (b30.take 11)).operand.byteIn = some (b30.take 11) ∧
      (b30.take 11).length < 12 ∧ (memRead (b30.set 11 0x80) 10 2 = some 0x8000 ∧ 0x8000 ≠ 0) ∧
      (memRead (b30.take 19) 4 4 = some 2 ∧ (b30.take 19).length < 12 + 4 * 2) ∧
      (memRead (b30.set 0 0) 0 2 = some 0 ∧ memRead (b30.set 0 0) 2 2 = some 2 ∧ 0 * 2 = 0) := by decide

/-- The header of `B30`, and of its first 20 bytes; then one field wrong at a time. -/
theorem witness_HdrCommitsItsFields_HdrRefusesBadFields :
    (({ State.reset with flight := .opening b30 } : State).flight = .opening b30 ∧ State.reset.enc.st = .idle ∧
        State.reset.dec.st = .idle ∧ State.reset.ser.phase = .idle ∧ b30.length < 2 ^ 35) ∧
      12 + 4 * (2 : U32).toNat ≤ (b30.take 20).length ∧ (2 : U16).toNat * (2 : U16).toNat ≠ 0 ∧
      (0x8000 : U16) ≠ 0 ∧ (b30.take 19).length < 12 + 4 * (2 : U32).toNat ∧ (0 : U16).toNat * (2 : U16).toNat = 0 := by
  decide

/-- V-R21 and V-R22: an inner frame and the last one. -/
theorem witness_FrameAtAnswersTheFrame :
    openB30.UnitsIdle ∧ openB30.hnd.valid = true ∧ (0 : U32).toNat < openB30.hnd.fcount.toNat ∧
      Memory.readLE openB30.hnd.blob (12 + 4 * 0) 4 = some 0 ∧ Memory.readLE openB30.hnd.blob (12 + 4 * (0 + 1)) 4 = some 5 ∧
      Memory.readBytes openB30.hnd.blob (12 + 4 * 2 + 0) (5 - 0) = some (encodedFrame false [2, 2]) ∧
      (1 : U32).toNat + 1 = openB30.hnd.fcount.toNat ∧ 10 = openB30.hnd.blobLen.toNat - (12 + 4 * 2) ∧
      Memory.readBytes openB30.hnd.blob (12 + 4 * 2 + 5) (10 - 5) = some (encodedFrame true [1, 3]) ∧
      (∀ f ∈ [2, 2], f ≤ 65535) ∧ [2, 2].sum = openB30.hnd.width.toNat * openB30.hnd.height.toNat ∧
      [1, 3].sum = openB30.hnd.width.toNat * openB30.hnd.height.toNat := by decide

/-- V-R20; V-R23, the first index that is too large. -/
theorem witness_FrameAtChecksHandleThenIndex :
    State.reset.UnitsIdle ∧ State.reset.hnd.valid = false ∧ openB30.UnitsIdle ∧ openB30.hnd.valid = true ∧
      openB30.hnd.fcount.toNat ≤ (2 : U32).toNat := by decide

/-- `openB30` with its blob replaced. -/
def openOn (b : List Byte) : State := { openB30 with hnd := { openB30.hnd with blob := Memory.load b } }

/-- V-R26 (`end = 11 > dlen = 10`) and V-R27 (`start = 11 > end = 10`). -/
theorem witness_FrameAtRefusesBadRanges :
    (openOn (b30.set 16 0x0B)).UnitsIdle ∧ (openOn (b30.set 16 0x0B)).hnd.valid = true ∧
      (0 : U32).toNat < (openOn (b30.set 16 0x0B)).hnd.fcount.toNat ∧
      Memory.readLE (openOn (b30.set 16 0x0B)).hnd.blob (12 + 4 * 0) 4 = some 0 ∧
      Memory.readLE (openOn (b30.set 16 0x0B)).hnd.blob (12 + 4 * (0 + 1)) 4 = some 11 ∧
      11 > (openOn (b30.set 16 0x0B)).hnd.blobLen.toNat - (12 + 4 * 2) ∧
      (1 : U32).toNat + 1 = (openOn (b30.set 16 0x0B)).hnd.fcount.toNat ∧ 11 > 10 ∧
      10 = (openOn (b30.set 16 0x0B)).hnd.blobLen.toNat - (12 + 4 * 2) := by decide

/-- V-R31: an empty slice. -/
theorem witness_FrameAtRefusesBadSlices :
    (openOn (b30.set 16 0x0A)).UnitsIdle ∧ (openOn (b30.set 16 0x0A)).hnd.valid = true ∧
      (1 : U32).toNat + 1 = (openOn (b30.set 16 0x0A)).hnd.fcount.toNat ∧
      Memory.readLE (openOn (b30.set 16 0x0A)).hnd.blob (12 + 4 * 1) 4 = some 10 ∧
      10 = (openOn (b30.set 16 0x0A)).hnd.blobLen.toNat - (12 + 4 * 2) ∧
      Memory.readBytes (openOn (b30.set 16 0x0A)).hnd.blob (12 + 4 * 2 + 10) (10 - 10) = some [] ∧
      ∀ v fields, (∀ f ∈ fields, f ≤ 65535) →
        fields.sum = (openOn (b30.set 16 0x0A)).hnd.width.toNat * (openOn (b30.set 16 0x0A)).hnd.height.toNat →
        ([] : List Byte) ≠ encodedFrame v fields :=
  ⟨by decide, by decide, by decide, by decide, by decide, by decide, fun _ _ _ _ h => by cases h⟩

/-- P1, step 3, and V-R21 by its two entries. -/
theorem witness_IdxGivesStartThenEnd :
    ((seeking 0 .start 0).flight = .seeking 0 .start ∧ (0 : U32).toNat + 1 < (seeking 0 .start 0).hnd.fcount.toNat) ∧
      ((1 : U32).toNat + 1 = (seeking 1 .start 0).hnd.fcount.toNat ∧
        frameSlice (seeking 1 .start 0).hnd 5 (seeking 1 .start 0).rdr.dlen.toNat = some [0x01, 0x01, 0x00, 0x03, 0x00]) ∧
      ((seeking 0 .stop 0).flight = .seeking 0 .stop ∧
        frameSlice (seeking 0 .stop 0).hnd (seeking 0 .stop 0).rdr.start.toNat 5
          = some [0x00, 0x02, 0x00, 0x02, 0x00]) := by decide

/-- V-R27, V-R26, and V-R28. -/
theorem witness_IdxRefusesBadRanges :
    ((seeking 1 .start 0).flight = .seeking 1 .start ∧ (1 : U32).toNat + 1 = (seeking 1 .start 0).hnd.fcount.toNat ∧
        (11 : U32).toNat > (seeking 1 .start 0).rdr.dlen.toNat) ∧
      ((seeking 0 .stop 0).flight = .seeking 0 .stop ∧ (11 : U32).toNat > dataLen (seeking 0 .stop 0).hnd) ∧
      (seeking 0 .stop 5).rdr.start.toNat > (0 : U32).toNat := by decide

/-- The same handle, another status and another response. -/
theorem witness_FrameAtDependsOnTheHandleAlone :
    openB30.UnitsIdle ∧ (openB30.faulted .indexError).UnitsIdle ∧ openB30.hnd = (openB30.faulted .indexError).hnd ∧
      exec (.frameat 0) openB30 = .next (deliver (.pixels f0011) openB30.freeDec.freeRdr) :=
  ⟨by decide, by decide, by decide, rfl⟩

theorem witness_HostReadsStatusAndHandle : 7 < 8 := by decide

/-- P3, line 1, as an instruction and as a command. -/
theorem witness_FaultsArePrecise_FaultDoesNotLatch :
    State.reset.UnitsIdle ∧ exec (.frameat 0) State.reset = .next (raise .commandError State.reset) ∧
      (raise .commandError State.reset).status ≠ .ok ∧
      (presenting 5 ⟨[], none⟩).UnitsIdle ∧ (presenting 5 ⟨[], none⟩).operand = Operand.empty ∧
      (presenting 5 ⟨[], none⟩).input = .command ⟨5, ⟨[], none⟩⟩ :: [] ∧
      step (presenting 5 ⟨[], none⟩) = .next (raise .commandError State.reset) :=
  ⟨by decide, rfl, by decide, by decide, by decide, by decide, rfl⟩

/-- One end of each operation. -/
theorem witness_FaultMatrix :
    (withPix []).UnitsIdle ∧ exec .encode (withPix []) = .next (raise .commandError (withPix [])) ∧
      exec (.decode 0) (withPix []) = .next (raise .commandError (withPix [])) ∧
      exec (.build 0 2 30) (withPix []) = .next (raise .dimensionError (withPix [])) ∧
      exec .openBlob (withPix []) = .next (raise .commandError (withPix [])) ∧
      exec (.frameat 0) openB30 = .next (deliver (.pixels f0011) openB30.freeDec.freeRdr) :=
  ⟨by decide, rfl, rfl, rfl, rfl, rfl⟩

/-- A reset with a handle open, and an OPEN. -/
theorem witness_OnlyOpenWritesTheHandle :
    (after (step { openB30 with input := [.reset] })).map (fun t => decide (t.hnd ≠ openB30.hnd)) = some true ∧
      (after (step (presenting 4 ⟨[], some b30⟩))).map (fun t => decide (t.hnd ≠ Handle.reset)) = some true := by decide

/-- A reset inside an operation with a handle open. -/
theorem witness_ResetAbandonsTheOperation :
    ({ openB30 with input := [.reset], flight := .opening [] } : State).input = .reset :: [] ∧
      step { openB30 with input := [.reset], flight := .opening [] } = .next State.reset ∧ openB30.hnd.valid = true ∧
      State.reset.hnd.valid = false :=
  ⟨by decide, rfl, by decide, by decide⟩

theorem witness_IdleBlockWaits : State.reset.flight = .idle ∧ State.reset.input = [] := by decide

/-- The handle of `B30` is what an OPEN leaves. -/
theorem openB30_hnd_inv : openB30.hnd.Inv :=
  ⟨by decide, fun _ => ⟨b30, by decide, by decide, by decide, by decide, by decide, by decide, by decide⟩⟩

/-- The invariant between operations with `B30` open. -/
theorem openB30_inv : openB30.Inv := ⟨openB30_hnd_inv, ⟨rfl, rfl, rfl⟩, ⟨fun _ => rfl, fun r h => by cases h⟩⟩

theorem witness_StepKeepsTheInvariant :
    ({ openB30 with input := [.command ⟨0x0000000000000005, ⟨[], none⟩⟩] } : State).Inv ∧
      step { openB30 with input := [.command ⟨0x0000000000000005, ⟨[], none⟩⟩] }
        = .next (deliver (.pixels f0011) { openB30 with operand := ⟨[], none⟩ }.freeDec.freeRdr) :=
  ⟨openB30_inv, rfl⟩

/-- V-E4 and V-D12. -/
theorem witness_DecodeOfEncodeIsTheFrame :
    (withPix [f0011]).UnitsIdle ∧ (withBytes [0x00, 0x02, 0x00, 0x02, 0x00]).UnitsIdle ∧
      (withPix [f0011]).operand.pixIn = [f0011] ∧ f0011.length < 2 ^ 32 ∧
      (withBytes [0x00, 0x02, 0x00, 0x02, 0x00]).operand.byteIn = some (encodeFrame f0011) := by decide

/-- V-E8 is canonical, V-D16 is not. -/
theorem witness_EncodeOfDecodeIsTheCanonicalFrame :
    ((∀ f ∈ [65535, 0, 1], f ≤ 65535) ∧ Canonical (encodedFrame false [65535, 0, 1])) ∧
      ¬ Canonical [0x00, 0x00, 0x00, 0x04, 0x00] ∧
      decodeFrame [0x00, 0x00, 0x00, 0x04, 0x00] 4 = some [true, true, true, true] := by
  refine ⟨⟨by decide, .inr ⟨false, _, rfl, by decide, by decide⟩⟩, ?_, by decide⟩
  rintro (h | ⟨v, fields, h, hf, hc⟩)
  · cases h
  · have h' : [0, 4].flatMap le16 = fields.flatMap le16 := congrArg List.tail h
    obtain rfl := flatMap_le16_inj _ _ (by decide) hf h'
    exact absurd hc (by decide)

/-- P1, lines 1 to 5. -/
theorem witness_RandomAccessGivesTheFrames_OpenReadsBackTheBuiltHeader :
    (withPix [f0011, f1000]).UnitsIdle ∧ (withBytes b30).UnitsIdle ∧
      exec (.build 2 2 30) (withPix [f0011, f1000])
        = .next (deliver (.bytes b30) (withPix [f0011, f1000]).freeSer.freeEnc) ∧
      (deliver (.bytes b30) (withPix [f0011, f1000]).freeSer.freeEnc).response = some ⟨.ok, .bytes b30⟩ ∧
      (withBytes b30).operand.byteIn = some b30 ∧ exec .openBlob (withBytes b30) = .next (openBlob b30 (withBytes b30)) ∧
      openB30.UnitsIdle ∧ openB30.hnd = (openBlob b30 (withBytes b30)).hnd ∧
      (withPix [f0011, f1000]).operand.pixIn[(1 : U32).toNat]? = some f1000 ∧
      (withPix [f0011, f1000]).operand.pixIn[(2 : U32).toNat]? = none :=
  ⟨by decide, by decide, rfl, rfl, by decide, rfl, by decide, by decide, by decide, by decide⟩

theorem witness_SteppedOperationEndsAsTheAtomicOne :
    openB30.Inv ∧ openB30.flight = .idle ∧ ([] : List Input).head? ≠ some .reset ∧
      step { openB30 with input := [.command ⟨1, ⟨[f0011], none⟩⟩] }
        = .next (deliver (.bytes [0x00, 0x02, 0x00, 0x02, 0x00]) { openB30 with operand := ⟨[f0011], none⟩ }.freeEnc) :=
  ⟨openB30_inv, by decide, by decide, rfl⟩

/-- `B30` is open, every working register holds something else, and the last command ended otherwise. -/
def openB30Dirty : State :=
  { openB30 with
    status := .indexError, enc := ⟨.idle, true, 7, true, true⟩, dec := ⟨.idle, true, 7, 7, 7⟩
    ser := ⟨.idle, 7, 7, 7⟩, rdr := ⟨7, 7, 7, 7⟩, fresh := 7 }

/-- Every working register differs. -/
theorem witness_WorkingRegistersAreNotReadBeforeWritten :
    openB30.Inv ∧ openB30Dirty.Inv ∧ openB30.flight = .idle ∧ openB30Dirty.flight = .idle ∧
      openB30Dirty.hnd = openB30.hnd ∧ ([] : List Input).head? ≠ some .reset ∧
      ∀ B, (⟨[], some b30⟩ : Operand).byteIn = some B → B.length < 2 ^ 35 := by
  refine ⟨openB30_inv, ⟨openB30_hnd_inv, ⟨rfl, rfl, rfl⟩, ⟨fun _ => rfl, fun r h => by cases h⟩⟩, rfl, rfl, rfl,
    by decide, ?_⟩
  intro B h
  obtain rfl := Option.some.inj h
  decide

/-- An ENCODE about to start, with `B30` open. -/
theorem witness_EveryOperationEnds :
    ({ openB30 with flight := .encoding [true] [] } : State).Inv ∧
      ({ openB30 with flight := .encoding [true] [] } : State).flight ≠ .idle ∧
      ({ openB30 with flight := .encoding [true] [] } : State).input.head? ≠ some .reset :=
  ⟨⟨openB30_hnd_inv, ⟨rfl, rfl, ⟨by decide, by decide⟩⟩, ⟨fun _ => rfl, fun r h => by cases h⟩⟩, by decide, by decide⟩

end Sys2Proof.Tests
end

section
/-! PROOFS. Every step keeps the invariant (O53): the two ways a step can leave the block, an operation ended or an
operation in progress, and the rules by which each unit keeps the ranges of its registers. -/

namespace Sys2Proof.Machine

open Sys2Proof

variable {s t : State}

/-! ### Between operations and inside one -/

/-- However an operation ends, what it leaves meets the invariant as far as the handle does (R26, R268). -/
theorem respond_inv {c : Code} {r : Result} (hh : s.hnd.Inv) (hr : c ≠ .ok → r = .none) : (respond c r s).Inv := by
  refine ⟨by simpa using hh, ⟨rfl, rfl, rfl⟩, fun _ => rfl, ?_⟩
  rintro r' ⟨⟩
  exact ⟨rfl, rfl, hr⟩

theorem raise_inv (c : Code) (hh : s.hnd.Inv) : (raise c s).Inv := respond_inv hh fun _ => rfl

theorem deliver_inv (r : Result) (hh : s.hnd.Inv) : (deliver r s).Inv := respond_inv hh fun h => absurd rfl h

/-- Inside an operation, with no response on its channel, the channels hold nothing they should not. -/
theorem State.Inv.of_busy (hf : s.flight ≠ .idle) (hq : s.response = none) (hh : s.hnd.Inv) (hu : s.UnitsInv) :
    s.Inv :=
  ⟨hh, hu, fun h => absurd h hf, by simp [hq]⟩

/-- Between operations the invariant says that every unit is idle. -/
theorem State.Inv.unitsIdle (hi : s.Inv) (hf : s.flight = .idle) : s.UnitsIdle := by
  obtain ⟨-, hu, -⟩ := hi
  simp only [State.UnitsInv, hf] at hu
  exact ⟨hf, hu⟩

/-- The response of the last step can be passed on and forgotten. -/
theorem State.Inv.quiet (hi : s.Inv) : s.quiet.Inv := by
  obtain ⟨hh, hu, ho, -⟩ := hi
  exact ⟨hh, hu, ho, by simp⟩

theorem resetBy_inv (later : List Input) : (s.resetBy later).Inv :=
  ⟨⟨fun _ => rfl, fun h => Bool.noConfusion h⟩, ⟨rfl, rfl, rfl⟩, fun _ => rfl, fun _ h => by cases h⟩

/-! ### What is due -/

@[simp] theorem dueState_hnd (s : State) : (dueState s).hnd = s.hnd := by
  unfold dueState; split <;> rfl

@[simp] theorem dueState_flight (s : State) : (dueState s).flight = s.flight := by
  unfold dueState; split <;> rfl

/-- Nothing is due while a reset arrives (R300). -/
theorem not_reset_of_due {x : Format × List Byte} (h : due s = some x) : s.input.head? ≠ some .reset := by
  intro hr
  obtain ⟨later, hin⟩ := List.head?_eq_some_iff.mp hr
  simp [due, hin] at h

/-- A marker byte is one of the two pixel bytes (R101). -/
theorem eq_pixelByte_of_le_one {m : Byte} (h : m.toNat ≤ 1) : m = pixelByte (m.getLsbD 0) := by
  obtain h0 | h1 : m.toNat = 0 ∨ m.toNat = 1 := by omega
  · obtain rfl : m = 0#8 := BitVec.eq_of_toNat_eq h0
    rfl
  · obtain rfl : m = 1#8 := BitVec.eq_of_toNat_eq h1
    rfl

/-- A MARK is read from its own pixel byte at the head. -/
theorem head_of_decode_mark {bs rest : List Byte} {v : Pixel} (h : decode .mark bs = .ok (.mark v, rest)) :
    bs.head? = some (pixelByte v) := by
  cases bs with
  | nil => simp [decode, Format.bytes] at h
  | cons m bs =>
    rw [decode_mark] at h
    split at h
    · cases h
    · cases h
      exact congrArg some (eq_pixelByte_of_le_one (not_lt.mp ‹_›))

/-- A read inside the first bytes does not see what follows them. -/
theorem memRead_take {S : List Byte} {a n k : Nat} (h : a + n ≤ k) : memRead (S.take k) a n = memRead S a n := by
  have hle : a + n ≤ (S.take k).length ↔ a + n ≤ S.length := by simp; omega
  simp only [memRead, hle, List.drop_take, List.take_take, Nat.min_eq_left (show n ≤ k - a by omega)]

/-- A HDR is the header at the head of the bytes it is read from (R94). -/
theorem readHeader_of_decode_hdr {bs rest : List Byte} {w h : U16} {fc : U32} {fr fl : U16}
    (hd : decode .hdr bs = .ok (.hdr w h fc fr fl, rest)) : readHeader bs = some ⟨w, h, fc, fr, fl⟩ := by
  have ht : readHeader (bs.take 12) = readHeader bs := by simp [readHeader, memRead_take]
  unfold decode at hd
  split at hd
  · cases hd
  · simp only [Format.bytes, Config.headerBytes, decodeExact, ht] at hd
    rcases hr : readHeader bs with _ | hdr
    · simp [hr] at hd
    · simp only [hr] at hd
      split at hd
      · rename_i i hi
        split at hi
        · cases hi; cases hd; rfl
        · cases hi
      · cases hd

/-! ### The handle -/

/-- What a successful OPEN commits is the parsed header of its blob (R228). -/
theorem committed_inv {w h : U16} {fc : U32} {fr fl : U16} {blob : List Byte} (hb : blob.length < Config.byteInLimit)
    (hr : readHeader blob = some ⟨w, h, fc, fr, fl⟩) (hfl : fl = 0) (hl : 12 + 4 * fc.toNat ≤ blob.length)
    (hwh : w.toNat * h.toNat ≠ 0) : (committed w h fc fr fl blob).Inv := by
  have hlen : (BitVec.ofNat 35 blob.length).toNat = blob.length := by
    rw [BitVec.toNat_ofNat]; exact Nat.mod_eq_of_lt hb
  obtain ⟨hw, hh⟩ := Nat.mul_ne_zero_iff.mp hwh
  refine ⟨fun hv => Bool.noConfusion hv, fun _ => ⟨blob, rfl, hlen.symm, hr, hfl, ?_, ?_, ?_⟩⟩
  · exact Nat.one_le_iff_ne_zero.mpr hw
  · exact Nat.one_le_iff_ne_zero.mpr hh
  · simpa [dataBase, entryAddr, hlen] using hl

theorem admitHeader_inv {w h : U16} {fc : U32} {fr fl : U16} {blob : List Byte} (hh : s.hnd.Inv)
    (hb : blob.length < Config.byteInLimit) (hr : readHeader blob = some ⟨w, h, fc, fr, fl⟩) :
    (admitHeader w h fc fr fl blob s).Inv := by
  obtain ⟨hfl, hl, hwh, heq⟩ | ⟨-, heq⟩ := admitHeader_cases w h fc fr fl blob s
  · rw [heq]; exact deliver_inv _ (committed_inv hb hr hfl hl hwh)
  · rw [heq]; exact raise_inv _ hh

theorem openBlob_inv {blob : List Byte} (hh : s.hnd.Inv) (hb : blob.length < Config.byteInLimit) :
    (openBlob blob s).Inv := by
  obtain ⟨h, hr, heq⟩ | ⟨-, heq⟩ := openBlob_cases blob s
  · rw [heq]; exact admitHeader_inv hh hb hr
  · rw [heq]; exact raise_inv _ hh

/-- A range inside the blob is shorter than a blob can be. -/
theorem frameSlice_length_lt {h : Handle} {start stop : Nat} {slice : List Byte}
    (hs : frameSlice h start stop = some slice) : slice.length < Config.byteInLimit := by
  unfold frameSlice at hs
  split at hs
  · cases hs
  · rename_i hr
    have := Memory.readBytes_length hs
    have := h.blobLen.isLt
    simp only [dataLen, Config.byteInLimit] at *
    omega

/-- The product of two dimensions fits 32 bits (R29, R237). -/
theorem ofNat_dimensions_toNat (w h : U16) : (BitVec.ofNat 32 (w.toNat * h.toNat)).toNat = w.toNat * h.toNat := by
  have : w.toNat * h.toNat ≤ 65535 * 65535 :=
    Nat.mul_le_mul (Nat.le_of_lt_succ w.isLt) (Nat.le_of_lt_succ h.isLt)
  rw [BitVec.toNat_ofNat]; omega

/-! ### The registers of `ENC` -/

theorem Enc.inv_of_idle {e : Enc} (h : e.st = .idle) : e.Inv := by simp [Enc.Inv, h]

/-- A step of `ENC` keeps the range of its count (R27, R141). -/
theorem encStep_inv {e : Enc} (h : e.Inv) (rest : List Pixel) (out : List Byte) : (encStep e rest out).1.Inv := by
  obtain ⟨hpos, hmax⟩ := h
  rcases e with ⟨st, val, cnt, nxt, fin⟩
  cases st with
  | idle => cases rest <;> simp [encStep, Enc.Inv]
  | done => simp [encStep, Enc.Inv]
  | overflowSplit => simp [encStep, Enc.Inv]
  | flush => cases fin <;> simp [encStep, Enc.Inv]
  | accumulating =>
    have h1 : 1 ≤ cnt.toNat := hpos (.inl rfl)
    cases rest with
    | nil => simpa [encStep, Enc.Inv] using h1
    | cons p rest =>
      simp only [encStep]
      split
      · split
        · simp [Enc.Inv] at *; omega
        · simp [Enc.Inv] at *; omega
      · simpa [Enc.Inv] using h1

/-! ### The registers of `DEC` -/

section Dec

variable {d : Dec} {n : U32} {slice : List Byte} {out : List Pixel}

theorem Dec.inv_of_idle (h : d.st = .idle) : d.Inv n slice [] := by simp only [Dec.Inv, h]

/-- The marker byte starts the loop of R161 (R172). -/
theorem Dec.Inv.mark {v : Pixel} (h : d.Inv n slice out) (hst : d.st = .marker)
    (hv : slice.head? = some (pixelByte v)) : Dec.Inv { d with cur := v, pos := 1, st := .runs } n slice out := by
  simp only [Dec.Inv, hst] at h
  obtain ⟨rfl, hn, ht, -⟩ := h
  have hl : 1 ≤ slice.length := List.length_pos_of_mem (List.mem_of_head? hv)
  exact ⟨hn, by simp [ht], by simp, hl, rfl, ⟨v, hv, by simp⟩, by simp⟩

/-- A run field that fits keeps the loop invariants of R161 (R173). -/
theorem Dec.Inv.run {len : U16} (h : d.Inv n slice out) (hst : d.st = .runs) (hl : slice.length < Config.byteInLimit)
    (h2 : 2 ≤ slice.length - d.pos.toNat) (hlen : len.toNat ≤ d.n.toNat - d.total.toNat) :
    Dec.Inv { d with cur := !d.cur, total := d.total + len.setWidth 32, pos := d.pos + 2 } n slice
      (out ++ List.replicate len.toNat d.cur) := by
  simp only [Dec.Inv, hst] at h ⊢
  obtain ⟨rfl, ht, hle, hp, hodd, ⟨m, hm, hcur⟩, -⟩ := h
  have hpos : (d.pos + 2).toNat = d.pos.toNat + 2 := by
    simp only [Config.byteInLimit] at hl; bv_omega
  have htot : (d.total + len.setWidth 32).toNat = d.total.toNat + len.toNat := by
    have := d.n.isLt; bv_omega
  refine ⟨rfl, ?_, ?_, ?_, ?_, ⟨m, hm, ?_⟩, by simp⟩
  · simp [htot, ht]
  · simp; omega
  · omega
  · omega
  · rw [hpos, hcur, show (d.pos.toNat + 2 - 1) / 2 = (d.pos.toNat - 1) / 2 + 1 by omega]
    generalize (d.pos.toNat - 1) / 2 = k
    rcases Nat.mod_two_eq_zero_or_one k with hk | hk <;> simp [Nat.add_mod, hk]

/-- With all bytes read and all pixels there, `DEC` is done (R174). -/
theorem Dec.Inv.finish (h : d.Inv n slice out) (hst : d.st = .runs) (h2 : slice.length - d.pos.toNat < 2)
    (h1 : slice.length - d.pos.toNat ≠ 1) (ht : d.total = d.n) : Dec.Inv { d with st := .done } n slice out := by
  simp only [Dec.Inv, hst] at h
  obtain ⟨hn, hout, hle, hp, hodd, hcur, -⟩ := h
  exact ⟨hn, hout, hle, hp, hodd, hcur, fun _ => ⟨ht.trans hn, by show d.pos.toNat = _; omega⟩⟩

end Dec

/-- A decode in progress whose registers keep the loop invariants is in the invariant. -/
theorem State.Inv.of_decoding {fa : Bool} {n : U32} {slice : List Byte} {out out' : List Pixel} (hi : s.Inv)
    (hf : s.flight = .decoding fa n slice out) (hf' : t.flight = .decoding fa n slice out') (hq : t.response = none)
    (hh : t.hnd = s.hnd) (he : t.enc = s.enc) (hs : t.ser = s.ser) (hd : t.dec.Inv n slice out') : t.Inv := by
  obtain ⟨hhnd, hu, -⟩ := hi
  simp only [State.UnitsInv, hf] at hu
  obtain ⟨henc, hser, hl, -, hfa⟩ := hu
  refine .of_busy (by simp [hf']) hq (hh ▸ hhnd) ?_
  simp only [State.UnitsInv, hf', hh, he, hs]
  exact ⟨henc, hser, hl, hd, hfa⟩

/-- What the invariant says of a decode in progress. -/
theorem State.Inv.dec {fa : Bool} {n : U32} {slice : List Byte} {out : List Pixel} (hi : s.Inv)
    (hf : s.flight = .decoding fa n slice out) : slice.length < Config.byteInLimit ∧ s.dec.Inv n slice out := by
  obtain ⟨-, hu, -⟩ := hi
  simp only [State.UnitsInv, hf] at hu
  obtain ⟨-, -, hl, hd, -⟩ := hu
  exact ⟨hl, hd⟩

/-! ### The registers of `SER` -/

section Ser

variable {r r' : Ser} {frames : List (List Pixel)} {b : Building}

/-- `CHECK` passes a frame of the right size (line 2 of R191). -/
theorem Ser.Inv.check_frame {f : List Pixel} {rest : List (List Pixel)} (h : r.Inv frames b) (hp : r.phase = .check)
    (hu : b.unchecked = f :: rest) (hf : f.length = r.npx.toNat) :
    Ser.Inv { r with phase := .check, i := nextChecked r.i } frames { b with unchecked := rest } := by
  obtain ⟨-, hlen, hnpx, hcheck, -⟩ := h
  obtain ⟨henc, checked, hfr, hall, hi⟩ := hcheck hp
  have hnext : (nextChecked r.i).toNat = min (checked.length + 1) (Config.u32Max + 1) := by
    unfold nextChecked
    simp only [Config.u32Max] at *
    split
    · omega
    · bv_omega
  have hall' : ∀ g ∈ checked ++ [f], g.length = r.npx.toNat := by
    intro g hg
    obtain hg | hg := List.mem_append.mp hg
    · exact hall g hg
    · rw [List.mem_singleton.mp hg]; exact hf
  exact ⟨by simp, hlen, hnpx, fun _ => ⟨henc, checked ++ [f], by simp [hfr, hu], hall', by simpa using hnext⟩,
    by simp, by simp, by simp, by simp⟩

/-- `CHECK` is over: every frame has the right size, and there are not too many (lines 1 to 3 of R191). -/
theorem Ser.Inv.check_done (h : r.Inv frames b) (hp : r.phase = .check) (hu : b.unchecked = []) (hn : r.npx ≠ 0)
    (hi : r.i.toNat ≤ Config.u32Max) : Ser.Inv { r with phase := .encode, i := 0, off := 0 } frames b := by
  obtain ⟨-, hlen, hnpx, hcheck, -⟩ := h
  obtain ⟨henc, checked, hfr, hall, hmin⟩ := hcheck hp
  obtain rfl : frames = checked := by simpa [hu] using hfr
  have hpos : 1 ≤ r.npx.toNat := by bv_omega
  refine ⟨by simp, hlen, hnpx, by simp, fun _ => ⟨hpos, by omega, hall⟩, ?_, by simp, by simp⟩
  simp [henc]

/-- An encoded frame and its offset are entered (lines 4 to 6 of R191, R198). -/
theorem Ser.Inv.enter_frame (h : r.Inv frames b) (hp : r.phase = .encode) (hlt : b.encoded.length < frames.length)
    (hoff : r.off.toNat + b.cur.length ≤ Config.u32Max) :
    Ser.Inv { r with phase := .encode, i := r.i + 1, off := r.off + BitVec.ofNat 33 b.cur.length } frames
      { b with cur := [], encoded := b.encoded ++ [b.cur], offsets := b.offsets ++ [r.off.toNat] } := by
  obtain ⟨-, hlen, hnpx, -, hafter, henc, -, -⟩ := h
  obtain ⟨hpos, hfl, hall⟩ := hafter (by simp [hp])
  obtain ⟨hi, -, ho, -⟩ := henc hp
  have hi' : (r.i + 1).toNat = b.encoded.length + 1 := by
    simp only [Config.u32Max] at hfl; bv_omega
  have ho' : (r.off + BitVec.ofNat 33 b.cur.length).toNat = r.off.toNat + b.cur.length := by
    simp only [Config.u32Max] at hoff; bv_omega
  have hflat : (b.encoded ++ [b.cur]).flatten.length = r.off.toNat + b.cur.length := by simp [ho]
  refine ⟨by simp, by simp [hlen], hnpx, by simp, fun _ => ⟨hpos, hfl, hall⟩, fun _ => ?_, by simp, by simp⟩
  exact ⟨by simpa using hi', by simpa using hlt, ho'.trans hflat.symm, hflat ▸ hoff⟩

/-- In `ENCODE`, `SER.i` numbers the frame to be encoded next, and no frame is encoded that is not there (R193). -/
theorem Ser.Inv.encode_count (h : r.Inv frames b) (hp : r.phase = .encode) :
    r.i.toNat = b.encoded.length ∧ b.encoded.length ≤ frames.length := by
  obtain ⟨-, -, -, -, -, henc, -⟩ := h
  obtain ⟨hi, hle, -⟩ := henc hp
  exact ⟨hi, hle⟩

/-- The number of encoded frames in a phase after `ENCODE`. -/
theorem Ser.Inv.encoded_length (h : r.Inv frames b) (hc : r.phase ≠ .check) (he : r.phase ≠ .encode) :
    b.encoded.length = frames.length := by
  obtain ⟨-, -, -, -, -, -, hcount, -⟩ := h
  exact hcount hc he

/-- With every frame encoded, the phases that emit the blob need only the range of the index they emit (R204). -/
theorem Ser.Inv.emit (h : r.Inv frames b) (hc : r.phase ≠ .check) (hcount : b.encoded.length = frames.length)
    (hn : r'.npx = r.npx) (hp : r'.phase ≠ .idle ∧ r'.phase ≠ .check ∧ r'.phase ≠ .encode)
    (hi : r'.phase = .emitIdx → r'.i.toNat ≤ b.offsets.length) : r'.Inv frames b := by
  obtain ⟨-, hlen, hnpx, -, hafter, -⟩ := h
  obtain ⟨hidle, hcheck, hencode⟩ := hp
  rw [← hn] at hnpx hafter
  exact ⟨hidle, hlen, hnpx, fun h => absurd h hcheck, fun _ => hafter hc, fun h => absurd h hencode,
    fun _ _ => hcount, hi⟩

end Ser

/-- Counting on in a register of fixed width never passes the exact sum. -/
theorem toNat_add_one_le {w : Nat} (x : BitVec w) : (x + 1).toNat ≤ x.toNat + 1 := by
  rw [BitVec.toNat_add]
  exact (Nat.mod_le _ _).trans (Nat.add_le_add_left (BitVec.toNat_ofNat .. ▸ Nat.mod_le 1 _) _)

/-- A BUILD in progress in the invariant. -/
theorem State.Inv.of_building {b : Building} (hf : s.flight = .building b) (hq : s.response = none) (hh : s.hnd.Inv)
    (hd : s.dec.st = .idle) (he : s.ser.phase ≠ .encode → s.enc.st = .idle) (hei : s.enc.Inv)
    (hs : s.ser.Inv s.operand.pixIn b) (hlt : s.enc.st ≠ .idle → b.encoded.length < s.operand.pixIn.length) :
    s.Inv := by
  refine .of_busy (by simp [hf]) hq hh ?_
  simp only [State.UnitsInv, hf]
  exact ⟨hd, he, hei, hs, hlt⟩

/-- `CHECK` ends the BUILD with a fault, passes a frame, or hands over to `ENCODE`. -/
theorem stepBuilding_check_inv {b : Building} (hi : s.Inv) (hq : s.response = none) (hf : s.flight = .building b)
    (hp : s.ser.phase = .check) : (stepBuilding s b).Inv := by
  obtain ⟨hh, hu, -⟩ := hi
  simp only [State.UnitsInv, hf] at hu
  obtain ⟨hd, he, hei, hs, -⟩ := hu
  have hidle : s.enc.st = .idle := he (by simp [hp])
  simp only [stepBuilding, hp]
  by_cases hn : s.ser.npx = 0
  · rw [if_pos hn]; exact raise_inv _ hh
  rw [if_neg hn]
  rcases hu : b.unchecked with _ | ⟨f, rest⟩
  · by_cases hi : s.ser.i.toNat > Config.u32Max
    · simp only [if_pos hi]; exact raise_inv _ hh
    · simp only [if_neg hi]
      exact .of_building hf hq hh hd (fun _ => hidle) hei (hs.check_done hp hu hn (not_lt.mp hi))
        fun h => absurd hidle h
  · by_cases hl : f.length ≠ s.ser.npx.toNat
    · simp only [if_pos hl]; exact raise_inv _ hh
    · simp only [if_neg hl]
      exact .of_building rfl hq hh hd (fun _ => hidle) hei (hs.check_frame hp hu (not_not.mp hl))
        fun h => absurd hidle h

/-- `ENCODE` starts `ENC` on the next frame, steps it, enters what it has emitted, or hands over to `EMIT_HDR`. -/
theorem stepBuilding_encode_inv {b : Building} (hi : s.Inv) (hq : s.response = none) (hf : s.flight = .building b)
    (hp : s.ser.phase = .encode) : (stepBuilding s b).Inv := by
  obtain ⟨hh, hu, -⟩ := hi
  simp only [State.UnitsInv, hf] at hu
  obtain ⟨hd, -, hei, hs, hlt⟩ := hu
  obtain ⟨hcnt, hle⟩ := hs.encode_count hp
  have hne : ¬ s.ser.phase ≠ .encode := not_not.mpr hp
  cases hst : s.enc.st with
  | idle =>
    simp only [stepBuilding, hp, hst]
    rcases hg : s.operand.pixIn[s.ser.i.toNat]? with _ | f
    · have hall : b.encoded.length = s.operand.pixIn.length := by
        have := List.getElem?_eq_none_iff.mp hg; omega
      exact .of_building hf hq hh hd (fun _ => hst) hei
        (hs.emit (by simp [hp]) hall rfl (by simp) (by simp)) fun h => absurd hst h
    · have hin : b.encoded.length < s.operand.pixIn.length := hcnt ▸ (List.getElem?_eq_some_iff.mp hg).1
      exact .of_building rfl hq hh hd (fun h => absurd h hne) (encStep_inv hei _ _) hs fun _ => hin
  | done =>
    have hin := hlt (by simp [hst])
    simp only [stepBuilding, hp, hst]
    by_cases ho : s.ser.off.toNat + b.cur.length > Config.u32Max
    · rw [if_pos ho]; exact raise_inv _ hh
    · rw [if_neg ho]
      exact .of_building rfl hq hh hd (fun _ => rfl) (Enc.inv_of_idle rfl)
        (hs.enter_frame hp hin (not_lt.mp ho)) fun h => absurd rfl h
  | accumulating | flush | overflowSplit =>
    have hin := hlt (by simp [hst])
    simp only [stepBuilding, hp, hst]
    exact .of_building rfl hq hh hd (fun h => absurd h hne) (encStep_inv hei _ _) hs fun _ => hin

/-- The phases after `ENCODE` emit the blob and deliver it. -/
theorem stepBuilding_emit_inv {b : Building} (hi : s.Inv) (hq : s.response = none) (hf : s.flight = .building b)
    (hc : s.ser.phase ≠ .check) (hne : s.ser.phase ≠ .encode) : (stepBuilding s b).Inv := by
  have ⟨hh, hu, _⟩ := hi
  simp only [State.UnitsInv, hf] at hu
  obtain ⟨hd, he, hei, hs, -⟩ := hu
  have hidle : s.enc.st = .idle := he hne
  have hcount := hs.encoded_length hc hne
  cases hp : s.ser.phase with
  | check => exact absurd hp hc
  | encode => exact absurd hp hne
  | idle => simpa only [stepBuilding, hp] using hi
  | emitHdr =>
    simp only [stepBuilding, hp]
    exact .of_building rfl hq hh hd (fun _ => hidle) hei (hs.emit hc hcount rfl (by simp) (by simp))
      fun h => absurd hidle h
  | emitIdx =>
    simp only [stepBuilding, hp]
    rcases hg : b.offsets[s.ser.i.toNat]? with _ | off
    · exact .of_building hf hq hh hd (fun _ => hidle) hei (hs.emit hc hcount rfl (by simp) (by simp))
        fun h => absurd hidle h
    · have hin := (List.getElem?_eq_some_iff.mp hg).1
      have hnext : (s.ser.i + 1).toNat ≤ b.offsets.length := (toNat_add_one_le _).trans hin
      exact .of_building rfl hq hh hd (fun _ => hidle) hei (hs.emit hc hcount rfl (by simp) fun _ => hnext)
        fun h => absurd hidle h
  | emitData =>
    simp only [stepBuilding, hp]
    exact .of_building rfl hq hh hd (fun _ => hidle) hei (hs.emit hc hcount rfl (by simp) (by simp))
      fun h => absurd hidle h
  | done => simpa only [stepBuilding, hp] using deliver_inv _ hh

theorem stepBuilding_inv {b : Building} (hi : s.Inv) (hq : s.response = none) (hf : s.flight = .building b) :
    (stepBuilding s b).Inv := by
  by_cases hc : s.ser.phase = .check
  · exact stepBuilding_check_inv hi hq hf hc
  by_cases he : s.ser.phase = .encode
  · exact stepBuilding_encode_inv hi hq hf he
  · exact stepBuilding_emit_inv hi hq hf hc he

/-! ### A step of the units -/

/-- A step of ENCODE keeps the range of the count of `ENC`, or delivers (R137 to R145). -/
theorem stepEncoding_inv {rest : List Pixel} {out : List Byte} (hi : s.Inv) (hq : s.response = none)
    (hf : s.flight = .encoding rest out) : (stepEncoding s rest out).Inv := by
  obtain ⟨hh, hu, -⟩ := hi
  simp only [State.UnitsInv, hf] at hu
  obtain ⟨hd, hs, he⟩ := hu
  unfold stepEncoding
  split
  · exact deliver_inv _ hh
  · exact .of_busy nofun hq hh ⟨hd, hs, encStep_inv he _ _⟩

/-- A step of DECODE that runs no element starts the loop, ends it, or delivers (R171, R174). -/
theorem stepDecoding_inv {fa : Bool} {n : U32} {slice : List Byte} {out : List Pixel} (hi : s.Inv)
    (hq : s.response = none) (hf : s.flight = .decoding fa n slice out) (hr : s.input.head? ≠ some .reset)
    (hdue : due s = none) : (stepDecoding s n slice out).Inv := by
  obtain ⟨-, hdec⟩ := hi.dec hf
  have hh := hi.1
  cases hst : s.dec.st with
  | idle =>
    have hout : out = [] := by simpa only [Dec.Inv, hst] using hdec
    simp only [stepDecoding, hst]
    exact hi.of_decoding hf hf hq rfl rfl rfl ⟨hout, rfl, rfl, rfl⟩
  | marker => simpa only [stepDecoding, hst] using hi
  | runs =>
    have h2 : slice.length - s.dec.pos.toNat < 2 := by
      simpa [due_of_not_reset hr, hf, hst] using hdue
    simp only [stepDecoding, hst]
    split
    · exact raise_inv _ hh
    · rename_i h1
      split
      · exact raise_inv _ hh
      · rename_i ht
        exact hi.of_decoding hf hf hq rfl rfl rfl (hdec.finish hst h2 h1 (not_not.mp ht))
  | done => simpa only [stepDecoding, hst] using deliver_inv _ hh

theorem stepUnits_inv (hi : s.Inv) (hq : s.response = none) (hr : s.input.head? ≠ some .reset) (hdue : due s = none) :
    (stepUnits s).Inv := by
  cases hf : s.flight with
  | idle => simpa only [stepUnits, hf] using hi
  | encoding rest out => simpa only [stepUnits, hf] using stepEncoding_inv hi hq hf
  | decoding fa n slice out => simpa only [stepUnits, hf] using stepDecoding_inv hi hq hf hr hdue
  | opening blob => simpa only [stepUnits, hf] using hi
  | seeking index entry => simpa only [stepUnits, hf] using hi
  | building b => simpa only [stepUnits, hf] using stepBuilding_inv hi hq hf

/-! ### The start of a stepped operation -/

/-- `SER` at the start of a BUILD: no frame is checked yet (R191 line 1, R204). -/
theorem Ser.inv_start (w h r : U16) (frames : List (List Pixel)) :
    Ser.Inv ⟨.check, 0, 0, BitVec.ofNat 32 (w.toNat * h.toNat)⟩ frames ⟨w, h, r, frames, [], [], [], [], []⟩ :=
  ⟨by simp, rfl, ofNat_dimensions_toNat w h, fun _ => ⟨rfl, [], rfl, by simp, by simp⟩, by simp, by simp, by simp,
    by simp⟩

theorem frameAtCheck_none {h : Handle} {index : U32} (hc : frameAtCheck h index = none) :
    h.valid = true ∧ index.toNat < h.fcount.toNat := by
  unfold frameAtCheck at hc
  split at hc
  · cases hc
  · split at hc
    · cases hc
    · exact ⟨by simpa using ‹¬ h.valid = false›, not_le.mp ‹_›⟩

/-- The base and the length of the frame data fit the registers of `RDR` (R30, R234). -/
theorem dataBase_toNat (h : Handle) : (BitVec.ofNat 35 (dataBase h)).toNat = dataBase h := by
  have := h.fcount.isLt
  simp only [dataBase, entryAddr, BitVec.toNat_ofNat, Config.headerBytes, Config.offsetBytes]; omega

theorem dataLen_toNat (h : Handle) : (BitVec.ofNat 35 (dataLen h)).toNat = dataLen h := by
  have := h.blobLen.isLt
  rw [BitVec.toNat_ofNat, dataLen]; omega

theorem startOp_inv {i : Instr} (hh : s.hnd.Inv) (hu : s.UnitsIdle) (hq : s.response = none)
    (h : startOp i s = .next t) : t.Inv := by
  obtain ⟨-, he, hd, hs⟩ := hu
  have hei : s.enc.Inv := Enc.inv_of_idle he
  cases i with
  | encode =>
    obtain ⟨-, h⟩ := whenIdle_next h
    obtain ⟨f, -, h⟩ | ⟨-, rfl⟩ := withFrame_next h
    · cases h
      exact .of_busy nofun hq hh ⟨hd, hs, hei⟩
    · exact raise_inv _ hh
  | decode n =>
    obtain ⟨-, h⟩ := whenIdle_next h
    obtain ⟨B, -, hl, h⟩ | ⟨-, rfl⟩ := withBytes_next h
    · cases h
      exact .of_busy nofun hq hh ⟨he, hs, hl, Dec.inv_of_idle hd, nofun⟩
    · exact raise_inv _ hh
  | build width height rate =>
    obtain ⟨-, h⟩ := whenIdle_next h
    cases h
    exact .of_building rfl hq hh hd (fun _ => he) hei (Ser.inv_start _ _ _ _) fun h => absurd he h
  | openBlob =>
    obtain ⟨-, h⟩ := whenIdle_next h
    obtain ⟨blob, -, hl, h⟩ | ⟨-, rfl⟩ := withBytes_next h
    · cases h
      exact .of_busy nofun hq hh ⟨he, hd, hs, hl⟩
    · exact raise_inv _ hh
  | frameat index =>
    obtain ⟨-, h⟩ := whenIdle_next h
    split at h
    · cases h; exact raise_inv _ hh
    · cases h
      obtain ⟨hv, hlt⟩ := frameAtCheck_none ‹_›
      exact .of_busy nofun hq hh ⟨he, hd, hs, hv, hlt, dataBase_toNat _, dataLen_toNat _, nofun⟩
  | mark v => cases h
  | run len => cases h
  | hdr width height frameCount frameRate flags => cases h
  | idx offset => cases h

/-- What a step that runs no instruction does: a reset, the start of a stepped operation or the refusal of its word, or
a step of the units. -/
theorem stepOther_cases (s : State) :
    (∃ later, s.input = .reset :: later ∧ stepOther s = .next (s.resetBy later)) ∨
      (∃ r later, s.flight = .idle ∧ s.input = .stepped r :: later ∧
        ((∃ i, decodeCmd r.word = .ok i ∧ stepOther s = startOp i (s.accept r later)) ∨
          (∃ e, decodeCmd r.word = .error e ∧
            stepOther s = .next (raise .commandError (s.accept r later))))) ∨
      (s.input.head? ≠ some .reset ∧ stepOther s = .next (stepUnits s)) := by
  unfold stepOther
  split
  · exact .inl ⟨_, ‹_›, rfl⟩
  · rename_i hr
    split
    · rename_i r later hf hin
      refine .inr (.inl ⟨r, later, hf, hin, ?_⟩)
      split
      · exact .inl ⟨_, ‹_›, rfl⟩
      · exact .inr ⟨_, ‹_›, rfl⟩
    · refine .inr (.inr ⟨fun h => ?_, rfl⟩)
      obtain ⟨later, h⟩ := List.head?_eq_some_iff.mp h
      exact hr later h

theorem stepOther_inv (hi : s.Inv) (hq : s.response = none) (hdue : due s = none) (h : stepOther s = .next t) :
    t.Inv := by
  have hh := hi.1
  obtain ⟨later, -, heq⟩ | ⟨r, later, hf, -, ⟨i, -, heq⟩ | ⟨e, -, heq⟩⟩ | ⟨hr, heq⟩ := stepOther_cases s <;>
    rw [heq] at h
  · cases h; exact resetBy_inv later
  · exact startOp_inv (s := s.accept r later) hh (hi.unitsIdle hf) hq h
  · cases h; exact raise_inv _ hh
  · cases h; exact stepUnits_inv hi hq hr hdue

/-! ### Instructions -/

/-- Between operations an instruction is a command, and it ends in the same step. -/
theorem exec_inv_of_idle {i : Instr} (hh : s.hnd.Inv) (hf : s.flight = .idle) (h : exec i s = .next t) : t.Inv := by
  cases i with
  | encode =>
    obtain ⟨-, ⟨f, -, rfl⟩ | ⟨-, rfl⟩⟩ := execEncode_next h
    · exact deliver_inv _ hh
    · exact raise_inv _ hh
  | decode n =>
    obtain ⟨-, ⟨B, -, -, ⟨px, -, rfl⟩ | ⟨-, rfl⟩⟩ | ⟨-, rfl⟩⟩ := execDecode_next h
    · exact deliver_inv _ hh
    · exact raise_inv _ hh
    · exact raise_inv _ hh
  | build width height rate =>
    obtain ⟨-, ⟨blob, -, rfl⟩ | ⟨c, -, rfl⟩⟩ := execBuild_next h
    · exact deliver_inv _ hh
    · exact raise_inv _ hh
  | openBlob =>
    obtain ⟨-, ⟨blob, -, hl, rfl⟩ | ⟨-, rfl⟩⟩ := execOpenBlob_next h
    · exact openBlob_inv hh hl
    · exact raise_inv _ hh
  | frameat index =>
    obtain ⟨-, ⟨px, -, rfl⟩ | ⟨c, -, rfl⟩⟩ := execFrameat_next h
    · exact deliver_inv _ hh
    · exact raise_inv _ hh
  | mark v =>
    obtain ⟨⟨fa, n, slice, out, hd⟩, -⟩ := execMark_next h
    simp [hf] at hd
  | run len =>
    obtain ⟨fa, n, slice, out, hd, -⟩ := execRun_next h
    simp [hf] at hd
  | hdr width height frameCount frameRate flags =>
    obtain ⟨blob, hd, -⟩ := execHdr_next h
    simp [hf] at hd
  | idx offset =>
    obtain ⟨index, hd, -⟩ | ⟨index, hd, -⟩ | ⟨index, hd, -⟩ := execIdx_next h <;> simp [hf] at hd

/-- A MARK read from the head of the slice starts the decoder's loop (R172). -/
theorem execMark_inv {v : Pixel} {f : Format} {bs rest : List Byte} (hi : s.Inv) (hq : s.response = none)
    (hdue : due s = some (f, bs)) (hdec : decode f bs = .ok (.mark v, rest)) (h : execMark v s = .next t) : t.Inv := by
  obtain ⟨⟨fa, n, slice, out, hf⟩, hst, rfl⟩ := execMark_next h
  obtain ⟨-, hd⟩ := hi.dec hf
  obtain ⟨rfl, rfl⟩ : Format.mark = f ∧ slice = bs := by
    simpa [due_of_not_reset (not_reset_of_due hdue), hf, hst] using hdue
  exact hi.of_decoding hf hf hq rfl rfl rfl (hd.mark hst (head_of_decode_mark hdec))

/-- A RUN is due only where its two bytes are left, and keeps the loop invariants or ends the operation (R173). -/
theorem execRun_inv {len : U16} {f : Format} {bs : List Byte} (hi : s.Inv) (hq : s.response = none)
    (hdue : due s = some (f, bs)) (h : execRun len s = .next t) : t.Inv := by
  obtain ⟨fa, n, slice, out, hf, hst, ⟨-, rfl⟩ | ⟨hlen, rfl⟩⟩ := execRun_next h
  · exact raise_inv _ hi.1
  · obtain ⟨hl, hd⟩ := hi.dec hf
    obtain ⟨h2, -⟩ : 2 ≤ slice.length - s.dec.pos.toNat ∧ _ := by
      simpa [due_of_not_reset (not_reset_of_due hdue), hf, hst] using hdue
    exact hi.of_decoding hf rfl hq rfl rfl rfl (hd.run hst hl h2 hlen)

/-- A HDR is the header of the blob of the OPEN in progress (R221). -/
theorem execHdr_inv {w h : U16} {fc : U32} {fr fl : U16} {f : Format} {bs rest : List Byte} (hi : s.Inv)
    (hdue : due s = some (f, bs)) (hdec : decode f bs = .ok (.hdr w h fc fr fl, rest))
    (hx : execHdr w h fc fr fl s = .next t) : t.Inv := by
  obtain ⟨blob, hf, rfl⟩ := execHdr_next hx
  obtain ⟨hh, hu, -⟩ := hi
  simp only [State.UnitsInv, hf] at hu
  obtain ⟨-, -, -, hl⟩ := hu
  obtain ⟨rfl, rfl⟩ : Format.hdr = f ∧ blob = bs := by
    simpa [due_of_not_reset (not_reset_of_due hdue), hf] using hdue
  exact admitHeader_inv hh hl (readHeader_of_decode_hdr hdec)

/-- With its range known a FRAMEAT hands a slice of the blob to `DEC`, or ends with a fault (R236, R237). -/
theorem sliceFrame_inv (hh : s.hnd.Inv) (hq : s.response = none) (hv : s.hnd.valid = true) (he : s.enc.st = .idle)
    (hd : s.dec.st = .idle) (hs : s.ser.phase = .idle) : (sliceFrame s).Inv := by
  unfold sliceFrame
  split
  · exact raise_inv _ hh
  · exact .of_busy nofun hq hh
      ⟨he, hs, frameSlice_length_lt ‹_›, Dec.inv_of_idle hd, fun _ => ⟨hv, ofNat_dimensions_toNat _ _⟩⟩

/-- An IDX sets `RDR.start` and goes on to the next entry, or completes the range (R235). -/
theorem execIdx_inv {offset : U32} (hi : s.Inv) (hq : s.response = none) (h : execIdx offset s = .next t) :
    t.Inv := by
  obtain ⟨hh, hu, -⟩ := hi
  obtain ⟨index, hf, hlt, rfl⟩ | ⟨index, hf, -, rfl⟩ | ⟨index, hf, rfl⟩ := execIdx_next h <;>
    simp only [State.UnitsInv, hf] at hu <;> obtain ⟨he, hd, hs, hv, hin, hb, hl, -⟩ := hu
  · exact .of_busy nofun hq hh ⟨he, hd, hs, hv, hin, hb, hl, fun _ => hlt⟩
  · exact sliceFrame_inv hh hq hv he hd hs
  · exact sliceFrame_inv hh hq hv he hd hs

/-- Inside an operation an instruction is an element or a record, read where its unit awaits it. -/
theorem exec_inv_of_busy {i : Instr} {f : Format} {bs rest : List Byte} (hi : s.Inv) (hq : s.response = none)
    (hf : s.flight ≠ .idle) (hdue : due s = some (f, bs)) (hdec : decode f bs = .ok (i, rest))
    (h : exec i s = .next t) : t.Inv := by
  cases i with
  | encode => exact absurd (execEncode_next h).1 hf
  | decode n => exact absurd (execDecode_next h).1 hf
  | build width height rate => exact absurd (execBuild_next h).1 hf
  | openBlob => exact absurd (execOpenBlob_next h).1 hf
  | frameat index => exact absurd (execFrameat_next h).1 hf
  | mark v => exact execMark_inv hi hq hdue hdec h
  | run len => exact execRun_inv hi hq hdue h
  | hdr width height frameCount frameRate flags => exact execHdr_inv hi hdue hdec h
  | idx offset => exact execIdx_inv hi hq h

/-! ### A step -/

/-- A step from a state whose last response is gone keeps the invariant. -/
theorem step_inv_of_quiet (hi : s.Inv) (hq : s.response = none) (h : step s = .next t) : t.Inv := by
  have hh : (dueState s).hnd.Inv := by rw [dueState_hnd]; exact hi.1
  obtain ⟨f, bs, i, rest, hdue, hdec, heq⟩ | ⟨f, bs, e, -, -, heq⟩ | ⟨hdue, heq⟩ := step_cases s <;>
    rw [heq, State.quiet_of_none hq] at h
  · by_cases hf : s.flight = .idle
    · exact exec_inv_of_idle hh (by rw [dueState_flight, hf]) h
    · rw [dueState_of_flight hf] at h
      exact exec_inv_of_busy hi hq hf hdue hdec h
  · cases h; exact raise_inv _ hh
  · exact stepOther_inv hi hq hdue h

/-- Settles O53, by what a step can do: run the instruction that is due, raise the fault of bytes that are none, or make
another transition; the response of the last step plays no part in any of them. -/
theorem stepKeepsTheInvariant : Obligations.StepKeepsTheInvariant := fun s _ hi h =>
  step_inv_of_quiet hi.quiet s.quiet_response h

end Sys2Proof.Machine
end

section
/-! PROOFS. The canonical form of memory, the registers the host reads, and reset. -/

namespace Sys2Proof.Machine

open Sys2Proof

/-! ### Memory -/

/-- Below its first address a canonical memory holds nothing. -/
theorem Memory.read_of_lt_head {k a : Nat} {b : Byte} {m : Memory} (h : Memory.wf ((k, b) :: m) = true) (ha : a < k) :
    Memory.read ((k, b) :: m) a = none :=
  Memory.read_of_above (k := a) (by rw [Memory.above, decide_eq_true ha]; exact h) le_rfl

/-- Settles O7, by induction on the two lists: the first addresses agree, since the lower of two different ones would be
read in one memory only, and at that address neither tail holds anything. -/
theorem canonicalMemoriesAreEqualWhenReadsAre : Obligations.CanonicalMemoriesAreEqualWhenReadsAre := by
  unfold Obligations.CanonicalMemoriesAreEqualWhenReadsAre
  intro m
  induction m with
  | nil =>
    rintro (_ | ⟨⟨k', b'⟩, m'⟩) - - h
    · rfl
    · simpa [Memory.read] using h k'
  | cons c m ih =>
    obtain ⟨k, b⟩ := c
    rintro (_ | ⟨⟨k', b'⟩, m'⟩) hm hm' h
    · simpa [Memory.read] using h k
    · obtain rfl : k = k' := by
        rcases lt_trichotomy k k' with hk | hk | hk
        · simpa [Memory.read] using (h k).trans (Memory.read_of_lt_head hm' hk)
        · exact hk
        · simpa [Memory.read] using (h k').symm.trans (Memory.read_of_lt_head hm hk)
      obtain rfl : b = b' := by simpa [Memory.read] using h k
      have htail : ∀ a, Memory.read m a = Memory.read m' a := by
        intro a
        by_cases ha : k = a
        · subst ha
          rw [Memory.read_of_above hm le_rfl, Memory.read_of_above hm' le_rfl]
        · simpa [Memory.read, ha] using h a
      rw [ih m' (Memory.wf_of_above hm) (Memory.wf_of_above hm') htail]

/-! ### What the host reads, and reset -/

/-- The host reads a register zero-extended to 35 bits, which keeps its value. -/
theorem zeroExtended_toNat {w : Nat} (x : BitVec w) (hw : w ≤ 35) :
    (some (x.setWidth 35)).map BitVec.toNat = some x.toNat :=
  congrArg some (BitVec.toNat_setWidth_of_le hw)

/-- Settles O44: each register is read zero-extended, and no ordinal above 7 names one. -/
theorem hostReadsStatusAndHandle : Obligations.HostReadsStatusAndHandle := by
  refine ⟨⟨rfl, rfl, rfl, rfl, rfl, rfl⟩, fun s => ?_⟩
  have hvalid : (BitVec.ofBool s.hnd.valid).toNat = if s.hnd.valid then 1 else 0 := by
    cases s.hnd.valid <;> rfl
  refine ⟨zeroExtended_toNat _ (by decide), (zeroExtended_toNat _ (by decide)).trans (congrArg some hvalid),
    zeroExtended_toNat _ (by decide), zeroExtended_toNat _ (by decide), zeroExtended_toNat _ (by decide),
    zeroExtended_toNat _ (by decide), zeroExtended_toNat _ (by decide), rfl, fun k hk => ?_⟩
  obtain ⟨k, rfl⟩ := Nat.exists_eq_add_of_le' hk
  rfl

/-- Settles O49: the reset state holds the values of R34. -/
theorem resetValues : Obligations.ResetValues := ⟨rfl, rfl, rfl, rfl, rfl, rfl⟩

/-- Settles O52: the reset state is what a reset event leaves. -/
theorem resetMeetsTheInvariant : Obligations.ResetMeetsTheInvariant := resetBy_inv (s := State.reset) []

end Sys2Proof.Machine
end

section
/-! PROOFS. What a step does between operations, and which steps write the handle. -/

namespace Sys2Proof.Machine

open Sys2Proof

variable {s t : State}

/-! ### A step between operations -/

/-- A legal word that is presented between operations is run, its operand on the channel (R91, R26). -/
theorem step_command {r : Request} {later : List Input} {i : Instr} (hf : s.flight = .idle)
    (hin : s.input = .command r :: later) (hd : decodeCmd r.word = .ok i) :
    step s = exec i { s with input := later, operand := r.operand, response := none } := by
  rw [step_of_due (due_cmd hf hin) (by rw [decode_cmd, hd]; rfl), dueState_cmd (s := s.quiet) hf hin]
  rfl

/-- An illegal word that is presented between operations raises `CommandError` (R93). -/
theorem step_illegal_command {r : Request} {later : List Input} {e : DecodeError} (hf : s.flight = .idle)
    (hin : s.input = .command r :: later) (hd : decodeCmd r.word = .error e) :
    step s = .next (raise .commandError { s with input := later, operand := r.operand, response := none }) := by
  rw [step_of_due_error (due_cmd hf hin) (by rw [decode_cmd, hd]; rfl), dueState_cmd (s := s.quiet) hf hin]
  rfl

/-- Between operations only a command can be due. -/
theorem command_of_due {x : Format × List Byte} (h : due s = some x) (hf : s.flight = .idle) :
    ∃ r later, s.input = .command r :: later ∧ x = (.cmd, leBytes 8 r.word.toNat) := by
  simp only [due_of_not_reset (not_reset_of_due h), hf] at h
  split at h
  · exact ⟨_, _, ‹_›, (Option.some.inj h).symm⟩
  · cases h

/-- The reset event comes first, whatever is in progress (R300). -/
theorem step_reset {later : List Input} (hin : s.input = .reset :: later) :
    step s = .next (s.quiet.resetBy later) := by
  have hd : due s = none := by simp [due, hin]
  rw [step_of_none hd]
  simp [stepOther, hin]

/-- With nothing presented and nothing in progress only the last response goes (R301). -/
theorem step_waiting (hf : s.flight = .idle) (hin : s.input = []) : step s = .next s.quiet := by
  have hd : due s = none := by simp [due, hin, hf]
  rw [step_of_none hd]
  simp [stepOther, hin, stepUnits, hf]

/-- Settles O8. -/
theorem stepRunsThePresentedCommand : Obligations.StepRunsThePresentedCommand :=
  fun _ _ _ _ hf hin hd => step_command hf hin hd

/-- Settles O51. -/
theorem idleBlockWaits : Obligations.IdleBlockWaits := fun _ hf hin => step_waiting hf hin

/-! ### The handle in each transition -/

theorem admitHeader_hnd (w h : U16) (fc : U32) (fr fl : U16) (blob : List Byte) (s : State) :
    (admitHeader w h fc fr fl blob s).hnd = s.hnd ∨
      admitHeader w h fc fr fl blob s = deliver .none { s with hnd := committed w h fc fr fl blob } := by
  obtain ⟨-, -, -, heq⟩ | ⟨-, heq⟩ := admitHeader_cases w h fc fr fl blob s
  · exact .inr heq
  · exact .inl (by rw [heq, raise_hnd])

@[simp] theorem sliceFrame_hnd (s : State) : (sliceFrame s).hnd = s.hnd := by
  unfold sliceFrame; split
  · exact raise_hnd ..
  · rfl

@[simp] theorem stepEncoding_hnd (s : State) (rest : List Pixel) (out : List Byte) :
    (stepEncoding s rest out).hnd = s.hnd := by
  unfold stepEncoding; split
  · exact deliver_hnd ..
  · rfl

@[simp] theorem stepDecoding_hnd (s : State) (n : U32) (slice : List Byte) (out : List Pixel) :
    (stepDecoding s n slice out).hnd = s.hnd := by
  cases hst : s.dec.st <;> simp only [stepDecoding, hst, deliver_hnd]
  split
  · exact raise_hnd ..
  · split
    · exact raise_hnd ..
    · rfl

/-- A step of a BUILD raises, delivers, or writes the units and the operation in progress. -/
@[simp] theorem stepBuilding_hnd (s : State) (b : Building) : (stepBuilding s b).hnd = s.hnd := by
  unfold stepBuilding
  repeat' split
  all_goals simp

@[simp] theorem stepUnits_hnd (s : State) : (stepUnits s).hnd = s.hnd := by
  cases hf : s.flight <;> simp [stepUnits, hf]

theorem startOp_hnd {i : Instr} (h : startOp i s = .next t) : t.hnd = s.hnd := by
  cases i with
  | encode =>
    obtain ⟨-, h⟩ := whenIdle_next h
    obtain ⟨f, -, h⟩ | ⟨-, rfl⟩ := withFrame_next h
    · cases h; rfl
    · exact raise_hnd ..
  | decode n =>
    obtain ⟨-, h⟩ := whenIdle_next h
    obtain ⟨B, -, -, h⟩ | ⟨-, rfl⟩ := withBytes_next h
    · cases h; rfl
    · exact raise_hnd ..
  | build width height rate =>
    obtain ⟨-, h⟩ := whenIdle_next h
    cases h; rfl
  | openBlob =>
    obtain ⟨-, h⟩ := whenIdle_next h
    obtain ⟨blob, -, -, h⟩ | ⟨-, rfl⟩ := withBytes_next h
    · cases h; rfl
    · exact raise_hnd ..
  | frameat index =>
    obtain ⟨-, h⟩ := whenIdle_next h
    split at h
    · cases h; exact raise_hnd ..
    · cases h; rfl
  | mark v => cases h
  | run len => cases h
  | hdr width height frameCount frameRate flags => cases h
  | idx offset => cases h

/-- An instruction leaves the handle, or it is an OPEN or the HDR of one, has ended `OK` and committed a handle of its
blob (R35, R228). -/
theorem exec_hnd {i : Instr} (h : exec i s = .next t) :
    t.hnd = s.hnd ∨
      ∃ w ht fc fr fl blob, t = deliver .none { s with hnd := committed w ht fc fr fl blob } ∧
        (s.flight = .opening blob ∨ i = .openBlob ∧ s.flight = .idle ∧ s.operand.byteIn = some blob) := by
  cases i with
  | encode =>
    obtain ⟨-, ⟨f, -, rfl⟩ | ⟨-, rfl⟩⟩ := execEncode_next h <;> simp
  | decode n =>
    obtain ⟨-, ⟨B, -, -, ⟨px, -, rfl⟩ | ⟨-, rfl⟩⟩ | ⟨-, rfl⟩⟩ := execDecode_next h <;> simp
  | build width height rate =>
    obtain ⟨-, ⟨blob, -, rfl⟩ | ⟨c, -, rfl⟩⟩ := execBuild_next h <;> simp
  | openBlob =>
    obtain ⟨hf, ⟨blob, hb, -, rfl⟩ | ⟨-, rfl⟩⟩ := execOpenBlob_next h
    · obtain ⟨x, -, heq⟩ | ⟨-, heq⟩ := openBlob_cases blob s <;> rw [heq]
      · refine (admitHeader_hnd ..).imp_right fun heq => ?_
        exact ⟨_, _, _, _, _, blob, heq, .inr ⟨rfl, hf, hb⟩⟩
      · exact .inl (raise_hnd ..)
    · exact .inl (raise_hnd ..)
  | frameat index =>
    obtain ⟨-, ⟨px, -, rfl⟩ | ⟨c, -, rfl⟩⟩ := execFrameat_next h <;> simp
  | mark v =>
    obtain ⟨-, -, rfl⟩ := execMark_next h
    exact .inl rfl
  | run len =>
    obtain ⟨fa, n, slice, out, -, -, ⟨-, rfl⟩ | ⟨-, rfl⟩⟩ := execRun_next h <;> simp
  | hdr width height frameCount frameRate flags =>
    obtain ⟨blob, hf, rfl⟩ := execHdr_next h
    exact (admitHeader_hnd ..).imp_right fun heq => ⟨_, _, _, _, _, blob, heq, .inl hf⟩
  | idx offset =>
    obtain ⟨index, -, -, rfl⟩ | ⟨index, -, -, rfl⟩ | ⟨index, -, rfl⟩ := execIdx_next h <;> simp

/-- A transition that runs no instruction leaves the handle, or is a reset. -/
theorem stepOther_hnd (h : stepOther s = .next t) :
    t.hnd = s.hnd ∨ ∃ later, s.input = .reset :: later ∧ t.hnd = Handle.reset := by
  obtain ⟨later, hin, heq⟩ | ⟨r, later, -, -, ⟨i, -, heq⟩ | ⟨e, -, heq⟩⟩ | ⟨-, heq⟩ := stepOther_cases s <;>
    rw [heq] at h
  · cases h; exact .inr ⟨later, hin, rfl⟩
  · exact .inl (startOp_hnd (s := s.accept r later) h)
  · cases h; exact .inl (raise_hnd ..)
  · cases h; exact .inl (stepUnits_hnd s)

/-- The one word of OPEN (R92). -/
theorem word_of_decodeCmd_openBlob {w : CmdWord} (h : decodeCmd w = .ok .openBlob) : w = 4 := by
  rw [decodeCmd_eq] at h
  repeat' split at h
  all_goals cases h
  rename_i h4 hz
  obtain ⟨hz, hr, ha⟩ := hz
  exact BitVec.eq_of_toNat_eq (show w.toNat = 4 by omega)

/-- Settles O48, by what a step can do: an instruction that writes the handle is an OPEN or the HDR of an OPEN in
progress, and no other transition but a reset writes it. -/
theorem onlyOpenWritesTheHandle : Obligations.OnlyOpenWritesTheHandle := by
  intro s t h hne
  obtain ⟨f, bs, i, rest, hdue, hdec, heq⟩ | ⟨f, bs, e, -, -, heq⟩ | ⟨-, heq⟩ := step_cases s <;> rw [heq] at h
  · obtain hh | ⟨w, ht, fc, fr, fl, blob, rfl, hsrc⟩ := exec_hnd h
    · exact absurd (by simpa using hh) hne
    · refine .inr ⟨rfl, rfl, by simp, blob, by simp, ?_⟩
      obtain hf | ⟨rfl, hf, hb⟩ := hsrc
      · exact .inl (by simpa using hf)
      · have hf : s.flight = .idle := by simpa using hf
        obtain ⟨r, later, hin, hx⟩ := command_of_due hdue hf
        obtain ⟨rfl, rfl⟩ := Prod.mk.inj hx
        rw [decode_cmd] at hdec
        refine .inr ⟨r, later, hf, hin, ?_, ?_⟩
        · rcases hw : decodeCmd r.word with e | i <;> rw [hw] at hdec <;> cases hdec
          exact word_of_decodeCmd_openBlob hw
        · rwa [dueState_cmd (by simpa) (by simpa using hin)] at hb
  · cases h; exact absurd (by simp) hne
  · obtain hh | hr := stepOther_hnd h
    · exact absurd (by simpa using hh) hne
    · exact .inl (by simpa using hr)

/-- Settles O50: the reset event leaves the reset values; and a step that closes a handle changes it, where no OPEN
did. -/
theorem resetAbandonsTheOperation : Obligations.ResetAbandonsTheOperation := by
  refine ⟨fun s later hin => ⟨_, step_reset hin, rfl, rfl, ⟨rfl, rfl, rfl, rfl⟩, rfl, rfl, rfl⟩, ?_⟩
  intro s t h hv hc
  have hne : t.hnd ≠ s.hnd := fun heq => by simp [heq, hv] at hc
  obtain ⟨later, hin, -⟩ | ⟨-, -, hv', -⟩ := onlyOpenWritesTheHandle s t h hne
  · exact ⟨later, hin⟩
  · simp [hc] at hv'

end Sys2Proof.Machine
end

section
/-! PROOFS. What a command answers: one function of the handle and the operand, met by the operation in one
transition. -/

namespace Sys2Proof.Machine

open Sys2Proof

/-! ### Answers -/

/-- What the end of an operation shows: the code, the result and the handle (R22, R23, R26). -/
structure Answer where
  code : Code
  result : Result
  hnd : Handle

/-- The answer of an operation that faults: the handle stands (R268). -/
def Answer.fault (c : Code) (h : Handle) : Answer := ⟨c, .none, h⟩

/-- The answer of an operation that ends `OK`. -/
def Answer.ok (r : Result) (h : Handle) : Answer := ⟨.ok, r, h⟩

variable {s t u : State} {a : Answer} {later : List Input}

/-- An operation has ended with an answer, and what the host does next is `later`. -/
def State.Answered (t : State) (a : Answer) (later : List Input) : Prop :=
  t.status = a.code ∧ t.response = some ⟨a.code, a.result⟩ ∧ t.hnd = a.hnd ∧ t.UnitsIdle ∧ t.input = later ∧
    t.operand = Operand.empty

theorem raise_answered (c : Code) (s : State) : (raise c s).Answered (.fault c s.hnd) s.input :=
  ⟨rfl, rfl, raise_hnd .., ⟨rfl, rfl, rfl, rfl⟩, raise_input .., rfl⟩

theorem deliver_answered (r : Result) (s : State) : (deliver r s).Answered (.ok r s.hnd) s.input :=
  ⟨rfl, rfl, deliver_hnd .., ⟨rfl, rfl, rfl, rfl⟩, deliver_input .., rfl⟩

/-- Two ends of operations with one answer look alike to the host (R12). -/
theorem State.Answered.sameOutcome (ht : t.Answered a later) (hu : u.Answered a later) : t.SameOutcome u := by
  obtain ⟨hst, hrt, hht, ⟨hft, -⟩, hit, hot⟩ := ht
  obtain ⟨hsu, hru, hhu, ⟨hfu, -⟩, hiu, hou⟩ := hu
  exact ⟨hst.trans hsu.symm, hrt.trans hru.symm, hht.trans hhu.symm, hft, hfu, hit.trans hiu.symm, hot.trans hou.symm⟩

/-! ### What each operation answers -/

/-- What a decode answers, `DECODE` or that of a FRAMEAT. -/
def decodedAnswer (h : Handle) : Option (List Pixel) → Answer
  | none => .fault .formatError h
  | some px => .ok (.pixels px) h

def builtAnswer (h : Handle) : Except Code (List Byte) → Answer
  | .error c => .fault c h
  | .ok blob => .ok (.bytes blob) h

def frameAnswer (h : Handle) : Except Code (List Pixel) → Answer
  | .error c => .fault c h
  | .ok px => .ok (.pixels px) h

/-- The handle OPEN of a blob commits, or none where it refuses the header (R221). -/
def openedHandle (blob : List Byte) : Option Handle :=
  match readHeader blob with
  | none => none
  | some x =>
    if x.flags = 0 ∧ 12 + 4 * x.frameCount.toNat ≤ blob.length ∧ x.width.toNat * x.height.toNat ≠ 0 then
      some (committed x.width x.height x.frameCount x.frameRate x.flags blob)
    else none

def openedAnswer (h : Handle) : Option Handle → Answer
  | none => .fault .formatError h
  | some h' => .ok .none h'

/-- What an operation answers to an operand, with a handle open or not. An element or a record answers nothing of its
own. -/
def answer (i : Instr) (o : Operand) (h : Handle) : Answer :=
  match i with
  | .encode =>
    match o.pixIn with
    | [f] => .ok (.bytes (encodeFrame f)) h
    | _ => .fault .commandError h
  | .decode n =>
    match o.byteIn with
    | none => .fault .commandError h
    | some B => decodedAnswer h (decodeFrame B n.toNat)
  | .build width height rate => builtAnswer h (buildBlob o.pixIn width height rate)
  | .openBlob =>
    match o.byteIn with
    | none => .fault .commandError h
    | some blob => openedAnswer h (openedHandle blob)
  | .frameat index => frameAnswer h (frameAt h index)
  | .mark _ => .fault .commandError h
  | .run _ => .fault .commandError h
  | .hdr _ _ _ _ _ => .fault .commandError h
  | .idx _ => .fault .commandError h

/-- What a command answers: `CommandError` where its word is illegal (R93). -/
def commandAnswer (r : Request) (h : Handle) : Answer :=
  match decodeCmd r.word with
  | .error _ => .fault .commandError h
  | .ok i => answer i r.operand h

theorem commandAnswer_error {r : Request} {e : DecodeError} (hd : decodeCmd r.word = .error e) (h : Handle) :
    commandAnswer r h = .fault .commandError h := by
  simp [commandAnswer, hd]

theorem commandAnswer_ok {r : Request} {i : Instr} (hd : decodeCmd r.word = .ok i) (h : Handle) :
    commandAnswer r h = answer i r.operand h := by
  simp [commandAnswer, hd]

/-- A command word names an operation, never an element or a record (R92). -/
theorem format_of_decodeCmd {w : CmdWord} {i : Instr} (h : decodeCmd w = .ok i) : i.format = .cmd := by
  unfold decodeCmd at h
  repeat' split at h
  all_goals cases h
  all_goals rfl

/-- OPEN is the commit of what `openedHandle` says, or a fault. -/
theorem openBlob_answered (blob : List Byte) (s : State) :
    (openBlob blob s).Answered (openedAnswer s.hnd (openedHandle blob)) s.input := by
  unfold openedHandle
  obtain ⟨x, hx, heq⟩ | ⟨hx, heq⟩ := openBlob_cases blob s <;> rw [heq, hx]
  · obtain ⟨hfl, hl, hwh, heq⟩ | ⟨hbad, heq⟩ :=
      admitHeader_cases x.width x.height x.frameCount x.frameRate x.flags blob s <;> rw [heq]
    · simp only [if_pos (And.intro hfl (And.intro hl hwh))]
      exact deliver_answered ..
    · have hbad : ¬ (x.flags = 0 ∧ 12 + 4 * x.frameCount.toNat ≤ blob.length ∧ x.width.toNat * x.height.toNat ≠ 0) := by
        rintro ⟨hfl, hl, hwh⟩
        obtain h | h | h := hbad
        · exact h hfl
        · omega
        · exact hwh h
      simp only [if_neg hbad]
      exact raise_answered ..
  · exact raise_answered ..

/-! ### One transition -/

/-- The byte sequence of an operand can be presented (R60, U20). -/
def Operand.Presentable (o : Operand) : Prop := ∀ B, o.byteIn = some B → B.length < Config.byteInLimit

theorem execDecode_answered (n : U32) (hf : s.flight = .idle) (ho : s.operand.Presentable) :
    ∃ t, execDecode n s = .next t ∧ t.Answered (answer (.decode n) s.operand s.hnd) s.input := by
  simp only [execDecode, whenIdle_of_idle hf, withBytes, answer]
  rcases hb : s.operand.byteIn with _ | B
  · exact ⟨_, rfl, raise_answered ..⟩
  · simp only [if_pos (ho B hb)]
    rcases decodeFrame B n.toNat with _ | px
    · exact ⟨_, rfl, raise_answered ..⟩
    · exact ⟨_, rfl, deliver_answered ..⟩

theorem execEncode_answered (hf : s.flight = .idle) :
    ∃ t, execEncode s = .next t ∧ t.Answered (answer .encode s.operand s.hnd) s.input := by
  simp only [execEncode, whenIdle_of_idle hf, withFrame, answer]
  rcases s.operand.pixIn with _ | ⟨f, _ | ⟨g, fs⟩⟩
  · exact ⟨_, rfl, raise_answered ..⟩
  · exact ⟨_, rfl, deliver_answered ..⟩
  · exact ⟨_, rfl, raise_answered ..⟩

theorem execBuild_answered (width height rate : U16) (hf : s.flight = .idle) :
    ∃ t, execBuild width height rate s = .next t ∧
      t.Answered (answer (.build width height rate) s.operand s.hnd) s.input := by
  simp only [execBuild, whenIdle_of_idle hf, answer]
  rcases buildBlob s.operand.pixIn width height rate with c | blob
  · exact ⟨_, rfl, raise_answered ..⟩
  · exact ⟨_, rfl, deliver_answered ..⟩

theorem execOpenBlob_answered (hf : s.flight = .idle) (ho : s.operand.Presentable) :
    ∃ t, execOpenBlob s = .next t ∧ t.Answered (answer .openBlob s.operand s.hnd) s.input := by
  simp only [execOpenBlob, whenIdle_of_idle hf, withBytes, answer]
  rcases hb : s.operand.byteIn with _ | blob
  · exact ⟨_, rfl, raise_answered ..⟩
  · simp only [if_pos (ho blob hb)]
    exact ⟨_, rfl, openBlob_answered ..⟩

theorem execFrameat_answered (index : U32) (hf : s.flight = .idle) :
    ∃ t, execFrameat index s = .next t ∧ t.Answered (answer (.frameat index) s.operand s.hnd) s.input := by
  simp only [execFrameat, whenIdle_of_idle hf, answer]
  rcases frameAt s.hnd index with c | px
  · exact ⟨_, rfl, raise_answered ..⟩
  · exact ⟨_, rfl, deliver_answered ..⟩

/-- Between operations an operation is answered in one transition (R70). -/
theorem exec_answered {i : Instr} (hi : i.format = .cmd) (hf : s.flight = .idle) (ho : s.operand.Presentable) :
    ∃ t, exec i s = .next t ∧ t.Answered (answer i s.operand s.hnd) s.input := by
  cases i with
  | encode => exact execEncode_answered hf
  | decode n => exact execDecode_answered n hf ho
  | build width height rate => exact execBuild_answered width height rate hf
  | openBlob => exact execOpenBlob_answered hf ho
  | frameat index => exact execFrameat_answered index hf
  | mark v => cases hi
  | run len => cases hi
  | hdr width height frameCount frameRate flags => cases hi
  | idx offset => cases hi

/-- A presented command is answered in one step. -/
theorem step_command_answered {r : Request} (hf : s.flight = .idle) (hin : s.input = .command r :: later)
    (ho : r.operand.Presentable) : ∃ t, step s = .next t ∧ t.Answered (commandAnswer r s.hnd) later := by
  rcases hd : decodeCmd r.word with e | i
  · rw [step_illegal_command hf hin hd, commandAnswer_error hd]
    exact ⟨_, rfl, raise_answered ..⟩
  · rw [step_command hf hin hd, commandAnswer_ok hd]
    exact exec_answered (s := { s with input := later, operand := r.operand, response := none })
      (format_of_decodeCmd hd) hf ho

/-- A result comes only with `OK` (R26, R268). -/
def Answer.Precise (a : Answer) : Prop := a.code ≠ .ok → a.result = .none

theorem Answer.fault_precise {c : Code} {h : Handle} : (Answer.fault c h).Precise := fun _ => rfl

theorem Answer.ok_precise {r : Result} {h : Handle} : (Answer.ok r h).Precise := fun hc => absurd rfl hc

theorem answer_precise (i : Instr) (o : Operand) (h : Handle) : (answer i o h).Precise := by
  cases i with
  | encode =>
    simp only [answer]
    split
    · exact Answer.ok_precise
    · exact Answer.fault_precise
  | decode n =>
    rcases hb : o.byteIn with _ | B <;> simp only [answer, hb]
    · exact Answer.fault_precise
    · rcases decodeFrame B n.toNat with _ | px
      · exact Answer.fault_precise
      · exact Answer.ok_precise
  | build width height rate =>
    rcases hb : buildBlob o.pixIn width height rate with c | blob <;> simp only [answer, hb]
    · exact Answer.fault_precise
    · exact Answer.ok_precise
  | openBlob =>
    rcases hb : o.byteIn with _ | blob <;> simp only [answer, hb]
    · exact Answer.fault_precise
    · rcases openedHandle blob with _ | h'
      · exact Answer.fault_precise
      · exact Answer.ok_precise
  | frameat index =>
    rcases hb : frameAt h index with c | px <;> simp only [answer, hb]
    · exact Answer.fault_precise
    · exact Answer.ok_precise
  | mark v => exact Answer.fault_precise
  | run len => exact Answer.fault_precise
  | hdr width height frameCount frameRate flags => exact Answer.fault_precise
  | idx offset => exact Answer.fault_precise

theorem commandAnswer_precise (r : Request) (h : Handle) : (commandAnswer r h).Precise := by
  rcases hd : decodeCmd r.word with e | i
  · rw [commandAnswer_error hd]; exact Answer.fault_precise
  · rw [commandAnswer_ok hd]; exact answer_precise i _ _

/-- Settles O11: a command ends with its answer, and no answer but `OK` has a result. -/
theorem everyCommandIsAnswered : Obligations.EveryCommandIsAnswered := by
  intro s r later hs hin ho
  obtain ⟨t, ht, hst, hr, -, hu, hi, ho⟩ := step_command_answered hs.1 hin ho
  exact ⟨t, _, ht, hr, hst.symm, fun hne => commandAnswer_precise _ _ (hst ▸ hne), hu, hi, ho⟩

end Sys2Proof.Machine
end

section
/-! PROOFS. Operations run by the steps of the units (log 2): from where each unit stands, the steps end with the answer
of the operation. ENC, DEC, OPEN and FRAMEAT. -/

namespace Sys2Proof.Machine

open Sys2Proof

variable {s t : State} {a : Answer}

/-! ### Runs that end an operation -/

/-- Steps from `s` end its operation with the answer `a`. -/
def State.Ends (s : State) (a : Answer) : Prop := ∃ k t, core.run k s = .next t ∧ t.Answered a s.input

theorem State.Ends.of_answered (h : s.Answered a s.input) : s.Ends a := ⟨0, s, rfl, h⟩

theorem State.Ends.of_step (h : step s = .next t) (ht : t.Ends a) (hin : t.input = s.input := by rfl) :
    s.Ends a := by
  obtain ⟨k, u, hrun, hu⟩ := ht
  exact ⟨k + 1, u, (core_run_succ k h).trans hrun, hin ▸ hu⟩

theorem State.Ends.of_raise {c : Code} (h : step s = .next (raise c s)) : s.Ends (.fault c s.hnd) :=
  .of_step h (.of_answered (by simpa using raise_answered c s)) (raise_input ..)

theorem State.Ends.of_deliver {r : Result} (h : step s = .next (deliver r s)) : s.Ends (.ok r s.hnd) :=
  .of_step h (.of_answered (by simpa using deliver_answered r s)) (deliver_input ..)

/-- A state in which an operation goes on: no reset arrives, and no response is on its channel. -/
def State.Working (s : State) : Prop := s.input.head? ≠ some .reset ∧ s.response = none

/-- Inside an operation with no instruction due, the units step. -/
theorem State.Working.step_units (hw : s.Working) (hf : s.flight ≠ .idle) (hd : due s = none) :
    step s = .next (stepUnits s) := by
  rw [Machine.step_units hw.1 hf hd, State.quiet_of_none hw.2]

/-- Inside an operation the element or record that is due is run. -/
theorem State.Working.step_due {f : Format} {bs rest : List Byte} {i : Instr} (hw : s.Working) (hf : s.flight ≠ .idle)
    (hd : due s = some (f, bs)) (hdec : decode f bs = .ok (i, rest)) : step s = exec i s := by
  rw [step_of_due hd hdec, State.quiet_of_none hw.2, dueState_of_flight hf]

/-- Inside an operation bytes that are no element and no record raise their fault. -/
theorem State.Working.step_illegal {f : Format} {bs : List Byte} {e : DecodeError} (hw : s.Working)
    (hf : s.flight ≠ .idle) (hd : due s = some (f, bs)) (hdec : decode f bs = .error e) :
    step s = .next (raise (Format.illegal f) s) := by
  rw [step_of_due_error hd hdec, State.quiet_of_none hw.2, dueState_of_flight hf]

/-! ### `ENC` -/

/-- `ENC` at work, with `rest` unread and `out` emitted, comes to `DONE` with `B` emitted, in `ENCODE` and `BUILD`
alike. -/
inductive EncEmits : Enc → List Pixel → List Byte → List Byte → Prop
  | done {e rest B} (h : e.st = .done) : EncEmits e rest B B
  | step {e rest out B} (hi : e.st ≠ .idle) (hd : e.st ≠ .done)
      (h : EncEmits (encStep e rest out).1 (encStep e rest out).2.1 (encStep e rest out).2.2 B) :
      EncEmits e rest out B

/-- The scan of R131 is what `ENC` emits from `ACCUMULATING` on (R139 to R145). -/
theorem encEmits_scan (rest : List Pixel) : ∀ (v : Pixel) (c : BitVec 16) (nxt fin : Bool) (out : List Byte),
    EncEmits ⟨.accumulating, v, c, nxt, fin⟩ rest out (out ++ encodeScan v c.toNat rest) := by
  induction rest with
  | nil =>
    intro v c nxt fin out
    refine .step (by simp) (by simp) (.step (by simp [encStep]) (by simp [encStep]) ?_)
    exact .done rfl
  | cons p rest ih =>
    intro v c nxt fin out
    refine .step (by simp) (by simp) ?_
    simp only [encStep, encodeScan]
    by_cases hp : p = v
    · simp only [if_pos hp]
      by_cases hc : c.toNat = Config.runMax
      · rw [if_pos hc, if_neg (by omega)]
        refine .step (by simp) (by simp) ?_
        simpa [encStep, le16, leBytes_succ] using
          ih v 1 nxt fin (out ++ le16 Config.runMax ++ le16 0)
      · have hlt : c.toNat < Config.runMax := by
          have := c.isLt; simp only [Config.runMax] at *; omega
        have hnext : (c + 1).toNat = c.toNat + 1 := by simp only [Config.runMax] at hlt; bv_omega
        rw [if_neg hc, if_pos hlt, ← hnext]
        exact ih v (c + 1) nxt fin out
    · simp only [if_neg hp]
      refine .step (by simp) (by simp) ?_
      simpa [encStep] using ih p 1 p false (out ++ le16 c.toNat)

/-- Started on a frame, `ENC` emits its encoding (R131, R138 to R145). -/
theorem encEmits_frame {e : Enc} (he : e.st = .idle) (F : List Pixel) :
    EncEmits (encStep e F []).1 (encStep e F []).2.1 (encStep e F []).2.2 (encodeFrame F) := by
  obtain ⟨st, v, c, nxt, fin⟩ := e
  obtain rfl : st = .idle := he
  cases F with
  | nil => exact .done rfl
  | cons p rest => exact encEmits_scan rest p 1 nxt fin [pixelByte p]

/-! ### ENCODE -/

theorem stepUnits_encoding {rest : List Pixel} {out : List Byte} (hf : s.flight = .encoding rest out) :
    stepUnits s = stepEncoding s rest out := by simp [stepUnits, hf]

theorem step_encoding {rest : List Pixel} {out : List Byte} (hw : s.Working) (hf : s.flight = .encoding rest out) :
    step s = .next (stepEncoding s rest out) := by
  rw [hw.step_units (by simp [hf]) (by simp [due_of_not_reset hw.1, hf]), stepUnits_encoding hf]

/-- A step of an ENCODE that is not done is a step of `ENC`. -/
theorem stepEncoding_of_not_done {rest : List Pixel} {out : List Byte} (hst : s.enc.st ≠ .done) :
    stepEncoding s rest out = { s with
      enc := (encStep s.enc rest out).1
      flight := .encoding (encStep s.enc rest out).2.1 (encStep s.enc rest out).2.2 } := by
  unfold stepEncoding
  split
  · exact absurd ‹_› hst
  · rfl

/-- With `ENC` at work an ENCODE ends with the bytes `ENC` emits. -/
theorem EncEmits.encoding_ends {e : Enc} {rest : List Pixel} {out B : List Byte} (h : EncEmits e rest out B)
    (hw : s.Working) : State.Ends { s with enc := e, flight := .encoding rest out } (.ok (.bytes B) s.hnd) := by
  induction h with
  | done hst =>
    refine .of_deliver ((step_encoding (s := { s with enc := _, flight := .encoding _ _ }) hw rfl).trans ?_)
    simp only [stepEncoding, hst]
  | step hi hd _ ih =>
    refine .of_step ((step_encoding (s := { s with enc := _, flight := .encoding _ _ }) hw rfl).trans ?_) ih
    rw [stepEncoding_of_not_done hd]

/-- An ENCODE run by steps ends with the encoding of its frame (R147). -/
theorem encoding_ends {F : List Pixel} (hw : s.Working) (hf : s.flight = .encoding F []) (he : s.enc.st = .idle) :
    s.Ends (.ok (.bytes (encodeFrame F)) s.hnd) := by
  refine .of_step ?_ ((encEmits_frame he F).encoding_ends hw)
  rw [step_encoding hw hf, stepEncoding_of_not_done (by simp [he])]

/-! ### DECODE -/

section Decoding

variable {fa : Bool} {n : U32} {slice : List Byte} {px : List Pixel}

theorem step_decoding (hw : s.Working) (hf : s.flight = .decoding fa n slice px) (hd : due s = none) :
    step s = .next (stepDecoding s n slice px) := by
  rw [hw.step_units (by simp [hf]) hd]
  simp [stepUnits, hf]

/-- A decode that is done delivers its pixels (R174). -/
theorem decoding_done_ends (hw : s.Working) (hf : s.flight = .decoding fa n slice px) (hst : s.dec.st = .done) :
    s.Ends (.ok (.pixels px) s.hnd) := by
  refine .of_deliver ?_
  rw [step_decoding hw hf (by simp [due_of_not_reset hw.1, hf, hst])]
  simp [stepDecoding, hst]

/-- With no field left the decode is over: it needs the pixels wanted, and no byte left (R165, R167, R174). -/
theorem decoding_last_ends (hw : s.Working) (hf : s.flight = .decoding fa n slice px) (hst : s.dec.st = .runs)
    (hl : slice.length - s.dec.pos.toNat < 2) :
    s.Ends (if slice.length - s.dec.pos.toNat = 1 ∨ s.dec.total ≠ s.dec.n then .fault .formatError s.hnd
      else .ok (.pixels px) s.hnd) := by
  have hstep := step_decoding hw hf
    (by simpa [due_of_not_reset hw.1, hf, hst] using hl)
  simp only [stepDecoding, hst] at hstep
  by_cases h1 : slice.length - s.dec.pos.toNat = 1
  · rw [if_pos (.inl h1)]
    exact .of_raise (by rw [hstep, if_pos h1])
  by_cases ht : s.dec.total ≠ s.dec.n
  · rw [if_pos (.inr ht)]
    exact .of_raise (by rw [hstep, if_neg h1, if_pos ht])
  · rw [if_neg (not_or.mpr ⟨h1, ht⟩)]
    rw [if_neg h1, if_neg ht] at hstep
    exact .of_step hstep (decoding_done_ends hw hf rfl)

/-- A field that is there is run (R173). -/
theorem step_run {l h : Byte} {rest : List Byte} (hw : s.Working) (hf : s.flight = .decoding fa n slice px)
    (hst : s.dec.st = .runs) (hbs : slice.drop s.dec.pos.toNat = l :: h :: rest) :
    step s = execRun (BitVec.ofNat 16 (leValue [l, h])) s := by
  have hlen : slice.length - s.dec.pos.toNat = rest.length + 2 := by
    simpa using congrArg List.length hbs
  refine hw.step_due (f := .run) (bs := l :: h :: rest) (by simp [hf]) ?_ (decode_run l h rest)
  simp [due_of_not_reset hw.1, hf, hst, hlen, hbs]

theorem execRun_of_over {len : U16} (hf : s.flight = .decoding fa n slice px) (hst : s.dec.st = .runs)
    (h : len.toNat > s.dec.n.toNat - s.dec.total.toNat) : execRun len s = .next (raise .formatError s) := by
  simp [execRun, hf, hst, h]

theorem execRun_of_fits {len : U16} (hf : s.flight = .decoding fa n slice px) (hst : s.dec.st = .runs)
    (h : len.toNat ≤ s.dec.n.toNat - s.dec.total.toNat) :
    execRun len s = .next { s with
      dec := { s.dec with cur := !s.dec.cur, total := s.dec.total + len.setWidth 32, pos := s.dec.pos + 2 }
      flight := .decoding fa n slice (px ++ List.replicate len.toNat s.dec.cur) } := by
  simp only [execRun, hf, hst, if_neg (not_lt.mpr h)]

theorem execMark_of_marker {v : Pixel} (hf : s.flight = .decoding fa n slice px) (hst : s.dec.st = .marker) :
    execMark v s = .next { s with dec := { s.dec with cur := v, pos := 1, st := .runs } } := by
  simp [execMark, hf, hst]

/-- From `RUNS` on the steps of `DEC` are the loop of R161. -/
theorem decoding_runs_ends : ∀ (bs : List Byte) (s : State) (px : List Pixel), s.Working →
    s.flight = .decoding fa n slice px → s.dec.st = .runs → s.dec.n = n → s.dec.total.toNat ≤ n.toNat →
    slice.length < Config.byteInLimit → slice.drop s.dec.pos.toNat = bs →
    s.Ends (decodedAnswer s.hnd ((decodeRuns n.toNat s.dec.cur s.dec.total.toNat bs).map (px ++ ·)))
  | [], s, px, hw, hf, hst, hn, _, _, hbs => by
    have hlen : slice.length - s.dec.pos.toNat = 0 := by simpa using congrArg List.length hbs
    have hend := decoding_last_ends hw hf hst (by omega)
    have htot : s.dec.total.toNat = n.toNat ↔ s.dec.total = s.dec.n := by rw [hn]; exact BitVec.toNat_inj
    by_cases ht : s.dec.total = s.dec.n
    · rw [if_neg (by simp [ht, hlen])] at hend
      simpa only [decodeRuns, if_pos (htot.mpr ht), Option.map_some, List.append_nil, decodedAnswer] using hend
    · rw [if_pos (.inr ht)] at hend
      simpa only [decodeRuns, if_neg (ht ∘ htot.mp), Option.map_none, decodedAnswer] using hend
  | [b], s, px, hw, hf, hst, _, _, _, hbs => by
    have hlen : slice.length - s.dec.pos.toNat = 1 := by simpa using congrArg List.length hbs
    have hend := decoding_last_ends hw hf hst (by omega)
    rw [if_pos (.inl hlen)] at hend
    simpa [decodeRuns, decodedAnswer] using hend
  | l :: h :: rest, s, px, hw, hf, hst, hn, ht, hl, hbs => by
    have hstep := step_run hw hf hst hbs
    have h16 := leValue_pair_lt l h
    have hlen : (BitVec.ofNat 16 (leValue [l, h])).toNat = leValue [l, h] := by
      rw [BitVec.toNat_ofNat]; omega
    have hpos : s.dec.pos.toNat + 2 ≤ slice.length := by
      have := congrArg List.length hbs
      simp at this; omega
    rw [decodeRuns]
    by_cases hover : leValue [l, h] > n.toNat - s.dec.total.toNat
    · rw [if_pos hover]
      exact .of_raise (hstep.trans (execRun_of_over hf hst (by rwa [hlen, hn])))
    · rw [if_neg hover]
      refine .of_step (hstep.trans (execRun_of_fits hf hst (by rw [hlen, hn]; omega))) ?_
      have hpos' : (s.dec.pos + 2).toNat = s.dec.pos.toNat + 2 := by
        simp only [Config.byteInLimit] at hl; bv_omega
      have htot' : (s.dec.total + (BitVec.ofNat 16 (leValue [l, h])).setWidth 32).toNat
          = s.dec.total.toNat + leValue [l, h] := by
        have := n.isLt
        rw [BitVec.toNat_add, BitVec.toNat_setWidth, hlen]; omega
      have hdrop : slice.drop (s.dec.pos + 2).toNat = rest := by
        rw [hpos', ← List.drop_drop, hbs]; rfl
      simp only [Option.map_map, Function.comp_def, ← List.append_assoc, ← htot', hlen]
      exact decoding_runs_ends rest _ _ hw rfl hst hn (by rw [htot']; omega) hl hdrop

/-- From `MARKER` on the steps of `DEC` are lines 2 to 4 of R161 and the loop (R172). -/
theorem decoding_marker_ends (hw : s.Working) (hf : s.flight = .decoding fa n slice []) (hst : s.dec.st = .marker)
    (hn : s.dec.n = n) (ht : s.dec.total = 0) (hl : slice.length < Config.byteInLimit) :
    s.Ends (decodedAnswer s.hnd (decodeFrame slice n.toNat)) := by
  have hbusy : s.flight ≠ .idle := by simp [hf]
  have hdue : due s = some (.mark, slice) := by simp [due_of_not_reset hw.1, hf, hst]
  cases slice with
  | nil => exact .of_raise (hw.step_illegal hbusy hdue rfl)
  | cons m rest =>
    have hdec := decode_mark m rest
    simp only [decodeFrame]
    by_cases hm : m.toNat > 1
    · rw [if_pos hm] at hdec ⊢
      exact .of_raise (hw.step_illegal hbusy hdue hdec)
    · rw [if_neg hm] at hdec ⊢
      refine .of_step ((hw.step_due hbusy hdue hdec).trans (execMark_of_marker hf hst)) ?_
      have hruns := decoding_runs_ends (fa := fa) rest
        { s with dec := { s.dec with cur := m.getLsbD 0, pos := 1, st := .runs } } [] hw hf rfl hn (by simp [ht]) hl rfl
      simpa [ht] using hruns

/-- A decode run by steps ends as `Decode` says (R175). -/
theorem decoding_ends (hw : s.Working) (hf : s.flight = .decoding fa n slice []) (hst : s.dec.st = .idle)
    (hl : slice.length < Config.byteInLimit) : s.Ends (decodedAnswer s.hnd (decodeFrame slice n.toNat)) := by
  have hstep := step_decoding hw hf (by simp [due_of_not_reset hw.1, hf, hst])
  simp only [stepDecoding, hst] at hstep
  exact .of_step hstep (decoding_marker_ends hw hf rfl rfl rfl hl)

end Decoding

/-! ### OPEN -/

/-- The header is in the first twelve bytes (R94). -/
theorem readHeader_take (blob : List Byte) : readHeader (blob.take Config.headerBytes) = readHeader blob := by
  simp [readHeader, memRead_take]

/-- Bytes too short for a header are no HDR (R222). -/
theorem decode_hdr_of_none {blob : List Byte} (h : readHeader blob = none) : decode .hdr blob = .error .truncated := by
  have hlen : ¬ 12 ≤ blob.length := by simp [← readHeader_isSome_iff, h]
  rw [decode, if_pos (by simpa [Format.bytes] using hlen)]

/-- With a header there, HDR is refused for its flags alone (R96). -/
theorem decode_hdr_of_some {blob : List Byte} {x : Header} (h : readHeader blob = some x) :
    decode .hdr blob =
      if x.flags = 0 then .ok (.hdr x.width x.height x.frameCount x.frameRate x.flags, blob.drop Config.headerBytes)
      else .error .reservedFlags := by
  have hlen : 12 ≤ blob.length := (readHeader_isSome_iff blob).mp (by simp [h])
  rw [decode, if_neg (by simpa [Format.bytes] using hlen)]
  simp only [Format.bytes, decodeExact, readHeader_take, h]
  by_cases hfl : x.flags = 0
  · simp only [if_pos hfl]
  · simp only [if_neg hfl]

/-- The one step of an OPEN in progress reads the header, as the function of R221 does. -/
theorem step_opening {blob : List Byte} (hw : s.Working) (hf : s.flight = .opening blob) :
    step s = .next (openBlob blob s) := by
  have hbusy : s.flight ≠ .idle := by simp [hf]
  have hdue : due s = some (.hdr, blob) := by simp [due_of_not_reset hw.1, hf]
  rcases hx : readHeader blob with _ | x
  · rw [hw.step_illegal hbusy hdue (decode_hdr_of_none hx)]
    simp [openBlob, hx, Format.illegal]
  · have hdec := decode_hdr_of_some hx
    by_cases hfl : x.flags = 0
    · rw [if_pos hfl] at hdec
      rw [hw.step_due hbusy hdue hdec]
      simp [exec, execHdr, hf, openBlob, hx]
    · rw [if_neg hfl] at hdec
      rw [hw.step_illegal hbusy hdue hdec]
      simp only [openBlob, hx, admitHeader, if_pos (show x.flags ≠ 0 from hfl), Format.illegal]

theorem opening_ends {blob : List Byte} (hw : s.Working) (hf : s.flight = .opening blob) :
    s.Ends (openedAnswer s.hnd (openedHandle blob)) := by
  have ha := openBlob_answered blob s
  obtain ⟨-, -, -, -, hin, -⟩ := id ha
  exact .of_step (step_opening hw hf) (.of_answered (by rwa [hin])) hin

/-! ### FRAMEAT -/

/-- Four bytes are an index entry (R97). -/
theorem decode_idx {bs : List Byte} (h : bs.length = 4) :
    decode .idx bs = .ok (.idx (BitVec.ofNat 32 (leValue bs)), []) := by
  simp [decode, decodeExact, Format.bytes, h, List.take_of_length_le, List.drop_of_length_le]

/-- An index entry lies in 32 bits. -/
theorem Memory.readLE_lt {m : Memory} {x v : Nat} (h : Memory.readLE m x 4 = some v) : v < 2 ^ 32 := by
  obtain ⟨bs, hbs, rfl⟩ := Option.map_eq_some_iff.mp h
  simpa [Memory.readBytes_length hbs] using leValue_lt bs

section Seeking

variable {index : U32} {entry : Entry}

/-- The step of a FRAMEAT that reads an entry the blob does not have (R66). -/
theorem step_seeking_of_none (hw : s.Working) (hf : s.flight = .seeking index entry)
    (hx : Memory.readLE s.hnd.blob (dueEntry index entry) 4 = none) : step s = .next (raise .formatError s) := by
  have hbs : Memory.readBytes s.hnd.blob (dueEntry index entry) 4 = none := Option.map_eq_none_iff.mp hx
  exact hw.step_illegal (f := .idx) (bs := []) (by simp [hf]) (by simp [due_of_not_reset hw.1, hf, hbs]) rfl

/-- The step of a FRAMEAT that reads an entry (R235). -/
theorem step_seeking_of_some {v : Nat} (hw : s.Working) (hf : s.flight = .seeking index entry)
    (hx : Memory.readLE s.hnd.blob (dueEntry index entry) 4 = some v) :
    step s = execIdx (BitVec.ofNat 32 v) s := by
  obtain ⟨bs, hbs, rfl⟩ := Option.map_eq_some_iff.mp hx
  exact hw.step_due (by simp [hf]) (by simp [due_of_not_reset hw.1, hf, hbs])
    (decode_idx (Memory.readBytes_length hbs))

/-- What a FRAMEAT answers from the range of its frame on (lines 5 and 6 of R231). -/
def slicedAnswer (h : Handle) (start stop : Nat) : Answer :=
  decodedAnswer h ((frameSlice h start stop).bind fun slice => decodeFrame slice (framePixels h))

@[simp] theorem sliceFrame_input (s : State) : (sliceFrame s).input = s.input := by
  unfold sliceFrame; split
  · exact raise_input ..
  · rfl

/-- With its range known a FRAMEAT ends as its slice decodes (R236, R237). -/
theorem sliceFrame_ends (hw : s.Working) (hd : s.dec.st = .idle) :
    (sliceFrame s).Ends (slicedAnswer s.hnd s.rdr.start.toNat s.rdr.stop.toNat) := by
  unfold sliceFrame slicedAnswer
  rcases hs : frameSlice s.hnd s.rdr.start.toNat s.rdr.stop.toNat with _ | slice
  · exact .of_answered (by simpa [decodedAnswer] using raise_answered .formatError s)
  · have hn : (BitVec.ofNat 32 (framePixels s.hnd)).toNat = framePixels s.hnd := ofNat_dimensions_toNat _ _
    have hend := decoding_ends (s := { s with flight := .decoding true (BitVec.ofNat 32 (framePixels s.hnd)) slice [] })
      hw rfl hd (frameSlice_length_lt hs)
    rwa [hn] at hend

/-- An index entry in a register of `RDR`. -/
theorem entry_toNat {v : Nat} (hv : v < 2 ^ 32) : ((BitVec.ofNat 32 v).setWidth 35).toNat = v := by
  rw [BitVec.toNat_setWidth, BitVec.toNat_ofNat]; omega

/-- What a FRAMEAT answers from its two index entries on (lines 4 to 6 of R231). -/
def rangeAnswer (h : Handle) : Option (Nat × Nat) → Answer
  | none => .fault .formatError h
  | some (start, stop) => slicedAnswer h start stop

theorem seeking_stop_ends (hw : s.Working) (hf : s.flight = .seeking index .stop) (hd : s.dec.st = .idle) :
    s.Ends (rangeAnswer s.hnd
      ((Memory.readLE s.hnd.blob (entryAddr (index.toNat + 1)) 4).map (s.rdr.start.toNat, ·))) := by
  rcases hx : Memory.readLE s.hnd.blob (entryAddr (index.toNat + 1)) 4 with _ | stop
  · exact .of_raise (step_seeking_of_none hw hf hx)
  · have hstep := step_seeking_of_some hw hf hx
    simp only [execIdx, hf] at hstep
    refine .of_step hstep ?_ (sliceFrame_input _)
    have hend := sliceFrame_ends (s := { s with
      rdr := { s.rdr with stop := (BitVec.ofNat 32 stop).setWidth 35 }, flight := .seeking index .stop }) hw hd
    rwa [entry_toNat (Memory.readLE_lt hx)] at hend

/-- A FRAMEAT run by steps ends as its range and its slice say (R231). -/
theorem seeking_start_ends (hw : s.Working) (hf : s.flight = .seeking index .start) (hd : s.dec.st = .idle)
    (hlen : s.rdr.dlen.toNat = dataLen s.hnd) : s.Ends (rangeAnswer s.hnd (frameRange s.hnd index.toNat)) := by
  unfold frameRange
  rcases hx : Memory.readLE s.hnd.blob (entryAddr index.toNat) 4 with _ | start
  · exact .of_raise (step_seeking_of_none hw hf hx)
  · have hstep := step_seeking_of_some hw hf hx
    have hstart := entry_toNat (Memory.readLE_lt hx)
    simp only [execIdx, hf] at hstep
    by_cases hlast : index.toNat + 1 < s.hnd.fcount.toNat
    · simp only [if_pos hlast] at hstep ⊢
      refine .of_step hstep ?_
      have hend := seeking_stop_ends (s := { s with
        rdr := { s.rdr with start := (BitVec.ofNat 32 start).setWidth 35 }, flight := .seeking index .stop }) hw rfl hd
      rwa [hstart] at hend
    · simp only [if_neg hlast] at hstep ⊢
      refine .of_step hstep ?_ (sliceFrame_input _)
      have hend := sliceFrame_ends (s := { s with
        rdr := { s.rdr with start := (BitVec.ofNat 32 start).setWidth 35, stop := s.rdr.dlen }
        flight := .seeking index .start }) hw hd
      rwa [hstart, hlen] at hend

end Seeking

/-- With a handle open and the index in range, FRAMEAT answers as its range and its slice say (R231). -/
theorem frameAnswer_of_check {h : Handle} {index : U32} (hc : frameAtCheck h index = none) :
    frameAnswer h (frameAt h index) = rangeAnswer h (frameRange h index.toNat) := by
  simp only [frameAt, hc]
  rcases frameRange h index.toNat with _ | ⟨start, stop⟩
  · rfl
  · simp only [rangeAnswer, slicedAnswer]
    rcases frameSlice h start stop with _ | slice
    · rfl
    · simp only [Option.bind_some]
      rcases decodeFrame slice (framePixels h) with _ | px <;> rfl

end Sys2Proof.Machine
end

section
/-! PROOFS. A BUILD run by the steps of SER and ENC (R204) ends with the answer of `Build` (R191). -/

namespace Sys2Proof.Machine

open Sys2Proof

variable {s : State} {b : Building} {a : Answer}

theorem step_building (hw : s.Working) (hf : s.flight = .building b) : step s = .next (stepBuilding s b) := by
  rw [hw.step_units (by simp [hf]) (by simp [due_of_not_reset hw.1, hf])]
  simp [stepUnits, hf]

/-! ### The phases that emit the blob -/

theorem building_done_ends (hw : s.Working) (hf : s.flight = .building b) (hp : s.ser.phase = .done) :
    s.Ends (.ok (.bytes b.out) s.hnd) :=
  .of_deliver (by rw [step_building hw hf]; simp only [stepBuilding, hp])

theorem building_emitData_ends (hw : s.Working) (hf : s.flight = .building b) (hp : s.ser.phase = .emitData) :
    s.Ends (.ok (.bytes (b.out ++ b.encoded.flatten)) s.hnd) := by
  have hstep := step_building hw hf
  simp only [stepBuilding, hp] at hstep
  exact .of_step hstep (building_done_ends (b := { b with out := _ }) hw rfl rfl)

/-- `EMIT_IDX` appends the entries from `SER.i` on (R204). -/
theorem building_emitIdx_ends (offs : List Nat) : ∀ {s : State} {b : Building}, s.Working → s.flight = .building b →
    s.ser.phase = .emitIdx → b.offsets.drop s.ser.i.toNat = offs → b.offsets.length ≤ Config.u32Max →
    s.Ends (.ok (.bytes (b.out ++ offs.flatMap le32 ++ b.encoded.flatten)) s.hnd) := by
  induction offs with
  | nil =>
    intro s b hw hf hp hdrop _
    have hstep := step_building hw hf
    have hget : b.offsets[s.ser.i.toNat]? = none := by simpa using hdrop
    simp only [stepBuilding, hp, hget] at hstep
    refine .of_step hstep ?_
    simpa using building_emitData_ends (s := { s with ser := { s.ser with phase := .emitData } }) hw hf rfl
  | cons off offs ih =>
    intro s b hw hf hp hdrop hl
    have hstep := step_building hw hf
    have hget : b.offsets[s.ser.i.toNat]? = some off := by
      rw [← List.head?_drop, hdrop]; rfl
    have hlt := (List.getElem?_eq_some_iff.mp hget).1
    have hnext : (s.ser.i + 1).toNat = s.ser.i.toNat + 1 := by
      simp only [Config.u32Max] at hl; bv_omega
    have hdrop' : b.offsets.drop (s.ser.i + 1).toNat = offs := by
      rw [hnext, ← List.drop_drop, hdrop]; rfl
    simp only [stepBuilding, hp, hget] at hstep
    refine .of_step hstep ?_
    simpa using ih (s := { s with
        ser := { s.ser with phase := .emitIdx, i := s.ser.i + 1 }
        flight := .building { b with out := b.out ++ le32 off } }) hw rfl rfl hdrop' hl

/-- `EMIT_HDR` and the phases after it emit the blob (lines 7 to 9 of R191). -/
theorem building_emitHdr_ends (hw : s.Working) (hf : s.flight = .building b) (hp : s.ser.phase = .emitHdr)
    (hl : b.offsets.length ≤ Config.u32Max) :
    s.Ends (.ok (.bytes (assembleBlob b.width b.height b.rate b.offsets b.encoded)) s.hnd) := by
  have hstep := step_building hw hf
  simp only [stepBuilding, hp] at hstep
  exact .of_step hstep (building_emitIdx_ends b.offsets (b := { b with out := _ }) hw rfl rfl rfl hl)

/-! ### `ENCODE` -/

/-- With `ENC` at work on a frame, a BUILD comes to where `ENC` is done with the frame's bytes, or the operation ends
there. -/
theorem EncEmits.building_ends {e : Enc} {rest : List Pixel} {cur B : List Byte} (h : EncEmits e rest cur B)
    (hw : s.Working) (hp : s.ser.phase = .encode)
    (hdone : ∀ e' rest', e'.st = .done →
      State.Ends { s with enc := e', flight := .building { b with rest := rest', cur := B } } a) :
    State.Ends { s with enc := e, flight := .building { b with rest := rest, cur := cur } } a := by
  induction h with
  | done hst => exact hdone _ _ hst
  | @step e rest out B hi hd _ ih =>
    have hstep := step_building (s := { s with enc := e, flight := .building { b with rest := rest, cur := out } })
      hw rfl
    refine .of_step (hstep.trans ?_) (ih hdone)
    cases hst : e.st with
    | idle => exact absurd hst hi
    | done => exact absurd hst hd
    | accumulating | flush | overflowSplit => simp only [stepBuilding, hp, hst]

/-- What a BUILD that has encoded `b.encoded`, `off` bytes, answers to the frames `fs` that follow (lines 4 to 9 of
R191). -/
def encodedAnswer (h : Handle) (b : Building) (off : Nat) (fs : List (List Pixel)) : Answer :=
  match encodeAll off fs with
  | none => .fault .capacityError h
  | some (offs, es) => .ok (.bytes (assembleBlob b.width b.height b.rate (b.offsets ++ offs) (b.encoded ++ es))) h

theorem encodedAnswer_nil (h : Handle) (b : Building) (off : Nat) :
    encodedAnswer h b off [] = .ok (.bytes (assembleBlob b.width b.height b.rate b.offsets b.encoded)) h := by
  simp [encodedAnswer, encodeAll]

/-- A frame that would pass the capacity (R198). -/
theorem encodedAnswer_of_over {off : Nat} {f : List Pixel} (h : Handle) (b : Building) (fs : List (List Pixel))
    (hl : off + (encodeFrame f).length > Config.u32Max) :
    encodedAnswer h b off (f :: fs) = .fault .capacityError h := by
  simp only [encodedAnswer, encodeAll, if_pos hl]

/-- A frame that fits is entered, and the others follow (R193, R194). -/
theorem encodedAnswer_of_fits {off : Nat} {f : List Pixel} (h : Handle) (b : Building) (fs : List (List Pixel))
    (rest : List Pixel) (hl : off + (encodeFrame f).length ≤ Config.u32Max) :
    encodedAnswer h b off (f :: fs) =
      encodedAnswer h { b with
        rest := rest, cur := [], encoded := b.encoded ++ [encodeFrame f], offsets := b.offsets ++ [off] }
        (off + (encodeFrame f).length) fs := by
  simp only [encodedAnswer, encodeAll, if_neg (not_lt.mpr hl)]
  rcases encodeAll (off + (encodeFrame f).length) fs with _ | ⟨offs, es⟩
  · rfl
  · simp

theorem Ser.Inv.offsets_length_le {r : Ser} {frames : List (List Pixel)} (h : r.Inv frames b)
    (hp : r.phase = .encode) : b.offsets.length ≤ Config.u32Max := by
  obtain ⟨-, hlen, -, -, hafter, -⟩ := id h
  obtain ⟨-, hfl, -⟩ := hafter (by simp [hp])
  have := (h.encode_count hp).2
  omega

/-- With a frame encoded, `ENCODE` enters it or ends the BUILD for want of capacity (R193, R198). -/
theorem step_frame_done (hw : s.Working) (hf : s.flight = .building b) (hp : s.ser.phase = .encode)
    (hst : s.enc.st = .done) : step s = .next (
      if s.ser.off.toNat + b.cur.length > Config.u32Max then raise .capacityError s
      else { s with
        enc := { s.enc with st := .idle }
        ser := { s.ser with phase := .encode, i := s.ser.i + 1, off := s.ser.off + BitVec.ofNat 33 b.cur.length }
        flight := .building { b with
          cur := [], encoded := b.encoded ++ [b.cur], offsets := b.offsets ++ [s.ser.off.toNat] } }) := by
  rw [step_building hw hf]
  simp only [stepBuilding, hp, hst]

/-- `ENCODE` encodes the frames that are left, and the phases after it emit the blob. -/
theorem building_encode_ends (fs : List (List Pixel)) : ∀ {s : State} {b : Building}, s.Working →
    s.flight = .building b → s.ser.phase = .encode → s.enc.st = .idle → s.ser.Inv s.operand.pixIn b →
    s.operand.pixIn.drop b.encoded.length = fs → s.Ends (encodedAnswer s.hnd b s.ser.off.toNat fs) := by
  induction fs with
  | nil =>
    intro s b hw hf hp he hs hdrop
    have hstep := step_building hw hf
    have hget : s.operand.pixIn[s.ser.i.toNat]? = none := by
      rw [(hs.encode_count hp).1]; simpa using hdrop
    simp only [stepBuilding, hp, he, hget] at hstep
    rw [encodedAnswer_nil]
    exact .of_step hstep (building_emitHdr_ends hw hf rfl (hs.offsets_length_le hp))
  | cons f fs ih =>
    intro s b hw hf hp he hs hdrop
    have hstep := step_building hw hf
    have hget : s.operand.pixIn[s.ser.i.toNat]? = some f := by
      rw [(hs.encode_count hp).1, ← List.head?_drop, hdrop]; rfl
    have hlt := (List.getElem?_eq_some_iff.mp hget).1
    rw [(hs.encode_count hp).1] at hlt
    simp only [stepBuilding, hp, he, hget] at hstep
    refine .of_step hstep ((encEmits_frame he f).building_ends hw hp fun e' rest' hst => ?_)
    have hdone := step_frame_done (s := { s with
      enc := e', flight := .building { b with rest := rest', cur := encodeFrame f } }) hw rfl hp hst
    by_cases hover : s.ser.off.toNat + (encodeFrame f).length > Config.u32Max
    · rw [encodedAnswer_of_over _ _ _ hover]
      exact .of_raise (by rw [hdone, if_pos hover])
    · rw [if_neg hover] at hdone
      rw [encodedAnswer_of_fits _ _ _ rest' (not_lt.mp hover)]
      have hs' : s.ser.Inv s.operand.pixIn { b with rest := rest', cur := encodeFrame f } := hs
      have hoff : (s.ser.off + BitVec.ofNat 33 (encodeFrame f).length).toNat =
          s.ser.off.toNat + (encodeFrame f).length := by
        simp only [Config.u32Max] at hover; bv_omega
      have hdrop' : s.operand.pixIn.drop (b.encoded ++ [encodeFrame f]).length = fs := by
        rw [List.length_append, ← List.drop_drop, hdrop]; rfl
      rw [← hoff]
      exact .of_step hdone (ih hw rfl rfl rfl (hs'.enter_frame hp hlt (not_lt.mp hover)) hdrop')

/-! ### `CHECK` and the whole operation -/

/-- With right dimensions and not too many frames BUILD answers as the encoding of its frames does (R191). -/
theorem builtAnswer_of_checked {frames : List (List Pixel)} (hd : Handle) {w h : U16} (r : U16)
    (hwh : w.toNat * h.toNat ≠ 0) (hall : ∀ f ∈ frames, f.length = w.toNat * h.toNat)
    (hl : frames.length ≤ Config.u32Max) (hw : b.width = w) (hh : b.height = h) (hr : b.rate = r)
    (ho : b.offsets = []) (he : b.encoded = []) :
    builtAnswer hd (buildBlob frames w h r) = encodedAnswer hd b 0 frames := by
  have hany : ¬ (frames.any fun f => decide (f.length ≠ w.toNat * h.toNat)) = true := by
    simpa using hall
  have hc : buildCheck frames w h = none := by
    rw [buildCheck, if_neg hwh, if_neg hany, if_neg (not_lt.mpr hl)]
  simp only [buildBlob, hc, encodedAnswer, hw, hh, hr, ho, he, List.nil_append]
  rcases encodeAll 0 frames with _ | ⟨offs, es⟩ <;> rfl

theorem builtAnswer_of_dimensionError {frames : List (List Pixel)} (hd : Handle) {w h : U16} (r : U16)
    (hbad : w.toNat * h.toNat = 0 ∨ ∃ f ∈ frames, f.length ≠ w.toNat * h.toNat) :
    builtAnswer hd (buildBlob frames w h r) = .fault .dimensionError hd := by
  rw [buildBlob_dimensionError r hbad, builtAnswer]

/-- `CHECK` refuses a zero dimension (line 1 of R191). -/
theorem building_zero_ends (hw : s.Working) (hf : s.flight = .building b) (hp : s.ser.phase = .check)
    (hs : s.ser.Inv s.operand.pixIn b) (hn : s.ser.npx = 0) :
    s.Ends (builtAnswer s.hnd (buildBlob s.operand.pixIn b.width b.height b.rate)) := by
  have hstep := step_building hw hf
  simp only [stepBuilding, hp, if_pos hn] at hstep
  obtain ⟨-, -, hnpx, -⟩ := hs
  rw [builtAnswer_of_dimensionError s.hnd b.rate (.inl (by rw [← hnpx, hn]; rfl))]
  exact .of_raise hstep

/-- `CHECK` is over: the number of frames decides between `CapacityError` and `ENCODE` (line 3 of R191). -/
theorem building_checked_ends (hw : s.Working) (hf : s.flight = .building b) (hp : s.ser.phase = .check)
    (he : s.enc.st = .idle) (hs : s.ser.Inv s.operand.pixIn b) (hu : b.unchecked = []) (hn : s.ser.npx ≠ 0) :
    s.Ends (builtAnswer s.hnd (buildBlob s.operand.pixIn b.width b.height b.rate)) := by
  have hstep := step_building hw hf
  simp only [stepBuilding, hp, if_neg hn, hu] at hstep
  obtain ⟨-, hlen, hnpx, hcheck, -⟩ := id hs
  obtain ⟨henc, checked, hfr, hall, hi⟩ := hcheck hp
  obtain rfl : s.operand.pixIn = checked := by simpa [hu] using hfr
  have hwh : b.width.toNat * b.height.toNat ≠ 0 := by bv_omega
  rw [hnpx] at hall
  by_cases hmany : s.ser.i.toNat > Config.u32Max
  · rw [if_pos hmany] at hstep
    rw [buildBlob_capacityError b.rate hwh hall (.inl (by simp only [Config.u32Max] at *; omega)), builtAnswer]
    exact .of_raise hstep
  · rw [if_neg hmany] at hstep
    rw [builtAnswer_of_checked s.hnd b.rate hwh hall (by omega) rfl rfl rfl (by simpa [henc] using hlen) henc]
    refine .of_step hstep (building_encode_ends _ hw hf rfl he (hs.check_done hp hu hn (not_lt.mp hmany)) ?_)
    simp [henc]

/-- `CHECK` tests the dimensions, every frame and their number, and hands over to `ENCODE` (lines 1 to 3 of R191). -/
theorem building_check_ends (unchecked : List (List Pixel)) : ∀ {s : State} {b : Building}, s.Working →
    s.flight = .building b → s.ser.phase = .check → s.enc.st = .idle → s.ser.Inv s.operand.pixIn b →
    b.unchecked = unchecked →
    s.Ends (builtAnswer s.hnd (buildBlob s.operand.pixIn b.width b.height b.rate)) := by
  induction unchecked with
  | nil =>
    intro s b hw hf hp he hs hu
    by_cases hn : s.ser.npx = 0
    · exact building_zero_ends hw hf hp hs hn
    · exact building_checked_ends hw hf hp he hs hu hn
  | cons f rest ih =>
    intro s b hw hf hp he hs hu
    by_cases hn : s.ser.npx = 0
    · exact building_zero_ends hw hf hp hs hn
    have hstep := step_building hw hf
    simp only [stepBuilding, hp, if_neg hn, hu] at hstep
    by_cases hl : f.length ≠ s.ser.npx.toNat
    · obtain ⟨-, -, hnpx, hcheck, -⟩ := id hs
      obtain ⟨-, checked, hfr, -⟩ := hcheck hp
      rw [if_pos hl] at hstep
      rw [builtAnswer_of_dimensionError s.hnd b.rate (.inr ⟨f, by simp [hfr, hu], hnpx ▸ hl⟩)]
      exact .of_raise hstep
    · rw [if_neg hl] at hstep
      have hnext := hs.check_frame hp hu (not_not.mp hl)
      exact .of_step hstep (ih (b := { b with unchecked := rest }) hw rfl rfl he hnext rfl)

end Sys2Proof.Machine
end

section
/-! PROOFS. A command run by steps is answered as it is in one transition, and neither answer depends on the working
registers (O59). -/

namespace Sys2Proof.Machine

open Sys2Proof

variable {s : State}

/-- An operation has been started, or has ended at once, and its steps end with the answer `a`. -/
def StartedFor (s : State) (a : Answer) (o : Host.Outcome State Fault Refusal) : Prop :=
  ∃ t, o = .next t ∧ t.input = s.input ∧ t.Ends a

/-- A command refused at its start has ended (R93, R231). -/
theorem StartedFor.of_raise (c : Code) (s : State) : StartedFor s (.fault c s.hnd) (.next (raise c s)) :=
  ⟨_, rfl, raise_input .., .of_answered (by simpa using raise_answered c s)⟩

theorem startOp_encode (hw : s.Working) (hs : s.UnitsIdle) :
    StartedFor s (answer .encode s.operand s.hnd) (startOp .encode s) := by
  obtain ⟨hf, he, -⟩ := hs
  simp only [startOp, whenIdle_of_idle hf, withFrame, answer]
  rcases s.operand.pixIn with _ | ⟨f, _ | ⟨g, fs⟩⟩
  · exact .of_raise ..
  · exact ⟨_, rfl, rfl, encoding_ends hw rfl he⟩
  · exact .of_raise ..

theorem startOp_decode (n : U32) (hw : s.Working) (hs : s.UnitsIdle) (ho : s.operand.Presentable) :
    StartedFor s (answer (.decode n) s.operand s.hnd) (startOp (.decode n) s) := by
  obtain ⟨hf, -, hd, -⟩ := hs
  simp only [startOp, whenIdle_of_idle hf, withBytes, answer]
  rcases hb : s.operand.byteIn with _ | B
  · exact .of_raise ..
  · simp only [if_pos (ho B hb)]
    exact ⟨_, rfl, rfl, decoding_ends hw rfl hd (ho B hb)⟩

theorem startOp_build (width height rate : U16) (hw : s.Working) (hs : s.UnitsIdle) :
    StartedFor s (answer (.build width height rate) s.operand s.hnd) (startOp (.build width height rate) s) := by
  obtain ⟨hf, he, -⟩ := hs
  simp only [startOp, whenIdle_of_idle hf, answer]
  exact ⟨_, rfl, rfl, building_check_ends _ (b := ⟨width, height, rate, _, _, _, _, _, _⟩) hw rfl rfl he
    (Ser.inv_start width height rate _) rfl⟩

theorem startOp_openBlob (hw : s.Working) (hs : s.UnitsIdle) (ho : s.operand.Presentable) :
    StartedFor s (answer .openBlob s.operand s.hnd) (startOp .openBlob s) := by
  obtain ⟨hf, -⟩ := hs
  simp only [startOp, whenIdle_of_idle hf, withBytes, answer]
  rcases hb : s.operand.byteIn with _ | blob
  · exact .of_raise ..
  · simp only [if_pos (ho blob hb)]
    exact ⟨_, rfl, rfl, opening_ends hw rfl⟩

theorem startOp_frameat (index : U32) (hw : s.Working) (hs : s.UnitsIdle) :
    StartedFor s (answer (.frameat index) s.operand s.hnd) (startOp (.frameat index) s) := by
  obtain ⟨hf, -, hd, -⟩ := hs
  simp only [startOp, whenIdle_of_idle hf, answer]
  rcases hc : frameAtCheck s.hnd index with _ | c
  · rw [frameAnswer_of_check hc]
    exact ⟨_, rfl, rfl, seeking_start_ends hw rfl hd (dataLen_toNat s.hnd)⟩
  · simp only [frameAt, hc]
    exact .of_raise ..

/-- Every operation that is started by a command runs by its steps to its answer (R147, R175, R204). -/
theorem startOp_ends {i : Instr} (hi : i.format = .cmd) (hw : s.Working) (hs : s.UnitsIdle)
    (ho : s.operand.Presentable) : StartedFor s (answer i s.operand s.hnd) (startOp i s) := by
  cases i with
  | encode => exact startOp_encode hw hs
  | decode n => exact startOp_decode n hw hs ho
  | build width height rate => exact startOp_build width height rate hw hs
  | openBlob => exact startOp_openBlob hw hs ho
  | frameat index => exact startOp_frameat index hw hs
  | mark v => cases hi
  | run len => cases hi
  | hdr width height frameCount frameRate flags => cases hi
  | idx offset => cases hi

/-- A stepped command with a legal word is taken from the channel and started (log 2). -/
theorem step_stepped {r : Request} {later : List Input} {i : Instr} (hf : s.flight = .idle)
    (hin : s.input = .stepped r :: later) (hd : decodeCmd r.word = .ok i) :
    step s = startOp i (s.quiet.accept r later) := by
  have hdue : due s = none := by simp [due, hin, hf]
  rw [step_of_none hdue]
  simp [stepOther, hin, hf, hd]

theorem step_illegal_stepped {r : Request} {later : List Input} {e : DecodeError} (hf : s.flight = .idle)
    (hin : s.input = .stepped r :: later) (hd : decodeCmd r.word = .error e) :
    step s = .next (raise .commandError (s.quiet.accept r later)) := by
  have hdue : due s = none := by simp [due, hin, hf]
  rw [step_of_none hdue]
  simp [stepOther, hin, hf, hd]

/-- A stepped command is taken from the channel, and its steps end with its answer: the one it has in one transition
(`step_command_answered`), whatever the working registers hold. -/
theorem stepped_command_answered {r : Request} {later : List Input} (hs : s.UnitsIdle)
    (hin : s.input = .stepped r :: later) (hr : later.head? ≠ some .reset) (ho : r.operand.Presentable) :
    ∃ k t, core.run k s = .next t ∧ t.Answered (commandAnswer r s.hnd) later := by
  have hstart : StartedFor (s.quiet.accept r later) (commandAnswer r s.hnd) (step s) := by
    rcases hd : decodeCmd r.word with e | i
    · rw [step_illegal_stepped hs.1 hin hd, commandAnswer_error hd]
      exact .of_raise _ (s.quiet.accept r later)
    · rw [step_stepped hs.1 hin hd, commandAnswer_ok hd]
      exact startOp_ends (format_of_decodeCmd hd) ⟨hr, rfl⟩ hs ho
  obtain ⟨t, ht, hti, k, u, hrun, hu⟩ := hstart
  exact ⟨k + 1, u, (core_run_succ k ht).trans hrun, by rwa [hti] at hu⟩

/-- Settles O59: in one transition and by steps, from either state, the command ends with the one answer that the word,
the operand and the handle determine. -/
theorem workingRegistersAreNotReadBeforeWritten : Obligations.WorkingRegistersAreNotReadBeforeWritten := by
  intro s s' r later hi hi' hf hf' hh hr ho
  obtain ⟨u, hu, hau⟩ := step_command_answered (s := { s with input := .command r :: later }) hf rfl ho
  obtain ⟨u', hu', hau'⟩ := step_command_answered (s := { s' with input := .command r :: later }) hf' rfl ho
  obtain ⟨k, t, ht, hat⟩ :=
    stepped_command_answered (s := { s with input := .stepped r :: later }) (hi.unitsIdle hf) rfl hr ho
  obtain ⟨k', t', ht', hat'⟩ :=
    stepped_command_answered (s := { s' with input := .stepped r :: later }) (hi'.unitsIdle hf') rfl hr ho
  simp only [hh] at hau' hat'
  obtain ⟨-, hresp, -, -, hin, -⟩ := id hat
  exact ⟨u, u', hu, hu', hau.sameOutcome hau', k, k', t, t', ht, ht', hat.sameOutcome hat', hat.sameOutcome hau, hin,
    by simp [hresp]⟩

end Sys2Proof.Machine
end

section
/-! PROOFS. Byte order and the words of the spec (O1, O2), and the element a step runs inside an operation (O9). -/

namespace Sys2Proof

/-- Byte `k` of the little-endian form (R62). -/
theorem getElem?_leBytes (n v k : Nat) (hk : k < n) :
    (leBytes n v)[k]? = some (BitVec.ofNat 8 (v / 256 ^ k % 256)) := by
  induction n generalizing v k with
  | zero => omega
  | succ n ih =>
    cases k with
    | zero => simp [leBytes_succ]
    | succ k => rw [leBytes_succ, List.getElem?_cons_succ, ih _ _ (by omega), Nat.div_div_eq_div_mul, pow_succ']

/-- The value of bytes as the sum of R62. -/
theorem leValue_eq_sum (bs : List Byte) :
    leValue bs = ((List.range bs.length).map fun k => (bs.getD k 0).toNat * 256 ^ k).sum := by
  induction bs with
  | nil => rfl
  | cons b bs ih =>
    rw [leValue_cons, ih, List.length_cons, List.range_succ_eq_map, ← List.sum_map_mul_left]
    simp only [List.map_cons, List.map_map, List.sum_cons, Function.comp_def, List.getD_cons_zero, List.getD_cons_succ,
      pow_zero, Nat.mul_one, pow_succ', Nat.mul_left_comm]

/-- A value that fits is read back from the bytes it is stored in (R62). -/
theorem memRead_leBytes (A B : List Byte) {n v : Nat} (hv : v < 256 ^ n) :
    memRead (A ++ leBytes n v ++ B) A.length n = some v := by
  have h := memRead_append (A := A) (B := B) (F := leBytes n v)
  rwa [length_leBytes, leValue_leBytes, Nat.mod_eq_of_lt hv, ← List.append_assoc] at h

/-- Settles O1: each clause is its lemma, the second over the bytes of the slice that is read. -/
theorem littleEndianBytesAndValue : Obligations.LittleEndianBytesAndValue := by
  refine ⟨fun n v k => getElem?_leBytes n v k, fun S a n h => ?_, fun A B n v => memRead_leBytes A B⟩
  have hlen : ((S.drop a).take n).length = n := by simp; omega
  rw [memRead_of_le h, leValue_eq_sum, hlen]
  congr 2
  refine List.map_congr_left fun k hk => ?_
  have hk : k < n := List.mem_range.mp hk
  simp [List.getD_eq_getElem?_getD, List.getElem?_take_of_lt hk]

/-- Settles O2: the nine words are closed, and the decoder computes. -/
theorem wordsOfTheSpecDecode : Obligations.WordsOfTheSpecDecode := by
  unfold Obligations.WordsOfTheSpecDecode
  decide

end Sys2Proof

namespace Sys2Proof.Machine

open Sys2Proof

variable {s : State}

/-- Inside an operation a step runs the element or record that is due, from the state as it is but for the response of
the last step. -/
theorem step_of_due_busy {f : Format} {bs rest : List Byte} {i : Instr} (hf : s.flight ≠ .idle)
    (hd : due s = some (f, bs)) (hdec : decode f bs = .ok (i, rest)) :
    step s = exec i { s with response := none } := by
  rw [step_of_due hd hdec, dueState_of_flight (s := s.quiet) hf]
  rfl

/-- Settles O9: in each operation what the clause names is what is due. -/
theorem stepRunsTheDueElement : Obligations.StepRunsTheDueElement := by
  intro s hr
  refine ⟨?mark, ?run, ?hdr, ?idxStart, ?idxStop⟩
  case mark =>
    intro fa n slice out i rest hf hst hdec
    have hd : due s = some (.mark, slice) := by simp [due_of_not_reset hr, hf, hst]
    exact step_of_due_busy (by simp [hf]) hd hdec
  case run =>
    intro fa n slice out i rest hf hst hpos hdec
    have hd : due s = some (.run, slice.drop s.dec.pos.toNat) := by
      simp [due_of_not_reset hr, hf, hst, show 2 ≤ slice.length - s.dec.pos.toNat by omega]
    exact step_of_due_busy (by simp [hf]) hd hdec
  case hdr =>
    intro blob i rest hf hdec
    have hd : due s = some (.hdr, blob) := by simp [due_of_not_reset hr, hf]
    exact step_of_due_busy (by simp [hf]) hd hdec
  case idxStart =>
    intro index bs i rest hf hread hdec
    have hd : due s = some (.idx, bs) := by simp [due_of_not_reset hr, hf, dueEntry, entryAddr, hread]
    exact step_of_due_busy (by simp [hf]) hd hdec
  case idxStop =>
    intro index bs i rest hf hread hdec
    have hd : due s = some (.idx, bs) := by simp [due_of_not_reset hr, hf, dueEntry, entryAddr, hread]
    exact step_of_due_busy (by simp [hf]) hd hdec

end Sys2Proof.Machine
end

section
/-! PROOFS. The blob BUILD emits: when there is one, its index, its frame data, and the frames written into their ranges
in any order (O32). -/

namespace Sys2Proof.Machine

open Sys2Proof

variable {frames : List (List Pixel)} {w h r : U16} {blob : List Byte}

/-! ### The parts of a built blob -/

/-- BUILD gives a blob exactly for what it demands of its operands, and the blob is that of R99. -/
theorem buildBlob_eq_ok_iff :
    buildBlob frames w h r = .ok blob ↔ Buildable frames w h ∧ blob = blobOf frames w h r := by
  constructor
  · intro hb
    have hbuildable : Buildable frames w h := by
      by_cases hdim : w.toNat * h.toNat = 0 ∨ ∃ f ∈ frames, f.length ≠ w.toNat * h.toNat
      · cases (buildBlob_dimensionError r hdim).symm.trans hb
      · push Not at hdim
        obtain ⟨hwh, hall⟩ := hdim
        by_cases hcap : frames.length > 2 ^ 32 - 1 ∨ ((frames.map encodeFrame).flatten).length > 2 ^ 32 - 1
        · cases (buildBlob_capacityError r hwh hall hcap).symm.trans hb
        · push Not at hcap
          exact ⟨hwh, hall, hcap⟩
    exact ⟨hbuildable, Except.ok.inj (hb.symm.trans (buildBlob_of_buildable r hbuildable))⟩
  · rintro ⟨hbuildable, rfl⟩
    exact buildBlob_of_buildable r hbuildable

/-- The frame-data section: the encoded frames one after another (R68, R99). -/
abbrev frameData (frames : List (List Pixel)) : List Byte := (frames.map encodeFrame).flatten

@[simp] theorem length_builtHeader (w h r : U16) (n : Nat) : (builtHeader w h r n).length = 12 := by
  simp [builtHeader]

/-- A blob is its header, its index and its frame data (R90, R99). -/
theorem blobOf_eq_append (frames : List (List Pixel)) (w h r : U16) :
    blobOf frames w h r = builtHeader w h r frames.length ++
      (((List.range frames.length).map (frameOffset frames)).flatMap le32 ++ frameData frames) := by
  simp [blobOf, builtHeader, List.flatMap_map]

/-- Entry `i` of the index is the offset of frame `i` (R194). -/
theorem memRead_blobOf_entry (hb : Buildable frames w h) (r : U16) {i : Nat} (hi : i < frames.length) :
    memRead (blobOf frames w h r) (12 + 4 * i) 4 = some (frameOffset frames i) := by
  obtain ⟨-, -, -, htotal⟩ := hb
  have hoff : frameOffset frames i < 4294967296 := by
    rw [flatten_encoded_length] at htotal
    have := frameOffset_le frames i
    simp only [Config.u32Max] at htotal
    omega
  rw [blobOf_eq_append, ← length_builtHeader w h r frames.length]
  exact memRead_flatMap_le32 _ _ _ i _ (by simp [hi]) hoff

/-- After the header and the index stands the frame data (R68). -/
theorem drop_blobOf (frames : List (List Pixel)) (w h r : U16) :
    (blobOf frames w h r).drop (12 + 4 * frames.length) = frameData frames := by
  rw [blobOf_eq_append, ← List.append_assoc]
  refine List.drop_left' ?_
  rw [List.length_append, length_builtHeader, flatMap_le32_length, List.length_map, List.length_range]

/-! ### The range of a frame -/

/-- Byte `x` of the frame data is one of frame `i`'s. -/
def InFrame (frames : List (List Pixel)) (i x : Nat) : Prop :=
  frameOffset frames i ≤ x ∧ x < frameOffset frames i + (encodeFrame (frames.getD i [])).length

/-- The range of a frame ends where the next begins (R203). -/
theorem frameOffset_succ_getD {i : Nat} (hi : i < frames.length) :
    frameOffset frames (i + 1) = frameOffset frames i + (encodeFrame (frames.getD i [])).length :=
  frameOffset_succ frames i _ (by simp [hi])

/-- The frame data before frame `i` has the length its entry says. -/
theorem length_frameData_take (frames : List (List Pixel)) (i : Nat) :
    (frameData (frames.take i)).length = frameOffset frames i :=
  flatten_encoded_length _

/-- Inside the range of a frame the frame data holds the bytes of its encoding. -/
theorem InFrame.getElem?_frameData {i x : Nat} (hi : i < frames.length) (hx : InFrame frames i x) :
    (frameData frames)[x]? = (encodeFrame (frames.getD i []))[x - frameOffset frames i]? := by
  obtain ⟨hlo, hhi⟩ := hx
  have hsplit : frameData frames = frameData (frames.take i) ++
      (encodeFrame (frames.getD i []) ++ frameData (frames.drop (i + 1))) := by
    have hframes : frames = frames.take i ++ frames.getD i [] :: frames.drop (i + 1) := by simp [hi]
    conv_lhs => rw [hframes]
    simp only [frameData, List.map_append, List.map_cons, List.flatten_append, List.flatten_cons]
  rw [hsplit, List.getElem?_append_right (by rwa [length_frameData_take]), length_frameData_take,
    List.getElem?_append_left (by omega)]

/-- Every byte of the frame data is one of some frame's: the offsets rise from 0 to its length. -/
theorem exists_inFrame {n x : Nat} (hn : n ≤ frames.length) (hx : x < frameOffset frames n) :
    ∃ i < n, InFrame frames i x := by
  induction n with
  | zero => simp [frameOffset_zero] at hx
  | succ n ih =>
    by_cases hlt : x < frameOffset frames n
    · obtain ⟨i, hi, hin⟩ := ih (by omega) hlt
      exact ⟨i, by omega, hin⟩
    · exact ⟨n, by omega, not_lt.mp hlt, frameOffset_succ_getD hn ▸ hx⟩

/-! ### Writing the frames -/

/-- Frame `i` written at the offset of its entry (R205). -/
def writeFrame (frames : List (List Pixel)) (m : Memory) (i : Nat) : Memory :=
  Memory.writeBytes m (frameOffset frames i) (encodeFrame (frames.getD i []))

theorem writeFrame_wf {m : Memory} (hm : Memory.wf m = true) (i : Nat) : Memory.wf (writeFrame frames m i) = true :=
  Memory.writeBytes_wf _ _ hm

theorem writeFrames_wf (order : List Nat) : ∀ {m : Memory}, Memory.wf m = true →
    Memory.wf (order.foldl (writeFrame frames) m) = true := by
  induction order with
  | nil => exact id
  | cons i order ih => exact fun hm => ih (writeFrame_wf hm i)

/-- A written frame puts the bytes of the frame data into its range, and nothing elsewhere. -/
theorem read_writeFrame {m : Memory} (hm : Memory.wf m = true) {i : Nat} (hi : i < frames.length) (x : Nat) :
    (InFrame frames i x → Memory.read (writeFrame frames m i) x = (frameData frames)[x]?) ∧
      (¬ InFrame frames i x → Memory.read (writeFrame frames m i) x = Memory.read m x) := by
  rw [writeFrame, Memory.read_writeBytes _ _ _ _ hm]
  exact ⟨fun hx => (if_pos hx).trans (hx.getElem?_frameData hi).symm, fun hx => if_neg hx⟩

/-- Frames written in whatever order put the bytes of the frame data into the ranges of the frames written: every write
of a byte agrees with the frame data, so none undoes another. -/
theorem read_writeFrames (x : Nat) (order : List Nat) : ∀ {m : Memory}, Memory.wf m = true →
    (∀ i ∈ order, i < frames.length) →
    (∃ i ∈ order, InFrame frames i x) ∨ Memory.read m x = (frameData frames)[x]? →
    Memory.read (order.foldl (writeFrame frames) m) x = (frameData frames)[x]? := by
  induction order with
  | nil => simp
  | cons i order ih =>
    intro m hm hlt hx
    have hi := hlt i (by simp)
    obtain ⟨hin, hout⟩ := read_writeFrame hm hi x
    refine ih (writeFrame_wf hm i) (fun j hj => hlt j (by simp [hj])) ?_
    by_cases hix : InFrame frames i x
    · exact .inr (hin hix)
    · rw [hout hix]
      simpa [hix] using hx

/-- All frames, written in any order, are the frame data (R72, R75, R308). -/
theorem writeFrames_eq_load {order : List Nat} (ho : order.Perm (List.range frames.length)) :
    order.foldl (writeFrame frames) [] = Memory.load (frameData frames) := by
  have hmem (i : Nat) : i ∈ order ↔ i < frames.length := ho.mem_iff.trans List.mem_range
  refine canonicalMemoriesAreEqualWhenReadsAre _ _ (writeFrames_wf order rfl) (Memory.load_wf _) fun x => ?_
  rw [Memory.read_load]
  refine read_writeFrames x order rfl (fun i hi => (hmem i).mp hi) ?_
  by_cases hx : x < encodedTotal frames
  · obtain ⟨i, hi, hin⟩ := exists_inFrame le_rfl (frameOffset_length frames ▸ hx)
    exact .inl ⟨i, (hmem i).mpr hi, hin⟩
  · refine .inr (List.getElem?_eq_none ?_).symm
    rw [flatten_encoded_length]
    exact not_lt.mp hx

/-- Settles O32: the entries of the blob are the offsets of the frames, and what follows its index is the frame data. -/
theorem anyWriteOrderGivesTheFrameData : Obligations.AnyWriteOrderGivesTheFrameData := by
  intro frames w h r blob hb
  obtain ⟨hbuildable, rfl⟩ := buildBlob_eq_ok_iff.mp hb
  refine ⟨frameOffset frames, fun i hi => memRead_blobOf_entry hbuildable r hi, fun order ho => ?_⟩
  rw [drop_blobOf]
  exact writeFrames_eq_load ho

end Sys2Proof.Machine
end

section
/-! PROOFS. A command run by the steps of the units ends as it does in one transition (O58), whatever operand comes with
it: only DECODE and OPEN look at the byte sequence, and one that cannot be presented they do not run in either form. -/

namespace Sys2Proof.Machine

open Sys2Proof

variable {s u : State}

/-- What takes the byte sequence of its operand runs only where the sequence can be presented (R60, U20). -/
theorem presentable_of_withBytes {k : List Byte → Host.Outcome State Fault Refusal} (h : withBytes s k = .next u) :
    s.operand.Presentable := by
  intro B hB
  obtain ⟨b, hb, hl, -⟩ | ⟨hn, -⟩ := withBytes_next h
  · cases hb.symm.trans hB
    exact hl
  · cases hn.symm.trans hB

/-- An operation that runs meets any answer it is known to end with. -/
theorem answered_of_exec {i : Instr} {a : Answer} {later : List Input} (h : exec i s = .next u)
    (hex : ∃ t, exec i s = .next t ∧ t.Answered a later) : u.Answered a later := by
  obtain ⟨t, ht, ha⟩ := hex
  cases h.symm.trans ht
  exact ha

/-- What an operation does in one transition and what its steps do end with one answer. -/
theorem exec_and_startOp_end_alike {i : Instr} (hi : i.format = .cmd) (hw : s.Working) (hs : s.UnitsIdle)
    (h : exec i s = .next u) :
    u.Answered (answer i s.operand s.hnd) s.input ∧ StartedFor s (answer i s.operand s.hnd) (startOp i s) := by
  have of_presentable (ho : s.operand.Presentable) :
      u.Answered (answer i s.operand s.hnd) s.input ∧ StartedFor s (answer i s.operand s.hnd) (startOp i s) :=
    ⟨answered_of_exec h (exec_answered hi hs.1 ho), startOp_ends hi hw hs ho⟩
  cases i with
  | encode => exact ⟨answered_of_exec h (execEncode_answered hs.1), startOp_encode hw hs⟩
  | decode n => exact of_presentable (presentable_of_withBytes (whenIdle_next h).2)
  | build width height rate =>
    exact ⟨answered_of_exec h (execBuild_answered width height rate hs.1), startOp_build width height rate hw hs⟩
  | openBlob => exact of_presentable (presentable_of_withBytes (whenIdle_next h).2)
  | frameat index => exact ⟨answered_of_exec h (execFrameat_answered index hs.1), startOp_frameat index hw hs⟩
  | mark v => cases hi
  | run len => cases hi
  | hdr width height frameCount frameRate flags => cases hi
  | idx offset => cases hi

/-- The run of a stepped command: its start, and then the steps to its answer. -/
theorem run_of_started {r : Request} {later : List Input} {a : Answer}
    (h : StartedFor (s.quiet.accept r later) a (step s)) : ∃ k t, core.run k s = .next t ∧ t.Answered a later := by
  obtain ⟨t, ht, hin, k, u, hrun, hu⟩ := h
  exact ⟨k + 1, u, (core_run_succ k ht).trans hrun, by rwa [hin] at hu⟩

/-- A command that ends in one transition is answered there as it is by the steps it starts, both from the state that
has taken it from its channel; an illegal word is answered `CommandError` (R93). -/
theorem command_and_stepped_end_alike {r : Request} {later : List Input} (hs : s.UnitsIdle)
    (hr : later.head? ≠ some .reset) (h : step { s with input := .command r :: later } = .next u) :
    u.Answered (commandAnswer r s.hnd) later ∧
      StartedFor (s.quiet.accept r later) (commandAnswer r s.hnd) (step { s with input := .stepped r :: later }) := by
  rcases hd : decodeCmd r.word with e | i
  · rw [step_illegal_command (s := { s with input := .command r :: later }) hs.1 rfl hd] at h
    rw [step_illegal_stepped (s := { s with input := .stepped r :: later }) hs.1 rfl hd, commandAnswer_error hd]
    cases h
    exact ⟨raise_answered .commandError _, .of_raise .commandError (s.quiet.accept r later)⟩
  · rw [step_command (s := { s with input := .command r :: later }) hs.1 rfl hd] at h
    rw [step_stepped (s := { s with input := .stepped r :: later }) hs.1 rfl hd, commandAnswer_ok hd]
    exact exec_and_startOp_end_alike (s := s.quiet.accept r later) (format_of_decodeCmd hd) ⟨hr, rfl⟩ hs h

/-- Settles O58: the atomic command and the steps of the stepped one end with the same answer. -/
theorem steppedOperationEndsAsTheAtomicOne : Obligations.SteppedOperationEndsAsTheAtomicOne := by
  intro s u r later hi hf hr hstep
  obtain ⟨hu, hstart⟩ := command_and_stepped_end_alike (hi.unitsIdle hf) hr hstep
  obtain ⟨k, t, hrun, ht⟩ := run_of_started (s := { s with input := .stepped r :: later }) hstart
  exact ⟨k, t, hrun, ht.sameOutcome hu⟩

end Sys2Proof.Machine
end

section
/-! PROOFS. The decoder and the encoder are inverse to each other, format by format (O3 to O6). -/

namespace Sys2Proof

/-! ### The command word -/

/-- What the command decoder accepts, by the low bits of the word that are fixed for each operation (R91, R92). -/
theorem decodeCmd_eq_ok_iff {w : CmdWord} {i : Instr} : decodeCmd w = .ok i ↔
    (w.toNat = 1 ∧ i = .encode) ∨ (w.toNat % 2 ^ 32 = 2 ∧ i = .decode (CmdWord.a32 w)) ∨
      (w.toNat % 2 ^ 16 = 3 ∧ i = .build (CmdWord.lo w) (CmdWord.hi w) (CmdWord.rate w)) ∨
      (w.toNat = 4 ∧ i = .openBlob) ∨ (w.toNat % 2 ^ 32 = 5 ∧ i = .frameat (CmdWord.a32 w)) := by
  rw [decodeCmd_eq]
  constructor
  · intro h
    repeat' split at h
    all_goals cases h
    · exact .inl ⟨by omega, rfl⟩
    · exact .inr (.inl ⟨by omega, rfl⟩)
    · exact .inr (.inr (.inl ⟨by omega, rfl⟩))
    · exact .inr (.inr (.inr (.inl ⟨by omega, rfl⟩)))
    · exact .inr (.inr (.inr (.inr ⟨by omega, rfl⟩)))
  · rintro (⟨hw, rfl⟩ | ⟨hw, rfl⟩ | ⟨hw, rfl⟩ | ⟨hw, rfl⟩ | ⟨hw, rfl⟩)
    · rw [if_pos (by omega), if_pos (by omega)]
    · rw [if_neg (by omega), if_pos (by omega), if_pos (by omega)]
    · rw [if_neg (by omega), if_neg (by omega), if_pos (by omega), if_pos (by omega)]
    · rw [if_neg (by omega), if_neg (by omega), if_neg (by omega), if_pos (by omega), if_pos (by omega)]
    · rw [if_neg (by omega), if_neg (by omega), if_neg (by omega), if_neg (by omega), if_pos (by omega),
        if_pos (by omega)]

/-- A row whose mask is the `k` low bits is selected by the value of those bits (R92). -/
theorem CmdRow.selects_lowMask (mnemonic : String) (pattern w : CmdWord) {k : Nat} (hk : k ≤ 64) :
    (CmdRow.mk mnemonic (BitVec.ofNat 64 (2 ^ k - 1)) pattern).selects w = true ↔ w.toNat % 2 ^ k = pattern.toNat := by
  have hmask : 2 ^ k - 1 < 2 ^ 64 := by
    have := Nat.pow_le_pow_right (n := 2) (by omega) hk
    omega
  simp only [CmdRow.selects, beq_iff_eq, ← BitVec.toNat_inj, BitVec.toNat_and, BitVec.toNat_ofNat,
    Nat.mod_eq_of_lt hmask, Nat.and_two_pow_sub_one_eq_mod]

/-- Settles O3: each mask is a number of low bits, and those are the bits the decoder asks for. -/
theorem commandDecoderFollowsMaskAndMatch : Obligations.CommandDecoderFollowsMaskAndMatch := by
  intro w r hr
  have hw := w.isLt
  simp only [cmdTable, List.mem_cons, List.not_mem_nil, or_false] at hr
  obtain rfl | rfl | rfl | rfl | rfl := hr
  · refine (CmdRow.selects_lowMask _ _ w (k := 64) (by omega)).trans ?_
    simp [decodeCmd_eq_ok_iff, or_and_right, exists_or, Instr.mnemonic]
    omega
  · refine (CmdRow.selects_lowMask _ _ w (k := 32) (by omega)).trans ?_
    simp [decodeCmd_eq_ok_iff, or_and_right, exists_or, Instr.mnemonic]
  · refine (CmdRow.selects_lowMask _ _ w (k := 16) (by omega)).trans ?_
    simp [decodeCmd_eq_ok_iff, or_and_right, exists_or, Instr.mnemonic]
  · refine (CmdRow.selects_lowMask _ _ w (k := 64) (by omega)).trans ?_
    simp [decodeCmd_eq_ok_iff, or_and_right, exists_or, Instr.mnemonic]
    omega
  · refine (CmdRow.selects_lowMask _ _ w (k := 32) (by omega)).trans ?_
    simp [decodeCmd_eq_ok_iff, or_and_right, exists_or, Instr.mnemonic]

/-- Settles O4: the operands are the fields of the word, whose values are its slices. -/
theorem commandOperandsAreSlices : Obligations.CommandOperandsAreSlices := by
  refine ⟨fun w n h => ?_, fun w k h => ?_, fun w a b c h => ?_⟩
  · obtain ⟨-, rfl⟩ : _ ∧ n = CmdWord.a32 w := by simpa [decodeCmd_eq_ok_iff] using h
    exact CmdWord.a32_toNat w
  · obtain ⟨-, rfl⟩ : _ ∧ k = CmdWord.a32 w := by simpa [decodeCmd_eq_ok_iff] using h
    exact CmdWord.a32_toNat w
  · obtain ⟨-, rfl, rfl, rfl⟩ : _ ∧ a = CmdWord.lo w ∧ b = CmdWord.hi w ∧ c = CmdWord.rate w := by
      simpa [decodeCmd_eq_ok_iff] using h
    exact ⟨CmdWord.rate_toNat w, CmdWord.lo_toNat w, CmdWord.hi_toNat w⟩

/-- A 32-bit operand in the upper half of the word, as its two 16-bit fields (R91). -/
theorem cmdWord_a32_toNat (x : U32) (op : BitVec 3) :
    (cmdWord (x.extractLsb' 16 16) (x.extractLsb' 0 16) 0#16 op).toNat = op.toNat + 2 ^ 32 * x.toNat := by
  have hx := x.isLt
  simp [cmdWord_toNat, BitVec.extractLsb'_toNat, Nat.shiftRight_eq_div_pow]
  omega

/-- The command decoder accepts exactly the words of the operations (R92). -/
theorem decodeCmd_eq_ok_iff_encodeCmd {w : CmdWord} {i : Instr} :
    decodeCmd w = .ok i ↔ i.format = .cmd ∧ encodeCmd i = w := by
  have hw := w.isLt
  rw [decodeCmd_eq_ok_iff]
  cases i with
  | encode => simp [Instr.format, encodeCmd, ← BitVec.toNat_inj, cmdWord_toNat, eq_comm]
  | decode n =>
    simp [Instr.format, encodeCmd, ← BitVec.toNat_inj, cmdWord_a32_toNat, CmdWord.a32_toNat]
    omega
  | build a b c =>
    have ha := a.isLt; have hb := b.isLt; have hc := c.isLt
    simp [Instr.format, encodeCmd, ← BitVec.toNat_inj, cmdWord_toNat, CmdWord.lo_toNat, CmdWord.hi_toNat,
      CmdWord.rate_toNat]
    omega
  | openBlob => simp [Instr.format, encodeCmd, ← BitVec.toNat_inj, cmdWord_toNat, eq_comm]
  | frameat k =>
    simp [Instr.format, encodeCmd, ← BitVec.toNat_inj, cmdWord_a32_toNat, CmdWord.a32_toNat]
    omega
  | mark v => simp [Instr.format]
  | run len => simp [Instr.format]
  | hdr width height frameCount frameRate flags => simp [Instr.format]
  | idx offset => simp [Instr.format]

/-! ### The bytes of each format -/

/-- The number read from all the bytes it stands in, and the bytes written from it, determine each other (R62). -/
theorem ofNat_leValue_eq_iff {bs : List Byte} {n w : Nat} {x : BitVec w} (hl : bs.length = n) (hw : 256 ^ n = 2 ^ w) :
    BitVec.ofNat w (leValue bs) = x ↔ bs = leBytes n x.toNat := by
  constructor
  · rintro rfl
    subst hl
    rw [BitVec.toNat_ofNat, Nat.mod_eq_of_lt (hw ▸ leValue_lt bs), leBytes_leValue]
  · rintro rfl
    rw [leValue_leBytes, hw, Nat.mod_eq_of_lt x.isLt, BitVec.ofNat_toNat, BitVec.setWidth_eq]

theorem ofNat_leValue_eq_iff_le16 {bs : List Byte} {x : U16} (hl : bs.length = 2) :
    BitVec.ofNat 16 (leValue bs) = x ↔ bs = le16 x.toNat := ofNat_leValue_eq_iff hl (by decide)

theorem ofNat_leValue_eq_iff_le32 {bs : List Byte} {x : U32} (hl : bs.length = 4) :
    BitVec.ofNat 32 (leValue bs) = x ↔ bs = le32 x.toNat := ofNat_leValue_eq_iff hl (by decide)

/-- Twelve bytes hold the header whose bytes they are (R94). -/
theorem readHeader_eq_some_iff {bs : List Byte} {h : Header} (hl : bs.length = 12) :
    readHeader bs = some h ↔ bs = encodeHeader h := by
  match bs, hl with
  | [b0, b1, b2, b3, b4, b5, b6, b7, b8, b9, b10, b11], _ =>
    have hr : readHeader [b0, b1, b2, b3, b4, b5, b6, b7, b8, b9, b10, b11] =
        some ⟨BitVec.ofNat 16 (leValue [b0, b1]), BitVec.ofNat 16 (leValue [b2, b3]),
          BitVec.ofNat 32 (leValue [b4, b5, b6, b7]), BitVec.ofNat 16 (leValue [b8, b9]),
          BitVec.ofNat 16 (leValue [b10, b11])⟩ := rfl
    obtain ⟨width, height, frameCount, frameRate, flags⟩ := h
    rw [hr]
    simp [ofNat_leValue_eq_iff_le16, ofNat_leValue_eq_iff_le32, encodeHeader, le16, le32, leBytes_succ, and_assoc]

/-- One byte is a marker when it is the byte of a pixel (R101). -/
theorem decodeExact_mark {m : Byte} {i : Instr} :
    decodeExact .mark [m] = .ok i ↔ ∃ v, i = .mark v ∧ m = pixelByte v := by
  have hv : leValue [m] = m.toNat := by simp [leValue_cons]
  have h0 : m = pixelByte false ↔ m.toNat = 0 := BitVec.toNat_inj.symm
  have h1 : m = pixelByte true ↔ m.toNat = 1 := BitVec.toNat_inj.symm
  simp only [decodeExact, hv, Bool.exists_bool, h0, h1]
  split
  · simp [*, eq_comm]
  · split
    · simp [*, eq_comm]
    · simp [*]

/-- Twelve bytes are a HDR when they are those of a header with `flags = 0` (R94, R96). -/
theorem decodeExact_hdr {bs : List Byte} {i : Instr} (hl : bs.length = 12) :
    decodeExact .hdr bs = .ok i ↔ ∃ w h fc fr, i = .hdr w h fc fr 0 ∧ bs = encodeHeader ⟨w, h, fc, fr, 0⟩ := by
  obtain ⟨⟨width, height, frameCount, frameRate, flags⟩, hr⟩ :=
    Option.isSome_iff_exists.mp ((readHeader_isSome_iff bs).mpr hl.ge)
  simp only [decodeExact, hr, ← readHeader_eq_some_iff hl, Option.some.injEq, Header.mk.injEq]
  split
  · rename_i hfl
    simp [hfl]
    grind
  · rename_i hfl
    simp [show ¬ flags = 0#16 from hfl]

/-- Each format accepts, from the bytes it occupies, exactly the encodings of its well-formed instructions (R90). -/
theorem decodeExact_eq_ok_iff {f : Format} {bs : List Byte} {i : Instr} (hl : bs.length = f.bytes) :
    decodeExact f bs = .ok i ↔ i.format = f ∧ i.wf = true ∧ bs = encode i := by
  cases f with
  | cmd =>
    have hw : 256 ^ 8 = 2 ^ 64 := by decide
    simp only [decodeExact, decodeCmd_eq_ok_iff_encodeCmd]
    rw [eq_comm (a := encodeCmd i), ofNat_leValue_eq_iff hl hw]
    cases i <;> simp [Instr.format, Instr.wf, encode, Format.bytes]
  | mark =>
    obtain ⟨m, rfl⟩ := List.length_eq_one_iff.mp hl
    rw [decodeExact_mark]
    cases i <;> simp [Instr.format, Instr.wf, encode]
  | run =>
    simp only [decodeExact, Except.ok.injEq]
    cases i <;> simp [Instr.format, Instr.wf, encode, ofNat_leValue_eq_iff_le16 (bs := bs) hl]
  | hdr =>
    rw [decodeExact_hdr hl]
    cases i <;> simp [Instr.format, Instr.wf, encode]
    grind
  | idx =>
    simp only [decodeExact, Except.ok.injEq]
    cases i <;> simp [Instr.format, Instr.wf, encode, ofNat_leValue_eq_iff_le32 (bs := bs) hl]

/-- The encoding of an instruction has the length its format has (R90). -/
theorem length_encode (i : Instr) : (encode i).length = i.format.bytes := by
  cases i with
  | encode => exact Laws.EncodedLength.encode
  | decode n => exact Laws.EncodedLength.decode n
  | build width height frameRate => exact Laws.EncodedLength.build width height frameRate
  | openBlob => exact Laws.EncodedLength.openBlob
  | frameat index => exact Laws.EncodedLength.frameat index
  | mark v => exact Laws.EncodedLength.mark v
  | run len => exact Laws.EncodedLength.run len
  | hdr width height frameCount frameRate flags =>
    exact Laws.EncodedLength.hdr width height frameCount frameRate flags
  | idx offset => exact Laws.EncodedLength.idx offset

/-- The decoder cuts off the bytes the format occupies and reads exactly them (R90). -/
theorem decode_eq_ok_iff_decodeExact {f : Format} {bs rest : List Byte} {i : Instr} :
    decode f bs = .ok (i, rest) ↔ ∃ xs, bs = xs ++ rest ∧ xs.length = f.bytes ∧ decodeExact f xs = .ok i := by
  constructor
  · intro h
    unfold decode at h
    split at h
    · cases h
    · split at h
      · cases h
        exact ⟨bs.take f.bytes, (List.take_append_drop ..).symm, by simp; omega, ‹_›⟩
      · cases h
  · rintro ⟨xs, rfl, hl, hx⟩
    rw [decode, if_neg (by simp; omega), ← hl, List.take_left, List.drop_left, hx]

/-- The decoder accepts exactly the encodings of the well-formed instructions of the format, whatever follows them. -/
theorem decode_eq_ok_iff {f : Format} {bs rest : List Byte} {i : Instr} :
    decode f bs = .ok (i, rest) ↔ i.format = f ∧ i.wf = true ∧ bs = encode i ++ rest := by
  rw [decode_eq_ok_iff_decodeExact]
  constructor
  · rintro ⟨xs, rfl, hl, hx⟩
    obtain ⟨hf, hwf, rfl⟩ := (decodeExact_eq_ok_iff hl).mp hx
    exact ⟨hf, hwf, rfl⟩
  · rintro ⟨rfl, hwf, rfl⟩
    exact ⟨encode i, rfl, length_encode i, (decodeExact_eq_ok_iff (length_encode i)).mpr ⟨rfl, hwf, rfl⟩⟩

/-- Settles O5: one direction of what the decoder accepts. -/
theorem decodeInvertsEncode : Obligations.DecodeInvertsEncode :=
  fun _ _ hwf => decode_eq_ok_iff.mpr ⟨rfl, hwf, rfl⟩

/-- Settles O6: the other direction. -/
theorem encodeInvertsDecode : Obligations.EncodeInvertsDecode := fun _ _ _ _ h => decode_eq_ok_iff.mp h

end Sys2Proof
end

section
/-! PROOFS. Encoded frames in the canonical form of R105: the encodings of frames, one per frame (O15). -/

namespace Sys2Proof.Machine

open Sys2Proof

/-! ### Runs and groups -/

/-- Run lengths of at least 1, the values alternating, are the maximal runs of their pixels (R10). -/
theorem runLengthsFrom_expandFields (lengths : List Nat) : ∀ (v : Pixel) (c : Nat), (∀ L ∈ lengths, 1 ≤ L) →
    runLengthsFrom v c (expandFields (!v) lengths) = c :: lengths := by
  induction lengths with
  | nil => intro v c _; rfl
  | cons L lengths ih =>
    intro v c h
    obtain ⟨hL, hls⟩ := List.forall_mem_cons.mp h
    obtain ⟨k, rfl⟩ := Nat.exists_eq_add_of_le' hL
    rw [expandFields, List.replicate_succ, List.cons_append, runLengthsFrom, if_neg (by simp),
      runLengthsFrom_replicate, ih _ _ hls, Nat.add_comm]

/-- A marker and a group of fields per run is the encoding of the pixels of those runs (R105). -/
theorem encodeFrame_expandFields (v : Pixel) {lengths : List Nat} (hne : lengths ≠ []) (h : ∀ L ∈ lengths, 1 ≤ L) :
    encodeFrame (expandFields v lengths) = encodedFrame v (lengths.flatMap runGroup) := by
  obtain ⟨L, lengths, rfl⟩ := List.exists_cons_of_ne_nil hne
  obtain ⟨hL, hls⟩ := List.forall_mem_cons.mp h
  obtain ⟨k, rfl⟩ := Nat.exists_eq_add_of_le' hL
  rw [encodeFrame_eq_canonicalEncoding, expandFields, List.replicate_succ, List.cons_append, canonicalEncoding,
    runLengths, runLengthsFrom_replicate, runLengthsFrom_expandFields _ _ _ hls, Nat.add_comm]

/-- Every field of the groups of runs fits 16 bits. -/
theorem flatMap_runGroup_le {lengths : List Nat} (h : ∀ L ∈ lengths, 1 ≤ L) :
    ∀ f ∈ lengths.flatMap runGroup, f ≤ Config.runMax := by
  intro f hf
  obtain ⟨L, hL, hf⟩ := List.mem_flatMap.mp hf
  exact runGroup_le L (h L hL) f hf

/-- The first form of R105: an encoding is `00`, or a marker and a group of fields per run. -/
theorem exists_encodeFrame_eq_iff (B : List Byte) : (∃ F, encodeFrame F = B) ↔
    B = [0x00] ∨
      ∃ v lengths, lengths ≠ [] ∧ (∀ L ∈ lengths, 1 ≤ L) ∧ B = encodedFrame v (lengths.flatMap runGroup) := by
  constructor
  · rintro ⟨F, rfl⟩
    cases F with
    | nil => exact .inl rfl
    | cons p rest =>
      rw [encodeFrame_eq_canonicalEncoding]
      exact .inr ⟨p, runLengths (p :: rest), runLengthsFrom_ne_nil rest p 1, runLengthsFrom_pos rest p 1 le_rfl, rfl⟩
  · rintro (rfl | ⟨v, lengths, hne, h, rfl⟩)
    · exact ⟨[], rfl⟩
    · exact ⟨_, encodeFrame_expandFields v hne h⟩

/-! ### The second form of R105 -/

/-- The groups of runs keep the form of R105, after any field they may follow. -/
theorem canonicalFrom_flatMap_runGroup (lengths : List Nat) : ∀ prev, (lengths = [] → 1 ≤ prev) →
    (∀ L ∈ lengths, 1 ≤ L) → canonicalFrom prev (lengths.flatMap runGroup) = true := by
  induction lengths with
  | nil => intro prev hp _; simpa [canonicalFrom] using hp rfl
  | cons L lengths ih =>
    intro prev _ h
    obtain ⟨hL, h⟩ := List.forall_mem_cons.mp h
    rw [List.flatMap_cons, canonicalFrom_runGroup L hL]
    exact ih _ (fun _ => by omega) h

/-- Fields in the form of R105, the first at least 1, are the groups of some runs: a 0 joins the field before it to the
run that goes on after it, and every other field ends its run. -/
theorem exists_runs_of_canonicalFrom : ∀ (prev : Nat) (fields : List Nat), 1 ≤ prev →
    (∀ f ∈ prev :: fields, f ≤ Config.runMax) → canonicalFrom prev fields = true →
      ∃ L lengths, (∀ M ∈ L :: lengths, 1 ≤ M) ∧ prev :: fields = (L :: lengths).flatMap runGroup
  | prev, [], hp, hle, _ => ⟨prev, [], by simpa, by simp [runGroup_small hp (hle prev (by simp))]⟩
  | prev, (f + 1) :: fields, hp, hle, hc => by
    obtain ⟨hprev, hle⟩ := List.forall_mem_cons.mp hle
    have hc : canonicalFrom (f + 1) fields = true := by simpa [canonicalFrom] using hc
    obtain ⟨M, lengths, hpos, heq⟩ := exists_runs_of_canonicalFrom (f + 1) fields (by omega) hle hc
    refine ⟨prev, M :: lengths, List.forall_mem_cons.mpr ⟨hp, hpos⟩, ?_⟩
    rw [heq, List.flatMap_cons (x := prev), runGroup_small hp hprev]
    rfl
  | prev, [0], _, _, hc => by simp [canonicalFrom] at hc
  | prev, 0 :: g :: fields, hp, hle, hc => by
    have hle : ∀ f ∈ g :: fields, f ≤ Config.runMax := fun f hf => hle f (by simp [List.mem_cons.mp hf])
    obtain ⟨hprev, hg, hc⟩ : prev = Config.runMax ∧ 1 ≤ g ∧ canonicalFrom g fields = true := by
      simpa [canonicalFrom] using hc
    obtain ⟨M, lengths, hpos, heq⟩ := exists_runs_of_canonicalFrom g fields hg hle hc
    obtain ⟨hM, hls⟩ := List.forall_mem_cons.mp hpos
    refine ⟨M + Config.runMax, lengths, List.forall_mem_cons.mpr ⟨by omega, hls⟩, ?_⟩
    rw [hprev, heq, List.flatMap_cons, List.flatMap_cons, runGroup_big hM]
    rfl

/-- The two forms of R105 agree. -/
theorem canonical_iff_exists_encodeFrame (B : List Byte) : Canonical B ↔ ∃ F, encodeFrame F = B := by
  rw [exists_encodeFrame_eq_iff, Canonical]
  refine or_congr_right ⟨?_, ?_⟩
  · rintro ⟨v, _ | ⟨f, fields⟩, rfl, hle, hc⟩
    · simp [canonicalFrom] at hc
    · obtain ⟨hf, hc⟩ : 1 ≤ f ∧ canonicalFrom f fields = true := by simpa [canonicalFrom] using hc
      obtain ⟨L, lengths, hpos, heq⟩ := exists_runs_of_canonicalFrom f fields hf hle hc
      exact ⟨v, L :: lengths, by simp, hpos, congrArg _ heq⟩
  · rintro ⟨v, lengths, hne, h, rfl⟩
    exact ⟨v, _, rfl, flatMap_runGroup_le h, canonicalFrom_flatMap_runGroup lengths 0 (fun h => absurd h hne) h⟩

/-! ### One frame per encoding -/

/-- The encoding of a frame is a marker and fields that stand for its pixels. -/
theorem encodeFrame_eq_encodedFrame (F : List Pixel) :
    ∃ v fields, (∀ f ∈ fields, f ≤ 65535) ∧ encodeFrame F = encodedFrame v fields ∧ expandFields v fields = F := by
  cases F with
  | nil => exact ⟨false, [], by simp, rfl, rfl⟩
  | cons p rest =>
    rw [encodeFrame_eq_canonicalEncoding]
    exact ⟨p, _, flatMap_runGroup_le (runLengthsFrom_pos rest p 1 le_rfl), rfl, expandFields_runs rest p 1 le_rfl⟩

theorem pixelByte_injective : Function.Injective pixelByte := by
  unfold Function.Injective
  decide

/-- An encoded frame determines its marker and its fields (R100). -/
theorem encodedFrame_inj {v w : Pixel} {fs gs : List Nat} (hf : ∀ f ∈ fs, f ≤ 65535) (hg : ∀ g ∈ gs, g ≤ 65535)
    (h : encodedFrame v fs = encodedFrame w gs) : v = w ∧ fs = gs := by
  obtain ⟨hm, hb⟩ := List.cons_eq_cons.mp h
  exact ⟨pixelByte_injective hm, flatMap_le16_inj fs gs hf hg hb⟩

/-- Two frames never share an encoding. -/
theorem encodeFrame_injective : Function.Injective encodeFrame := by
  intro F G h
  obtain ⟨v, fs, hf, hF, rfl⟩ := encodeFrame_eq_encodedFrame F
  obtain ⟨w, gs, hg, hG, rfl⟩ := encodeFrame_eq_encodedFrame G
  obtain ⟨rfl, rfl⟩ := encodedFrame_inj hf hg (hF.symm.trans (h.trans hG))
  rfl

/-- Settles O15: the two forms of R105, and the fields of an encoding give its frame back. -/
theorem canonicalFramesAreTheEncoded : Obligations.CanonicalFramesAreTheEncoded :=
  ⟨exists_encodeFrame_eq_iff, canonical_iff_exists_encodeFrame, fun _ _ h => encodeFrame_injective h⟩

end Sys2Proof.Machine
end

section
/-! PROOFS. Illegal commands, ENCODE and DECODE, and the elements and records that complete (O10, O12, O19, O23, O24,
O35, O41). -/

namespace Sys2Proof.Machine

open Sys2Proof

variable {s : State}

/-! ### Illegal commands -/

/-- A word with an undefined `op`, or with a field not 0 that must be, is no command (R93). -/
theorem decodeCmd_illegal {w : CmdWord}
    (h : w.toNat % 8 = 0 ∨ w.toNat % 8 = 6 ∨ w.toNat % 8 = 7 ∨ w.toNat / 2 ^ 3 % 2 ^ 13 ≠ 0 ∨
      (w.toNat % 8 ≠ 3 ∧ w.toNat / 2 ^ 16 % 2 ^ 16 ≠ 0) ∨
      ((w.toNat % 8 = 1 ∨ w.toNat % 8 = 4) ∧ w.toNat / 2 ^ 32 ≠ 0)) : ∃ e, decodeCmd w = .error e := by
  rcases hd : decodeCmd w with e | i
  · exact ⟨e, rfl⟩
  · obtain ⟨hw, -⟩ | ⟨hw, -⟩ | ⟨hw, -⟩ | ⟨hw, -⟩ | ⟨hw, -⟩ := decodeCmd_eq_ok_iff.mp hd <;> omega

/-- ENCODE wants exactly one pixel sequence (R93). -/
theorem execEncode_of_length_ne (hs : s.UnitsIdle) (h : s.operand.pixIn.length ≠ 1) :
    execEncode s = .next (s.faulted .commandError) := by
  rw [execEncode, whenIdle_of_idle hs.1, ← raise_of_unitsIdle .commandError hs]
  unfold withFrame
  split
  · rename_i f hf
    simp [hf] at h
  · rfl

/-- DECODE wants a byte sequence (R93). -/
theorem execDecode_of_none (hs : s.UnitsIdle) (h : s.operand.byteIn = none) (n : U32) :
    execDecode n s = .next (s.faulted .commandError) := by
  simp [execDecode, whenIdle_of_idle hs.1, withBytes, h, raise_of_unitsIdle .commandError hs]

/-- OPEN wants a byte sequence (R93). -/
theorem execOpenBlob_of_none (hs : s.UnitsIdle) (h : s.operand.byteIn = none) :
    execOpenBlob s = .next (s.faulted .commandError) := by
  simp [execOpenBlob, whenIdle_of_idle hs.1, withBytes, h, raise_of_unitsIdle .commandError hs]

/-- Settles O10: an illegal word is an error of the command decoder, and a missing operand raises the same fault. -/
theorem illegalCommandsAnswerCommandError : Obligations.IllegalCommandsAnswerCommandError := by
  refine ⟨fun s r later hs hin hw => ?_, fun s hs => ⟨execEncode_of_length_ne hs, fun h =>
    ⟨execDecode_of_none hs h, execOpenBlob_of_none hs h⟩⟩⟩
  obtain ⟨e, he⟩ := decodeCmd_illegal hw
  have hs' : ({ s with input := later, operand := r.operand, response := none } : State).UnitsIdle := hs
  rw [step_illegal_command hs.1 hin he, raise_of_unitsIdle .commandError hs']
  rfl

/-! ### ENCODE and DECODE -/

/-- Settles O12: the scan emits the canonical encoding, and only `ENC` has been at work. -/
theorem encodeAnswersTheCanonicalEncoding : Obligations.EncodeAnswersTheCanonicalEncoding := by
  rintro s F ⟨hf, -, hd, hp⟩ hF
  obtain ⟨-, hdec, hser, hrdr, hhnd, -⟩ :=
    deliver_fields_of_idle (s := s.freeEnc) (.bytes (canonicalEncoding F)) hf
  refine ⟨deliver (.bytes (canonicalEncoding F)) s.freeEnc, ?_, deliver_endedFrom _ rfl, hhnd,
    hdec.trans (dec_st_idle_eq hd), hser.trans (ser_phase_idle_eq hp), hrdr⟩
  simp [exec, execEncode, whenIdle_of_idle hf, withFrame, hF, encodeFrame_eq_canonicalEncoding]

/-- Settles O19: whole fields that sum to `N` decode to their pixels, and only `DEC` has been at work. -/
theorem decodeAnswersThePixelsOfItsFields : Obligations.DecodeAnswersThePixelsOfItsFields := by
  rintro s n v fields ⟨hf, he, -, hp⟩ hB hlen hle hsum
  obtain ⟨henc, -, hser, hrdr, hhnd, -⟩ :=
    deliver_fields_of_idle (s := s.freeDec) (.pixels (expandFields v fields)) hf
  refine ⟨deliver (.pixels (expandFields v fields)) s.freeDec, ?_, deliver_endedFrom _ rfl,
    (expandFields_length v fields).trans hsum, hhnd, henc.trans (enc_st_idle_eq he),
    hser.trans (ser_phase_idle_eq hp), hrdr⟩
  simp only [exec, execDecode, whenIdle_of_idle hf, withBytes, hB,
    if_pos (show (encodedFrame v fields).length < Config.byteInLimit from hlen),
    decodeFrame_fields _ v fields hle hsum]

/-! ### MARK and RUN -/

/-- Settles O23. -/
theorem markSetsTheStartingValue : Obligations.MarkSetsTheStartingValue :=
  fun _ _ _ _ _ _ hf hst => execMark_of_marker hf hst

/-- Settles O24: the step of a RUN that fits, whose sums stay inside their registers. -/
theorem runAppendsAndFlips : Obligations.RunAppendsAndFlips := by
  intro s len fa n slice out hf hst hfits hpos
  have hn := s.dec.n.isLt
  have htotal : (s.dec.total + len.setWidth 32).toNat = s.dec.total.toNat + len.toNat := by
    rw [BitVec.toNat_add_of_lt] <;> rw [BitVec.toNat_setWidth_of_le (by omega)]
    omega
  have hnext : (s.dec.pos + 2).toNat = s.dec.pos.toNat + 2 := BitVec.toNat_add_of_lt hpos
  exact ⟨_, execRun_of_fits hf hst (by omega), rfl, htotal, rfl, hnext, hst, rfl, rfl, rfl, rfl, rfl, rfl, rfl, rfl,
    rfl⟩

/-! ### HDR -/

/-- HDR is the check and the commit of R221 on the blob of the OPEN in progress. -/
theorem execHdr_of_opening {w h : U16} {fc : U32} {fr fl : U16} {blob : List Byte} (hf : s.flight = .opening blob) :
    execHdr w h fc fr fl s = .next (admitHeader w h fc fr fl blob s) := by
  simp [execHdr, hf]

/-- What delivery leaves of the units when it ends an OPEN, which none of them has worked for (R2, R228). -/
theorem deliver_fields_of_opening {blob : List Byte} (r : Result) (h : s.flight = .opening blob) :
    (deliver r s).enc = { s.enc with st := .idle } ∧ (deliver r s).dec = { s.dec with st := .idle } ∧
      (deliver r s).ser = { s.ser with phase := .idle } ∧ (deliver r s).rdr = s.rdr := by
  simp [deliver, respond, State.release, h]

/-- Settles O35: legal fields are committed, and delivery finds every unit idle. -/
theorem hdrCommitsItsFields : Obligations.HdrCommitsItsFields := by
  intro s w h fc fr blob hf he hd hp hlen hidx hwh
  have hexec : exec (.hdr w h fc fr 0) s = .next (deliver .none { s with hnd := committed w h fc fr 0 blob }) := by
    refine (execHdr_of_opening hf).trans (congrArg _ ?_)
    obtain ⟨-, -, -, heq⟩ | ⟨hflags | hshort | hzero, -⟩ := admitHeader_cases w h fc fr 0 blob s
    · exact heq
    · exact absurd rfl hflags
    · omega
    · exact absurd hzero hwh
  obtain ⟨henc, hdec, hser, hrdr⟩ :=
    deliver_fields_of_opening (s := { s with hnd := committed w h fc fr 0 blob }) .none hf
  refine ⟨_, hexec, deliver_endedFrom _ rfl, by simp, ?_, henc.trans (enc_st_idle_eq he),
    hdec.trans (dec_st_idle_eq hd), hser.trans (ser_phase_idle_eq hp), hrdr⟩
  rw [deliver_hnd, BitVec.toNat_ofNat, Nat.mod_eq_of_lt hlen]

/-! ### IDX -/

/-- A range inside the frame-data section is handed to `DEC` (R235, R237). -/
theorem sliceFrame_of_some {slice : List Byte}
    (h : frameSlice s.hnd s.rdr.start.toNat s.rdr.stop.toNat = some slice) :
    sliceFrame s = { s with flight := .decoding true (BitVec.ofNat 32 (framePixels s.hnd)) slice [] } := by
  simp [sliceFrame, h]

/-- Settles O41: one clause per case of the meaning of IDX. -/
theorem idxGivesStartThenEnd : Obligations.IdxGivesStartThenEnd := by
  intro s k off
  have hoff : (off.setWidth 35).toNat = off.toNat := BitVec.toNat_setWidth_of_le (by omega)
  refine ⟨fun hf hk => ?_, fun slice hf hk hslice => ?_, fun slice hf hslice => ?_⟩
  · simp only [exec, execIdx, hf, if_pos hk]
  · simp only [exec, execIdx, hf, if_neg (show ¬ k.toNat + 1 < s.hnd.fcount.toNat by omega)]
    rw [sliceFrame_of_some (by rwa [hoff])]
    rfl
  · simp only [exec, execIdx, hf]
    rw [sliceFrame_of_some (by rwa [hoff])]
    rfl

end Sys2Proof.Machine
end

section
/-! PROOFS. The unit `ENC`: its steps by rule, the machine from `IDLE` to `DONE`, the parity of its fields, and the runs
and the length of what it emits (O13, O14, O16, O17, O18). -/

namespace Sys2Proof.Machine

open Sys2Proof

/-! ### The machine from `IDLE` to `DONE` -/

section Machine

variable {e e' : Enc} {F rest : List Pixel} {out B : List Byte}

/-- `ENC` ends only when every pixel is read: a `FLUSH` is final, and `DONE` reached, only where none is left (R138, R143,
R144). -/
def EncConsumed (e : Enc) (rest : List Pixel) : Prop :=
  e.st = .done ∨ (e.st = .flush ∧ e.fin = true) → rest = []

theorem encStep_consumed (h : EncConsumed e rest) (out : List Byte) :
    EncConsumed (encStep e rest out).1 (encStep e rest out).2.1 := by
  rcases e with ⟨st, val, cnt, nxt, fin⟩
  cases st with
  | idle => cases rest <;> simp [encStep, EncConsumed]
  | accumulating =>
    cases rest with
    | nil => simp [encStep, EncConsumed]
    | cons p rest => simp only [encStep]; split_ifs <;> simp [EncConsumed]
  | flush =>
    cases fin with
    | true => simpa [encStep, EncConsumed] using h
    | false => simp [encStep, EncConsumed]
  | overflowSplit => simp [encStep, EncConsumed]
  | done => exact h

theorem encMachine_consumed (he : e.st = .idle) (F : List Pixel) (k : Nat) :
    EncConsumed (encMachine e F k).1 (encMachine e F k).2.1 := by
  induction k with
  | zero => simp [encMachine, EncConsumed, he]
  | succ k ih => exact encStep_consumed ih _

/-- What `ENC` at work comes to emit, its machine has emitted after some number of steps. -/
theorem EncEmits.encMachine_done {k : Nat} (h : EncEmits e' rest out B) (hk : encMachine e F k = (e', rest, out)) :
    ∃ k' e'' rest', encMachine e F k' = (e'', rest', B) ∧ e''.st = .done := by
  induction h generalizing k with
  | done hst => exact ⟨k, _, _, hk, hst⟩
  | step _ _ _ ih => exact ih (k := k + 1) (by simp only [encMachine, hk])

/-- Settles O17: the machine comes to `DONE` with the encoding emitted, and there no pixel is left. -/
theorem encoderMachineEmitsEncode : Obligations.EncoderMachineEmitsEncode := by
  intro e F he
  obtain ⟨k, e', rest, hk, hdone⟩ := (encEmits_frame he F).encMachine_done (k := 1) rfl
  have hrest : rest = [] := by simpa [hk, EncConsumed, hdone] using encMachine_consumed he F k
  exact ⟨k, e', hrest ▸ hk, hdone⟩

/-! ### The parity of the fields -/

/-- The value of the run in hand and the fields emitted since the marker `p` (R148). -/
def FieldParity (p val : Pixel) (out : List Byte) : Prop :=
  ∃ fields, out = encodedFrame p fields ∧ (fields.length % 2 = 0 ↔ val = p)

/-- A field ends a run, and the next run has the other value. -/
theorem FieldParity.emit {p val nxt : Pixel} (h : FieldParity p val out) (hne : nxt ≠ val) (f : Nat) :
    FieldParity p nxt (out ++ le16 f) := by
  obtain ⟨fields, rfl, hpar⟩ := h
  obtain rfl : nxt = !val := Bool.eq_not.mpr hne
  refine ⟨fields ++ [f], by simp [encodedFrame], ?_⟩
  rw [Bool.not_eq_eq_eq_not, Bool.eq_not, ne_eq, ← hpar, List.length_append, List.length_singleton]
  omega

/-- The parity invariant of a frame with marker `p`, once the marker is emitted (R148). A `FLUSH` that is not final has
the first pixel of the next run in `ENC.nxt` (R142). -/
def EncParity (p : Pixel) (e : Enc) (out : List Byte) : Prop :=
  e.st ≠ .idle ∧ (e.st ≠ .done → FieldParity p e.val out) ∧ (e.st = .flush → e.fin = false → e.nxt ≠ e.val)

theorem encStep_parity {p : Pixel} (h : EncParity p e out) (rest : List Pixel) :
    EncParity p (encStep e rest out).1 (encStep e rest out).2.2 := by
  obtain ⟨hidle, hpar, hnxt⟩ := h
  rcases e with ⟨st, val, cnt, nxt, fin⟩
  cases st with
  | idle => exact absurd rfl hidle
  | accumulating =>
    have hpar : FieldParity p val out := hpar nofun
    cases rest with
    | nil => simpa [encStep, EncParity] using hpar
    | cons q rest =>
      simp only [encStep]
      split_ifs with hq
      · simpa [EncParity] using hpar
      · simpa [EncParity] using hpar
      · simpa [EncParity, hq] using hpar
  | flush =>
    cases fin with
    | true => simp [encStep, EncParity]
    | false => simpa [encStep, EncParity] using (hpar nofun).emit (hnxt rfl rfl) cnt.toNat
  | overflowSplit =>
    have hsplit := ((hpar nofun).emit (nxt := !val) (by simp) Config.runMax).emit (nxt := val) (by simp) 0
    simpa [encStep, EncParity] using hsplit
  | done => simp [encStep, EncParity]

theorem encMachine_parity (he : e.st = .idle) (p : Pixel) (rest : List Pixel) (k : Nat) :
    EncParity p (encMachine e (p :: rest) (k + 1)).1 (encMachine e (p :: rest) (k + 1)).2.2 := by
  induction k with
  | zero =>
    have hmarker : FieldParity p p [pixelByte p] := ⟨[], rfl, by simp⟩
    simpa [encMachine, encStep, he, EncParity] using hmarker
  | succ k ih => exact encStep_parity ih _

/-- Settles O18: only at the start is `ENC` `IDLE`. -/
theorem encoderParity : Obligations.EncoderParity := by
  intro e p rest k he hidle hdone
  cases k with
  | zero => exact absurd he hidle
  | succ k =>
    obtain ⟨-, hpar, -⟩ := encMachine_parity he p rest k
    exact hpar hdone

end Machine

/-! ### Runs and their fields -/

/-- The first `L` pixels, where a pixel of the other value follows, are the first maximal run (R10). -/
theorem runLengths_replicate_append (v : Pixel) {L : Nat} (h : 1 ≤ L) (rest : List Pixel) :
    runLengths (List.replicate L v ++ (!v) :: rest) = L :: runLengths ((!v) :: rest) := by
  obtain ⟨k, rfl⟩ := Nat.exists_eq_add_of_le' h
  rw [List.replicate_succ, List.cons_append, runLengths, runLengthsFrom_replicate, runLengthsFrom, if_neg (by simp),
    runLengths, Nat.add_comm]

/-- The encoding of a frame that starts with `v` (R105). -/
theorem encodeFrame_of_head {v : Pixel} {F : List Pixel} (h : F.head? = some v) :
    encodeFrame F = encodedFrame v ((runLengths F).flatMap runGroup) := by
  obtain ⟨rest, rfl⟩ := List.head?_eq_some_iff.mp h
  exact encodeFrame_eq_canonicalEncoding _

/-- Settles O13: a frame of one run, and a run before the rest of its frame. -/
theorem overflowSplitOnlyInsideARun : Obligations.OverflowSplitOnlyInsideARun := by
  intro v L hL
  have hhead (tail : List Pixel) : (List.replicate L v ++ tail).head? = some v := by
    simp [List.head?_replicate]; omega
  refine ⟨?_, fun rest => ?_⟩
  · simpa [expandFields] using encodeFrame_expandFields v (lengths := [L]) (by simp) (by simpa)
  · rw [encodeFrame_of_head (hhead _), runLengths_replicate_append v hL, encodeFrame_of_head (v := !v) rfl]
    simp [encodedFrame]

/-! ### The length of an encoding -/

theorem encodedFrame_length (v : Pixel) (fields : List Nat) :
    (encodedFrame v fields).length = 1 + 2 * fields.length := by
  rw [encodedFrame, List.length_cons, flatMap_le16_length, Nat.add_comm]

/-- The fields of runs, counted run by run (R146). -/
theorem flatMap_runGroup_length {lengths : List Nat} (h : ∀ L ∈ lengths, 1 ≤ L) :
    (lengths.flatMap runGroup).length = (lengths.map fun L => 2 * ceilRun L - 1).sum := by
  rw [List.length_flatMap, List.map_congr_left fun L hL => runGroup_length L (h L hL)]

/-- A run has at least one field, and no more fields than pixels (R146). -/
theorem fieldCount_bounds {L : Nat} (h : 1 ≤ L) : 1 ≤ 2 * ceilRun L - 1 ∧ 2 * ceilRun L - 1 ≤ L := by
  simp only [ceilRun, Config.runMax]
  omega

/-- The fields of runs are at least as many as the runs, and no more than their pixels (R146). -/
theorem fieldCount_sum_bounds {lengths : List Nat} (h : ∀ L ∈ lengths, 1 ≤ L) :
    lengths.length ≤ (lengths.map fun L => 2 * ceilRun L - 1).sum ∧
      (lengths.map fun L => 2 * ceilRun L - 1).sum ≤ lengths.sum := by
  induction lengths with
  | nil => simp
  | cons L lengths ih =>
    obtain ⟨hL, hls⟩ := List.forall_mem_cons.mp h
    obtain ⟨hlow, hhigh⟩ := fieldCount_bounds hL
    obtain ⟨ihlow, ihhigh⟩ := ih hls
    simp only [List.length_cons, List.map_cons, List.sum_cons]
    omega

/-- Settles O14: a marker of one byte and fields of two, at least one field and no more fields than pixels. -/
theorem encodedLengthFromRuns : Obligations.EncodedLengthFromRuns := by
  refine ⟨rfl, fun F hF => ?_⟩
  obtain ⟨p, rest, rfl⟩ := List.exists_cons_of_ne_nil hF
  have hpos : ∀ L ∈ runLengths (p :: rest), 1 ≤ L := runLengthsFrom_pos rest p 1 le_rfl
  have hsum : (runLengths (p :: rest)).sum = 1 + rest.length := runLengthsFrom_sum rest p 1
  have hruns : 0 < (runLengths (p :: rest)).length := List.length_pos_iff.mpr (runLengthsFrom_ne_nil rest p 1)
  have hlen : (encodeFrame (p :: rest)).length =
      1 + 2 * ((runLengths (p :: rest)).map fun L => 2 * ceilRun L - 1).sum := by
    rw [encodeFrame_of_head (v := p) rfl, encodedFrame_length, flatMap_runGroup_length hpos]
  obtain ⟨hlow, hhigh⟩ := fieldCount_sum_bounds hpos
  refine ⟨hlen, ?_⟩
  rw [hlen, List.length_cons]
  omega

/-! ### One step inside an operation -/

/-- A step of an ENCODE that is not done is a step of `ENC`, and no other part of the block takes part in it (R137). -/
theorem step_eq_of_encStep {s : State} {rest rest' : List Pixel} {out out' : List Byte} {e' : Enc}
    {st : EncSt} (hf : s.flight = .encoding rest out) (hr : s.input.head? ≠ some .reset) (hst : s.enc.st = st)
    (hne : st ≠ .done) (h : encStep s.enc rest out = (e', rest', out')) :
    step s = .next { s.quiet with enc := e', flight := .encoding rest' out' } := by
  rw [← step_quiet, step_encoding (s := s.quiet) ⟨hr, rfl⟩ hf, stepEncoding_of_not_done (s := s.quiet) (hst ▸ hne)]
  simp only [State.quiet, h]

/-- Settles O16: each clause is one equation of the machine of `ENC`. -/
theorem encoderStepsFollowTheirRules : Obligations.EncoderStepsFollowTheirRules := by
  intro s rest out hf hr
  refine ⟨?_, ?_, ?_, ?_, ?_, ?_, ?_, ?_, ?_⟩
  · rintro hst rfl
    exact step_eq_of_encStep hf hr hst nofun (by simp [encStep, hst])
  · rintro p rest' hst rfl
    exact step_eq_of_encStep hf hr hst nofun (by simp [encStep, hst, pixelByte])
  · rintro p rest' hst rfl hp hc
    exact step_eq_of_encStep hf hr hst nofun (by simp [encStep, hst, hp, hc, Config.runMax])
  · rintro p rest' hst rfl hp hc
    exact step_eq_of_encStep hf hr hst nofun (by simp [encStep, hst, hp, hc, Config.runMax])
  · rintro p rest' hst rfl hp
    exact step_eq_of_encStep hf hr hst nofun (by simp [encStep, hst, hp])
  · rintro hst rfl
    exact step_eq_of_encStep hf hr hst nofun (by simp [encStep, hst])
  · intro hst hfin
    exact step_eq_of_encStep hf hr hst nofun (by simp [encStep, hst, hfin])
  · intro hst hfin
    exact step_eq_of_encStep hf hr hst nofun (by simp [encStep, hst, hfin])
  · intro hst
    exact step_eq_of_encStep hf hr hst nofun (by simp [encStep, hst, le16, leBytes_succ, Config.runMax])

end Sys2Proof.Machine
end

section
/-! PROOFS. The unit `DEC` and the law of the two codecs: the steps of `DEC` by rule, its machine within its bound, the
slices that decode, and the round trips (O20, O21, O22, O25, O26, O54, O55). -/

namespace Sys2Proof.Machine

open Sys2Proof

/-! ### One step of a decode -/

section Step

variable {s : State} {fa : Bool} {n : U32} {slice : List Byte} {px : List Pixel}

/-- The start of a decode (R171). -/
theorem step_decoding_idle (hw : s.Working) (hf : s.flight = .decoding fa n slice px) (hst : s.dec.st = .idle) :
    step s = .next { s with dec := { s.dec with n := n, total := 0, pos := 0, st := .marker } } := by
  rw [step_decoding hw hf (by simp [due_of_not_reset hw.1, hf, hst])]
  simp only [stepDecoding, hst]

theorem due_marker (hw : s.Working) (hf : s.flight = .decoding fa n slice px) (hst : s.dec.st = .marker) :
    due s = some (.mark, slice) := by
  simp [due_of_not_reset hw.1, hf, hst]

/-- A slice that has no byte, or no marker at its head, is refused (R162, R163, R172). -/
theorem step_marker_illegal (hw : s.Working) (hf : s.flight = .decoding fa n slice px) (hst : s.dec.st = .marker)
    (h : ∀ m, slice.head? = some m → m.toNat > 1) : step s = .next (raise .formatError s) := by
  have hbusy : s.flight ≠ .idle := by simp [hf]
  cases slice with
  | nil => exact hw.step_illegal hbusy (due_marker hw hf hst) rfl
  | cons m rest =>
    exact hw.step_illegal hbusy (due_marker hw hf hst) ((decode_mark m rest).trans (if_pos (h m rfl)))

/-- A marker sets the starting value (R172). -/
theorem step_marker {m : Byte} (hw : s.Working) (hf : s.flight = .decoding fa n slice px) (hst : s.dec.st = .marker)
    (hhead : slice.head? = some m) (hm : m.toNat ≤ 1) :
    step s = .next { s with dec := { s.dec with cur := m.getLsbD 0, pos := 1, st := .runs } } := by
  obtain ⟨rest, rfl⟩ := List.head?_eq_some_iff.mp hhead
  have hdec := (decode_mark m rest).trans (if_neg (not_lt.mpr hm))
  exact (hw.step_due (by simp [hf]) (due_marker hw hf hst) hdec).trans (execMark_of_marker hf hst)

/-- A field is read as its number. -/
theorem ofNat_leValue_pair_toNat (l h : Byte) : (BitVec.ofNat 16 (leValue [l, h])).toNat = leValue [l, h] := by
  rw [BitVec.toNat_ofNat]
  exact Nat.mod_eq_of_lt (leValue_pair_lt l h)

theorem ofNat_leValue_pair_setWidth (l h : Byte) :
    (BitVec.ofNat 16 (leValue [l, h])).setWidth 32 = BitVec.ofNat 32 (leValue [l, h]) := by
  rw [← BitVec.ofNat_toNat, ofNat_leValue_pair_toNat]

/-- A field of more pixels than are wanted is refused (R166, R173). -/
theorem step_run_over {l h : Byte} {rest : List Byte} (hw : s.Working) (hf : s.flight = .decoding fa n slice px)
    (hst : s.dec.st = .runs) (hbs : slice.drop s.dec.pos.toNat = l :: h :: rest)
    (hover : leValue [l, h] > s.dec.n.toNat - s.dec.total.toNat) : step s = .next (raise .formatError s) :=
  (step_run hw hf hst hbs).trans (execRun_of_over hf hst (by rwa [ofNat_leValue_pair_toNat]))

/-- A field of no more pixels than are wanted appends them (R173). -/
theorem step_run_fits {l h : Byte} {rest : List Byte} (hw : s.Working) (hf : s.flight = .decoding fa n slice px)
    (hst : s.dec.st = .runs) (hbs : slice.drop s.dec.pos.toNat = l :: h :: rest)
    (hfits : leValue [l, h] ≤ s.dec.n.toNat - s.dec.total.toNat) :
    step s = .next { s with
      dec := { s.dec with
        cur := !s.dec.cur, total := s.dec.total + BitVec.ofNat 32 (leValue [l, h]), pos := s.dec.pos + 2 }
      flight := .decoding fa n slice (px ++ List.replicate (leValue [l, h]) s.dec.cur) } := by
  rw [step_run hw hf hst hbs, execRun_of_fits hf hst (by rwa [ofNat_leValue_pair_toNat]),
    ofNat_leValue_pair_setWidth, ofNat_leValue_pair_toNat]

/-- With fewer than two bytes left no field is due (R174). -/
theorem step_runs_end (hw : s.Working) (hf : s.flight = .decoding fa n slice px) (hst : s.dec.st = .runs)
    (hl : slice.length - s.dec.pos.toNat < 2) :
    step s = .next (if slice.length - s.dec.pos.toNat = 1 ∨ s.dec.total ≠ s.dec.n then raise .formatError s
      else { s with dec := { s.dec with st := .done } }) := by
  rw [step_decoding hw hf (by simpa [due_of_not_reset hw.1, hf, hst] using hl)]
  simp only [stepDecoding, hst, ite_or]

/-- `DEC` at `DONE` delivers (R174). -/
theorem step_decoding_done (hw : s.Working) (hf : s.flight = .decoding fa n slice px) (hst : s.dec.st = .done) :
    step s = .next (deliver (.pixels px) s) := by
  rw [step_decoding hw hf (by simp [due_of_not_reset hw.1, hf, hst])]
  simp only [stepDecoding, hst]

end Step

/-- A field that is read is the two bytes at its place. -/
theorem drop_of_memRead_two {B : List Byte} {a len : Nat} (h : memRead B a 2 = some len) :
    ∃ l h rest, B.drop a = l :: h :: rest ∧ len = leValue [l, h] := by
  by_cases hle : a + 2 ≤ B.length
  · rw [memRead_of_le hle] at h
    have hlen : (B.drop a).length = B.length - a := List.length_drop
    match hd : B.drop a, hlen with
    | l :: h' :: rest, _ => exact ⟨l, h', rest, rfl, by simpa [hd, eq_comm] using h⟩
    | [], hlen => simp at hlen; omega
    | [_], hlen => simp at hlen; omega
  · rw [memRead_of_lt (not_le.mp hle)] at h
    cases h

/-- Settles O22: each clause is one step of a decode from which the last response is gone. -/
theorem decoderStepsFollowTheirRules : Obligations.DecoderStepsFollowTheirRules := by
  intro s fa n B out hf hr
  have hw : s.quiet.Working := ⟨hr, rfl⟩
  have hraise : step s.quiet = .next (raise .formatError s.quiet) →
      ∃ t, step s = .next t ∧ t.EndedFrom s .formatError .none ∧ t.hnd = s.hnd :=
    fun h => ⟨_, h, raise_endedFrom _ rfl, raise_hnd ..⟩
  refine ⟨?_, ?_, ?_, ?_, ?_, ?_, ?_, ?_, ?_⟩
  · exact fun hst => step_decoding_idle hw hf hst
  · exact fun hst hm => hraise (step_marker_illegal hw hf hst hm)
  · exact fun m hst hhead hm => step_marker hw hf hst hhead hm
  · intro len hst hread hover
    obtain ⟨l, h, rest, hbs, rfl⟩ := drop_of_memRead_two hread
    exact hraise (step_run_over hw hf hst hbs hover)
  · intro len hst hread hfits
    obtain ⟨l, h, rest, hbs, rfl⟩ := drop_of_memRead_two hread
    exact step_run_fits hw hf hst hbs hfits
  · intro hst h1
    exact hraise ((step_runs_end hw hf hst (by simp [h1])).trans (by rw [if_pos (.inl h1)]))
  · intro hst h0 hne
    exact hraise ((step_runs_end hw hf hst (by simp [h0])).trans (by rw [if_pos (.inr hne)]))
  · intro hst h0 heq
    refine (step_runs_end hw hf hst (by simp [h0])).trans ?_
    rw [if_neg (by simp [h0, heq])]
    rfl
  · exact fun hst => ⟨_, step_decoding_done (s := s.quiet) hw hf hst, deliver_endedFrom _ rfl, deliver_hnd ..⟩

/-- Settles O25: RUN past the count raises, and a fault leaves the handle. -/
theorem runPastTheCountRaisesFormatError : Obligations.RunPastTheCountRaisesFormatError :=
  fun _ _ _ _ _ _ hf hst _ hover => ⟨_, execRun_of_over hf hst hover, raise_endedFrom _ rfl, raise_hnd ..⟩

/-! ### The machine from `IDLE` to its answer -/

/-- What the rest of a decode of `slice` with count `n` appends, or that it faults, from where `DEC` stands (R161). -/
def Dec.remaining (d : Dec) (n : U32) (slice : List Byte) : Option (List Pixel) :=
  match d.st with
  | .idle | .marker => decodeFrame slice n.toNat
  | .runs => decodeRuns n.toNat d.cur d.total.toNat (slice.drop d.pos.toNat)
  | .done => some []

/-- The number of steps that the rest of a decode may take, its delivery among them (R170). -/
def Dec.stepsLeft (d : Dec) (slice : List Byte) : Nat :=
  match d.st with
  | .idle => (slice.length + 5) / 2 + 1
  | .marker => (slice.length + 3) / 2 + 1
  | .runs => (slice.length - d.pos.toNat) / 2 + 2
  | .done => 1

/-- A decode is in progress that will answer `r` within `k` steps, its registers in the loop invariants of R161. -/
def State.Decoding (s : State) (n : U32) (slice : List Byte) (r : Option (List Pixel)) (k : Nat) : Prop :=
  ∃ fa px, s.flight = .decoding fa n slice px ∧ s.dec.Inv n slice px ∧
    (s.dec.remaining n slice).map (px ++ ·) = r ∧ s.dec.stepsLeft slice ≤ k

/-- One step brings the decode to its answer, or leaves it in progress with one step fewer to go. -/
def State.DecodingAdvances (s : State) (n : U32) (slice : List Byte) (r : Option (List Pixel)) (k : Nat) : Prop :=
  ∃ t, step s = .next t ∧ (t.Answered (decodedAnswer s.hnd r) s.input ∨
    t.Working ∧ t.input = s.input ∧ t.hnd = s.hnd ∧ t.Decoding n slice r k)

section Machine

variable {s : State} {fa : Bool} {n : U32} {slice : List Byte} {px : List Pixel} {r : Option (List Pixel)} {k : Nat}

theorem State.DecodingAdvances.of_raise (h : step s = .next (raise .formatError s)) :
    s.DecodingAdvances n slice none k :=
  ⟨_, h, .inl (raise_answered .formatError s)⟩

/-- A decode, whatever it answers, leaves the handle (R169). -/
theorem decodedAnswer_hnd (h : Handle) (r : Option (List Pixel)) : (decodedAnswer h r).hnd = h := by
  cases r <;> rfl

/-- A field that is read and fits keeps the loop invariants of R161 (R173). -/
theorem Dec.Inv.run_field {d : Dec} {l h : Byte} (hi : d.Inv n slice px) (hst : d.st = .runs)
    (hl : slice.length < Config.byteInLimit) (h2 : 2 ≤ slice.length - d.pos.toNat)
    (hfits : leValue [l, h] ≤ d.n.toNat - d.total.toNat) :
    Dec.Inv { d with cur := !d.cur, total := d.total + BitVec.ofNat 32 (leValue [l, h]), pos := d.pos + 2 } n slice
      (px ++ List.replicate (leValue [l, h]) d.cur) := by
  have hrun := hi.run hst hl h2 (len := BitVec.ofNat 16 (leValue [l, h])) (by rwa [ofNat_leValue_pair_toNat])
  rwa [ofNat_leValue_pair_setWidth, ofNat_leValue_pair_toNat] at hrun

theorem decodeFrame_of_marker_illegal (h : ∀ m, slice.head? = some m → m.toNat > 1) (n : Nat) :
    decodeFrame slice n = none := by
  cases slice with
  | nil => rfl
  | cons m rest => exact if_pos (h m rfl)

/-- `MARKER` reads lines 2 to 4 of R161 (R172). -/
theorem decodingAdvances_of_marker (hw : s.Working) (hf : s.flight = .decoding fa n slice px)
    (hi : s.dec.Inv n slice px) (hst : s.dec.st = .marker) (hk : (slice.length + 3) / 2 ≤ k) :
    s.DecodingAdvances n slice ((decodeFrame slice n.toNat).map (px ++ ·)) k := by
  by_cases hm : ∃ m, slice.head? = some m ∧ m.toNat ≤ 1
  · obtain ⟨m, hhead, hm⟩ := hm
    have hmark := hi.mark hst (hhead.trans (congrArg some (eq_pixelByte_of_le_one hm)))
    refine ⟨_, step_marker hw hf hst hhead hm, .inr ⟨hw, rfl, rfl, fa, px, hf, hmark, ?_, ?_⟩⟩
    · obtain ⟨rest, rfl⟩ := List.head?_eq_some_iff.mp hhead
      simp only [Dec.Inv, hst] at hi
      obtain ⟨-, -, htotal, -⟩ := hi
      simp [Dec.remaining, decodeFrame, htotal, not_lt.mpr hm]
    · have hlen : 1 ≤ slice.length := List.length_pos_of_mem (List.mem_of_head? hhead)
      have hpos : (1 : BitVec 35).toNat = 1 := rfl
      simp only [Dec.stepsLeft, hpos]
      omega
  · have hm : ∀ m, slice.head? = some m → m.toNat > 1 := fun m hhead => not_le.mp fun h => hm ⟨m, hhead, h⟩
    rw [decodeFrame_of_marker_illegal hm]
    exact .of_raise (step_marker_illegal hw hf hst hm)

/-- `RUNS` reads the field that is there, or ends the loop of R161 (R173, R174). -/
theorem decodingAdvances_of_runs (hw : s.Working) (hf : s.flight = .decoding fa n slice px)
    (hi : s.dec.Inv n slice px) (hst : s.dec.st = .runs) (hl : slice.length < Config.byteInLimit)
    (hk : (slice.length - s.dec.pos.toNat) / 2 + 1 ≤ k) :
    s.DecodingAdvances n slice ((s.dec.remaining n slice).map (px ++ ·)) k := by
  obtain ⟨hn, htotal, hle, -⟩ := by simpa only [Dec.Inv, hst] using hi
  have hlen : (slice.drop s.dec.pos.toNat).length = slice.length - s.dec.pos.toNat := List.length_drop
  simp only [Dec.remaining, hst]
  match hbs : slice.drop s.dec.pos.toNat with
  | [] =>
    have h0 : slice.length - s.dec.pos.toNat = 0 := by simpa [hbs] using hlen.symm
    have hstep := step_runs_end hw hf hst (by omega)
    by_cases heq : s.dec.total = s.dec.n
    · rw [if_neg (by simp [h0, heq])] at hstep
      refine ⟨_, hstep, .inr ⟨hw, rfl, rfl, fa, px, hf, hi.finish hst (by omega) (by omega) heq, ?_, ?_⟩⟩
      · simp [Dec.remaining, decodeRuns, heq, hn]
      · simp only [Dec.stepsLeft]
        omega
    · have hne : s.dec.total.toNat ≠ n.toNat := fun h => heq (hn ▸ BitVec.eq_of_toNat_eq h)
      rw [if_pos (.inr heq)] at hstep
      simpa only [decodeRuns, if_neg hne] using .of_raise hstep
  | [_] =>
    have h1 : slice.length - s.dec.pos.toNat = 1 := by simpa [hbs] using hlen.symm
    have hstep := step_runs_end hw hf hst (by omega)
    rw [if_pos (.inl h1)] at hstep
    simpa only [decodeRuns] using .of_raise hstep
  | l :: h :: rest =>
    have hleft : slice.length - s.dec.pos.toNat = rest.length + 2 := by simpa [hbs] using hlen.symm
    rw [decodeRuns]
    by_cases hover : leValue [l, h] > n.toNat - s.dec.total.toNat
    · rw [if_pos hover]
      exact .of_raise (step_run_over hw hf hst hbs (by rwa [hn]))
    · have hfits : leValue [l, h] ≤ s.dec.n.toNat - s.dec.total.toNat := by rw [hn]; omega
      have hpos : (s.dec.pos + 2).toNat = s.dec.pos.toNat + 2 := by
        simp only [Config.byteInLimit] at hl; bv_omega
      have hsum : (s.dec.total + BitVec.ofNat 32 (leValue [l, h])).toNat = s.dec.total.toNat + leValue [l, h] := by
        have := n.isLt
        rw [BitVec.toNat_add, BitVec.toNat_ofNat]; omega
      have hdrop : slice.drop (s.dec.pos.toNat + 2) = rest := by rw [← List.drop_drop, hbs]; rfl
      refine ⟨_, step_run_fits hw hf hst hbs hfits, .inr ⟨hw, rfl, rfl, fa, _, rfl,
        hi.run_field hst hl (by omega) hfits, ?_, ?_⟩⟩
      · simp only [Dec.remaining, hst, hpos, hsum, hdrop, if_neg hover, Option.map_map, Function.comp_def,
          List.append_assoc]
      · simp only [Dec.stepsLeft, hst, hpos]
        omega

/-- A step of a decode in progress (R171 to R174). -/
theorem State.Decoding.advances (h : s.Decoding n slice r (k + 1)) (hw : s.Working)
    (hl : slice.length < Config.byteInLimit) : s.DecodingAdvances n slice r k := by
  obtain ⟨fa, px, hf, hi, rfl, hk⟩ := h
  cases hst : s.dec.st with
  | idle =>
    simp only [Dec.Inv, hst] at hi
    subst hi
    refine ⟨_, step_decoding_idle hw hf hst, .inr ⟨hw, rfl, rfl, fa, [], hf, by simp [Dec.Inv], ?_, ?_⟩⟩
    · simp only [Dec.remaining, hst]
    · simp only [Dec.stepsLeft, hst] at hk ⊢
      omega
  | marker =>
    simp only [Dec.stepsLeft, hst] at hk
    simpa only [Dec.remaining, hst] using decodingAdvances_of_marker hw hf hi hst (by omega)
  | runs =>
    simp only [Dec.stepsLeft, hst] at hk
    exact decodingAdvances_of_runs hw hf hi hst hl (by omega)
  | done =>
    refine ⟨_, step_decoding_done hw hf hst, .inl ?_⟩
    simpa [Dec.remaining, hst, decodedAnswer] using deliver_answered (.pixels px) s

/-- A decode in progress is answered within the steps it has left. -/
theorem State.Decoding.answered_within (hl : slice.length < Config.byteInLimit) (h : s.Decoding n slice r k)
    (hw : s.Working) :
    ∃ j t, j ≤ k ∧ core.run j s = .next t ∧ t.Answered (decodedAnswer s.hnd r) s.input := by
  induction k generalizing s with
  | zero =>
    obtain ⟨fa, px, -, -, -, hk⟩ := h
    cases hst : s.dec.st <;> simp [Dec.stepsLeft, hst] at hk
  | succ k ih =>
    obtain ⟨t, hstep, ht | ⟨hwt, hin, hhnd, ht⟩⟩ := h.advances hw hl
    · exact ⟨1, t, by omega, core_run_succ 0 hstep, ht⟩
    · obtain ⟨j, u, hj, hrun, hu⟩ := ih ht hwt
      exact ⟨j + 1, u, by omega, (core_run_succ j hstep).trans hrun, hin ▸ hhnd ▸ hu⟩

end Machine

/-- Settles O26: from its start a decode has `Decode` to do and the steps of R170 and one that delivers left; the first
step takes the last response off its channel. -/
theorem decoderMachineDeliversDecode : Obligations.DecoderMachineDeliversDecode := by
  intro s n B hf hst hr hl
  have hstart : s.quiet.Decoding n B (decodeFrame B n.toNat) ((B.length + 5) / 2 + 1) :=
    ⟨false, [], hf, Dec.inv_of_idle hst, by simp [Dec.remaining, hst], by simp [Dec.stepsLeft, hst]⟩
  obtain ⟨j, t, hj, hrun, hcode, hresp, hhnd, ⟨hidle, -, hdec, -⟩, -⟩ := hstart.answered_within hl ⟨hr, rfl⟩
  cases j with
  | zero =>
    cases hrun
    simp [hf] at hidle
  | succ j =>
    refine ⟨j + 1, t, hj, hrun, hidle, hdec, hhnd.trans (decodedAnswer_hnd ..), fun px hpx => ?_, fun hnone => ?_⟩
    · rw [hpx] at hcode hresp
      exact ⟨hcode, hresp⟩
    · rw [hnone] at hcode hresp
      exact ⟨hcode, hresp⟩

/-! ### The slices that decode -/

/-- Settles O20: only a marker and whole fields that sum to `N` decode, and a fault changes nothing else. -/
theorem decodeRefusesEveryOtherSlice : Obligations.DecodeRefusesEveryOtherSlice := by
  intro s n B hs hB hl hother
  have hnone : decodeFrame B n.toNat = none := by
    refine Option.eq_none_iff_forall_ne_some.mpr fun px hpx => ?_
    obtain ⟨v, fields, hle, hsum, rfl, -⟩ := decodeFrame_some hpx
    exact hother v fields hle hsum rfl
  simp only [exec, execDecode, whenIdle_of_idle hs.1, withBytes, hB,
    if_pos (show B.length < Config.byteInLimit from hl), hnone, raise_of_unitsIdle .formatError hs]

/-- Bytes of even number are whole fields (R102). -/
theorem exists_fields_of_even : ∀ bs : List Byte, bs.length % 2 = 0 →
    ∃ fields : List Nat, bs = fields.flatMap le16 ∧ ∀ f ∈ fields, f ≤ 65535
  | [], _ => ⟨[], rfl, by simp⟩
  | [_], h => by simp at h
  | l :: h :: rest, heven => by
    obtain ⟨fields, hrest, hle⟩ := exists_fields_of_even rest (by simp only [List.length_cons] at heven; omega)
    refine ⟨leValue [l, h] :: fields, ?_, List.forall_mem_cons.mpr ⟨?_, hle⟩⟩
    · rw [List.flatMap_cons, le16_leValue_pair, hrest]
      rfl
    · exact Nat.le_of_lt_succ (leValue_pair_lt l h)

/-- The well-formed slices are those of odd length with marker 0 or 1 (R179). -/
theorem wellFormed_iff_exists_encodedFrame (B : List Byte) :
    (B.length % 2 = 1 ∧ ∃ m, B.head? = some m ∧ m.toNat ≤ 1) ↔
      ∃ v fields, B = encodedFrame v fields ∧ ∀ f ∈ fields, f ≤ 65535 := by
  constructor
  · rintro ⟨hodd, m, hhead, hm⟩
    obtain ⟨rest, rfl⟩ := List.head?_eq_some_iff.mp hhead
    obtain ⟨fields, rfl, hle⟩ := exists_fields_of_even rest (by simp only [List.length_cons] at hodd; omega)
    exact ⟨m.getLsbD 0, fields, by rw [encodedFrame, ← eq_pixelByte_of_le_one hm], hle⟩
  · rintro ⟨v, fields, rfl, -⟩
    refine ⟨by rw [encodedFrame_length]; omega, pixelByte v, rfl, ?_⟩
    cases v <;> decide

/-- Settles O21: the fields of a slice that decodes are its own, and they sum to the count. -/
theorem decodeSucceedsForExactlyOneCount : Obligations.DecodeSucceedsForExactlyOneCount := by
  refine ⟨fun v fields n hle => ⟨fun h => ?_, ?_⟩, wellFormed_iff_exists_encodedFrame, fun B n hB => ?_⟩
  · obtain ⟨px, hpx⟩ := Option.isSome_iff_exists.mp h
    obtain ⟨w, gs, hle', rfl, heq, -⟩ := decodeFrame_some hpx
    obtain ⟨-, rfl⟩ := encodedFrame_inj hle hle' heq
    rfl
  · rintro rfl
    simp [decodeFrame_fields _ v fields hle rfl]
  · refine Option.eq_none_iff_forall_ne_some.mpr fun px hpx => hB ?_
    obtain ⟨v, fields, hle, -, heq, -⟩ := decodeFrame_some hpx
    exact (wellFormed_iff_exists_encodedFrame B).mpr ⟨v, fields, heq, hle⟩

/-! ### The round trips -/

/-- An encoding is no longer than a marker and a field per pixel (R146). -/
theorem encodeFrame_length_le (F : List Pixel) : (encodeFrame F).length ≤ 1 + 2 * F.length := by
  obtain ⟨hnil, hcons⟩ := encodedLengthFromRuns
  by_cases hF : F = []
  · subst hF
    exact hnil.le
  · obtain ⟨-, -, -, hle⟩ := hcons F hF
    exact hle

/-- Settles O54: an encoding is a marker and fields that stand for the frame (O12), and it decodes to their pixels
(O19). -/
theorem decodeOfEncodeIsTheFrame : Obligations.DecodeOfEncodeIsTheFrame := by
  intro s s' F hs hs' hF hlen
  obtain ⟨t, hexec, ⟨-, hresp, -⟩, -⟩ := encodeAnswersTheCanonicalEncoding s F hs hF
  rw [← encodeFrame_eq_canonicalEncoding] at hresp
  refine ⟨t, encodeFrame F, hexec, hresp, fun hB => ?_⟩
  obtain ⟨v, fields, hle, hB', hpx⟩ := encodeFrame_eq_encodedFrame F
  have hshort : (encodedFrame v fields).length < 2 ^ 35 := by
    have := encodeFrame_length_le F
    rw [← hB']
    omega
  have hcount : fields.sum = (BitVec.ofNat 32 F.length).toNat := by
    rw [BitVec.toNat_ofNat, Nat.mod_eq_of_lt hlen, ← hpx, expandFields_length]
  obtain ⟨t', hexec', ⟨hcode, hresp', -⟩, -⟩ :=
    decodeAnswersThePixelsOfItsFields s' _ v fields hs' (hB.trans (congrArg some hB')) hshort hle hcount
  exact ⟨t', hexec', hcode, hpx ▸ hresp'⟩

/-- Settles O55: the canonical slices are the encodings of frames (O15). -/
theorem encodeOfDecodeIsTheCanonicalFrame : Obligations.EncodeOfDecodeIsTheCanonicalFrame := by
  refine ⟨fun v fields hle hcan => ?_, fun B n F hnot _ => ?_⟩
  · obtain ⟨F, hF⟩ := (canonical_iff_exists_encodeFrame _).mp hcan
    obtain ⟨w, gs, hle', hF', hpx⟩ := encodeFrame_eq_encodedFrame F
    obtain ⟨rfl, rfl⟩ := encodedFrame_inj hle hle' (hF.symm.trans hF')
    exact ⟨F, hpx ▸ decodeFrame_fields _ v fields hle rfl, hF⟩
  · exact ⟨(canonical_iff_exists_encodeFrame _).mpr ⟨F, rfl⟩,
      fun heq => hnot ((canonical_iff_exists_encodeFrame B).mpr ⟨F, heq⟩)⟩

end Sys2Proof.Machine
end

section
/-! PROOFS. BUILD: the blob of frames that fit, the faults of those that do not, and the index and the size of the blob
(O27 to O31). -/

namespace Sys2Proof.Machine

open Sys2Proof

variable {s : State} {frames : List (List Pixel)} {w h r : U16} {blob : List Byte}

/-! ### The operation -/

/-- Settles O27: BUILD delivers the blob of R99, and only `SER` and `ENC` have been at work. -/
theorem buildAnswersTheBlob : Obligations.BuildAnswersTheBlob := by
  rintro s w h r ⟨hf, -, hd, -⟩ hb
  obtain ⟨-, hdec, -, hrdr, hhnd, -⟩ :=
    deliver_fields_of_idle (s := s.freeSer.freeEnc) (.bytes (blobOf s.operand.pixIn w h r)) hf
  refine ⟨deliver (.bytes (blobOf s.operand.pixIn w h r)) s.freeSer.freeEnc, ?_, deliver_endedFrom _ rfl, hhnd,
    hdec.trans (dec_st_idle_eq hd), hrdr⟩
  simp only [exec, execBuild, whenIdle_of_idle hf, buildBlob_of_buildable r hb]

/-- Where `Build` raises a fault, BUILD changes nothing else (R190, R268). -/
theorem execBuild_of_error {c : Code} (hs : s.UnitsIdle) (hb : buildBlob s.operand.pixIn w h r = .error c) :
    execBuild w h r s = .next (s.faulted c) := by
  simp only [execBuild, whenIdle_of_idle hs.1, hb, raise_of_unitsIdle c hs]

/-- Settles O28: `Build` asks the dimensions before anything else, and BUILD passes its fault on. -/
theorem buildRaisesDimensionError : Obligations.BuildRaisesDimensionError :=
  fun _ _ _ r hs hbad => execBuild_of_error hs (buildBlob_dimensionError r hbad)

/-- Settles O29: with right dimensions `Build` is left with the capacity, and BUILD passes its fault on. -/
theorem buildRaisesCapacityError : Obligations.BuildRaisesCapacityError :=
  fun _ _ _ r hs hwh hall hcap => execBuild_of_error hs (buildBlob_capacityError r hwh hall hcap)

/-! ### The lengths in a built blob -/

/-- A header, an entry per frame, and the encoded frames (R202). -/
theorem length_blobOf (frames : List (List Pixel)) (w h r : U16) :
    (blobOf frames w h r).length = 12 + 4 * frames.length + encodedTotal frames := by
  rw [blobOf_eq_append, List.length_append, List.length_append, length_builtHeader, flatMap_le32_length,
    List.length_map, List.length_range, flatten_encoded_length, Nat.add_assoc]

/-- A frame that can be built has a pixel, so its encoding has a field and at most one per pixel (R146, R192). -/
theorem Buildable.length_encodeFrame (hb : Buildable frames w h) {f : List Pixel} (hf : f ∈ frames) :
    3 ≤ (encodeFrame f).length ∧ (encodeFrame f).length ≤ 1 + 2 * (w.toNat * h.toNat) := by
  obtain ⟨hwh, hall, -⟩ := hb
  have hlen := hall f hf
  have hne : f ≠ [] := by
    rintro rfl
    exact hwh hlen.symm
  obtain ⟨-, hcons⟩ := encodedLengthFromRuns
  obtain ⟨-, -, hlow, hhigh⟩ := hcons f hne
  exact ⟨hlow, hlen ▸ hhigh⟩

/-- The encoded frames together, between the bounds of each (R202). -/
theorem Buildable.encodedTotal_bounds (hb : Buildable frames w h) :
    frames.length * 3 ≤ encodedTotal frames ∧
      encodedTotal frames ≤ frames.length * (1 + 2 * (w.toNat * h.toNat)) := by
  have hlow := List.card_nsmul_le_sum (frames.map fun f => (encodeFrame f).length) 3
    (List.forall_mem_map.mpr fun f hf => (hb.length_encodeFrame hf).1)
  have hhigh := List.sum_le_card_nsmul (frames.map fun f => (encodeFrame f).length) (1 + 2 * (w.toNat * h.toNat))
    (List.forall_mem_map.mpr fun f hf => (hb.length_encodeFrame hf).2)
  rw [List.length_map, smul_eq_mul] at hlow hhigh
  exact ⟨hlow, hhigh⟩

/-- Settles O30: the entries are the offsets of the frames, and each offset is the one before it and the length of the
frame between them. -/
theorem builtIndexIncreases : Obligations.BuiltIndexIncreases := by
  intro frames w h r blob hblob
  obtain ⟨hb, rfl⟩ := buildBlob_eq_ok_iff.mp hblob
  refine ⟨fun f hf => ?head, fun i f hf hi => ?next, fun f hf => ?last⟩
  case head =>
    have hlt := List.length_pos_of_mem (List.mem_of_mem_head? hf)
    simpa [frameOffset_zero] using memRead_blobOf_entry hb r hlt
  case next =>
    have hstep := frameOffset_succ frames i f hf
    obtain ⟨hlow, -⟩ := hb.length_encodeFrame (List.mem_of_getElem? hf)
    exact ⟨_, _, memRead_blobOf_entry hb r (by omega), memRead_blobOf_entry hb r hi, hstep, by omega⟩
  case last =>
    have hlt := List.length_pos_of_mem (List.mem_of_getLast? hf)
    have hend := frameOffset_succ frames _ f (List.getLast?_eq_getElem? ▸ hf)
    rw [Nat.sub_add_cancel hlt, frameOffset_length] at hend
    refine ⟨_, memRead_blobOf_entry hb r (by omega), ?_⟩
    rw [length_blobOf]
    omega

/-- Settles O31: the lengths of the parts, each with its bounds; the largest size is that of R198's largest count and
total. -/
theorem builtBlobSize : Obligations.BuiltBlobSize := by
  intro frames w h r blob hblob
  obtain ⟨hb, rfl⟩ := buildBlob_eq_ok_iff.mp hblob
  obtain ⟨-, -, hcount, htotal⟩ := id hb
  rw [flatten_encoded_length] at htotal
  obtain ⟨hlow, hhigh⟩ := hb.encodedTotal_bounds
  have hlen := length_blobOf frames w h r
  refine ⟨hlen, fun f hf => hb.length_encodeFrame hf, by omega, ?_, ?_⟩
  · calc (blobOf frames w h r).length
        ≤ 12 + 4 * frames.length + frames.length * (1 + 2 * (w.toNat * h.toNat)) := by omega
      _ = 12 + frames.length * (5 + 2 * (w.toNat * h.toNat)) := by ring
  · simp only [Config.u32Max] at hcount htotal
    omega

end Sys2Proof.Machine
end

section
/-! PROOFS. OPEN and FRAMEAT: the headers OPEN commits and refuses, the frames FRAMEAT answers, the entries and slices it
refuses, the records HDR and IDX that end in a fault, and random access into a built blob (O33, O34, O36 to O40, O42,
O43, O56, O57). -/

namespace Sys2Proof.Machine

open Sys2Proof

variable {s t : State}

/-! ### OPEN -/

/-- The fields of a header are the little-endian reads at their offsets (R94, R221). -/
theorem memRead_of_readHeader {blob : List Byte} {x : Header} (hx : readHeader blob = some x) :
    memRead blob 0 2 = some x.width.toNat ∧ memRead blob 2 2 = some x.height.toNat ∧
      memRead blob 4 4 = some x.frameCount.toNat ∧ memRead blob 8 2 = some x.frameRate.toNat ∧
      memRead blob 10 2 = some x.flags.toNat := by
  have hfield {a n v w : Nat} (hv : memRead blob a n = some v) (hw : 256 ^ n = 2 ^ w) :
      memRead blob a n = some (BitVec.ofNat w v).toNat := by
    rw [hv, BitVec.toNat_ofNat, Nat.mod_eq_of_lt (hw ▸ memRead_lt hv)]
  simp only [readHeader, Option.bind_eq_bind, Option.bind_eq_some_iff, Option.pure_def, Option.some.injEq] at hx
  obtain ⟨w, hw, h, hh, fc, hfc, fr, hfr, fl, hfl, rfl⟩ := hx
  exact ⟨hfield hw rfl, hfield hh rfl, hfield hfc rfl, hfield hfr rfl, hfield hfl rfl⟩

/-- OPEN of a sequence that can be presented is `Open` of it (R220). -/
theorem execOpenBlob_of_some {blob : List Byte} (hf : s.flight = .idle) (hB : s.operand.byteIn = some blob)
    (hlen : blob.length < 2 ^ 35) : execOpenBlob s = .next (openBlob blob s) := by
  simp only [execOpenBlob, whenIdle_of_idle hf, withBytes, hB,
    if_pos (show blob.length < Config.byteInLimit from hlen)]

/-- A blob whose header passes the checks is committed (R228). -/
theorem openBlob_of_legal {blob : List Byte} {x : Header} (hx : readHeader blob = some x) (hfl : x.flags = 0)
    (hidx : 12 + 4 * x.frameCount.toNat ≤ blob.length) (hwh : x.width.toNat * x.height.toNat ≠ 0) (s : State) :
    openBlob blob s =
      deliver .none { s with hnd := committed x.width x.height x.frameCount x.frameRate x.flags blob } := by
  simp only [openBlob, hx]
  obtain ⟨-, -, -, heq⟩ | ⟨hflags | hshort | hzero, -⟩ :=
    admitHeader_cases x.width x.height x.frameCount x.frameRate x.flags blob s
  · exact heq
  · exact absurd hfl hflags
  · omega
  · exact absurd hzero hwh

/-- A header with a bad field is refused (R223 to R225). -/
theorem admitHeader_of_illegal {w h : U16} {fc : U32} {fl : U16} {blob : List Byte}
    (hbad : fl ≠ 0 ∨ blob.length < 12 + 4 * fc.toNat ∨ w.toNat * h.toNat = 0) (fr : U16) (s : State) :
    admitHeader w h fc fr fl blob s = raise .formatError s := by
  obtain ⟨hfl, hidx, hwh, -⟩ | ⟨-, heq⟩ := admitHeader_cases w h fc fr fl blob s
  · obtain hflags | hshort | hzero := hbad
    · exact absurd hfl hflags
    · omega
    · exact absurd hzero hwh
  · exact heq

/-- Settles O33: twelve bytes hold a header, its fields are those the reads give, and its commit touches no unit. -/
theorem openCommitsTheHeader : Obligations.OpenCommitsTheHeader := by
  rintro s blob w h fc fr ⟨hf, he, hd, hp⟩ hB hlen hw hh hfc hfr hfl hidx hwh
  obtain ⟨x, hx⟩ := Option.isSome_iff_exists.mp ((readHeader_isSome_iff blob).mpr (by omega))
  obtain ⟨hxw, hxh, hxfc, hxfr, hxfl⟩ := memRead_of_readHeader hx
  obtain rfl := Option.some.inj (hw.symm.trans hxw)
  obtain rfl := Option.some.inj (hh.symm.trans hxh)
  obtain rfl := Option.some.inj (hfc.symm.trans hxfc)
  obtain rfl := Option.some.inj (hfr.symm.trans hxfr)
  have hflags : x.flags = 0 := BitVec.eq_of_toNat_eq (Option.some.inj (hfl.symm.trans hxfl)).symm
  have hopen := openBlob_of_legal hx hflags hidx hwh s
  obtain ⟨henc, hdec, hser, hrdr, hhnd, -⟩ := deliver_fields_of_idle
    (s := { s with hnd := committed x.width x.height x.frameCount x.frameRate x.flags blob }) .none hf
  refine ⟨_, (execOpenBlob_of_some hf hB hlen).trans (congrArg _ hopen), deliver_endedFrom _ rfl, ?_⟩
  rw [hhnd]
  exact ⟨rfl, rfl, rfl, rfl, rfl, hflags, (BitVec.toNat_ofNat ..).trans (Nat.mod_eq_of_lt hlen),
    Memory.read_load blob, henc.trans (enc_st_idle_eq he), hdec.trans (dec_st_idle_eq hd),
    hser.trans (ser_phase_idle_eq hp), hrdr⟩

/-- Settles O34: a blob too short for a header has none, and of a header that is there the reads give the bad field. -/
theorem openRefusesBadHeaders : Obligations.OpenRefusesBadHeaders := by
  intro s blob hs hB hlen hbad
  refine (execOpenBlob_of_some hs.1 hB hlen).trans (congrArg _ ?_)
  rw [← raise_of_unitsIdle .formatError hs]
  obtain ⟨x, hx, heq⟩ | ⟨-, heq⟩ := openBlob_cases blob s
  · obtain ⟨hxw, hxh, hxfc, -, hxfl⟩ := memRead_of_readHeader hx
    refine heq.trans (admitHeader_of_illegal ?_ _ s)
    obtain hshort | ⟨fl, hfl, hne⟩ | ⟨fc, hfc, hidx⟩ | ⟨w, h, hw, hh, hzero⟩ := hbad
    · have := (readHeader_isSome_iff blob).mp (by simp [hx])
      omega
    · obtain rfl := Option.some.inj (hfl.symm.trans hxfl)
      exact .inl fun h0 => hne (congrArg BitVec.toNat h0)
    · obtain rfl := Option.some.inj (hfc.symm.trans hxfc)
      exact .inr (.inl hidx)
    · obtain rfl := Option.some.inj (hw.symm.trans hxw)
      obtain rfl := Option.some.inj (hh.symm.trans hxh)
      exact .inr (.inr hzero)
  · exact heq

/-! ### HDR and IDX that end in a fault -/

/-- A fault that ends an OPEN leaves `RDR` (R2, R268). -/
theorem raise_rdr_of_opening {blob : List Byte} (c : Code) (hf : s.flight = .opening blob) :
    (raise c s).rdr = s.rdr := by
  simp [raise, respond, State.release, hf]

/-- Settles O36. -/
theorem hdrRefusesBadFields : Obligations.HdrRefusesBadFields := by
  intro s w h fc fr fl blob hf hbad
  exact ⟨raise .formatError s,
    (execHdr_of_opening hf).trans (congrArg _ (admitHeader_of_illegal hbad fr s)),
    raise_endedFrom _ rfl, raise_hnd _ _, raise_rdr_of_opening _ hf⟩

/-- Entries that give no range inside the frame-data section give no slice (R236). -/
theorem frameSlice_of_bad {h : Handle} {start stop : Nat} (hbad : start > stop ∨ stop > dataLen h) :
    frameSlice h start stop = none := if_pos hbad

/-- A range that is none inside the frame-data section ends the FRAMEAT in progress (R236). -/
theorem sliceFrame_endedFrom (hin : t.input = s.input)
    (hbad : t.rdr.start.toNat > t.rdr.stop.toNat ∨ t.rdr.stop.toNat > dataLen t.hnd) :
    (sliceFrame t).EndedFrom s .formatError .none := by
  simp only [sliceFrame, frameSlice_of_bad hbad]
  exact raise_endedFrom _ hin

/-- Settles O42: the IDX that completes the range is the range check. -/
theorem idxRefusesBadRanges : Obligations.IdxRefusesBadRanges := by
  intro s k off
  have hoff : (off.setWidth 35).toNat = off.toNat := BitVec.toNat_setWidth_of_le (by omega)
  refine ⟨fun hf hk hbad => ?last, fun hf hbad => ?second⟩
  case last =>
    have hexec : exec (.idx off) s =
        .next (sliceFrame { s with rdr := { s.rdr with start := off.setWidth 35, stop := s.rdr.dlen } }) := by
      simp only [exec, execIdx, hf, if_neg (show ¬ k.toNat + 1 < s.hnd.fcount.toNat by omega)]
    exact ⟨_, hexec, sliceFrame_endedFrom rfl (by rwa [hoff]), sliceFrame_hnd _⟩
  case second =>
    have hexec : exec (.idx off) s = .next (sliceFrame { s with rdr := { s.rdr with stop := off.setWidth 35 } }) := by
      simp only [exec, execIdx, hf]
    exact ⟨_, hexec, sliceFrame_endedFrom rfl (by rwa [hoff]), sliceFrame_hnd _⟩

/-! ### FRAMEAT -/

/-- FRAMEAT of a frame delivers it (R230). -/
theorem execFrameat_of_ok {k : U32} {px : List Pixel} (hf : s.flight = .idle) (h : frameAt s.hnd k = .ok px) :
    execFrameat k s = .next (deliver (.pixels px) s.freeDec.freeRdr) := by
  simp only [execFrameat, whenIdle_of_idle hf, h]

/-- Where `FrameAt` raises a fault, FRAMEAT changes nothing else (R230, R268). -/
theorem execFrameat_of_error {k : U32} {c : Code} (hs : s.UnitsIdle) (h : frameAt s.hnd k = .error c) :
    execFrameat k s = .next (s.faulted c) := by
  simp only [execFrameat, whenIdle_of_idle hs.1, h, raise_of_unitsIdle c hs]

/-- The fault of the first two checks is that of `FrameAt` (R267). -/
theorem frameAt_of_check {h : Handle} {k : U32} {c : Code} (hc : frameAtCheck h k = some c) :
    frameAt h k = .error c := by
  simp only [frameAt, hc]

/-- Settles O38: `FrameAt` asks for the handle, then for the index. -/
theorem frameAtChecksHandleThenIndex : Obligations.FrameAtChecksHandleThenIndex := by
  refine fun s k hs => ⟨fun hv => ?_, fun hv hk => ?_⟩ <;>
    refine execFrameat_of_error hs (frameAt_of_check ?_)
  · exact if_pos hv
  · rw [frameAtCheck, if_neg (by simp [hv]), if_pos hk]

/-- Settles O43: the answer of FRAMEAT is a function of the handle and the index. -/
theorem frameAtDependsOnTheHandleAlone : Obligations.FrameAtDependsOnTheHandleAlone := by
  intro s s' t k hs hs' hhnd ht
  obtain ⟨u, hu, hcode, hresp, hh, -⟩ := execFrameat_answered k hs.1
  obtain ⟨t', ht', hcode', hresp', hh', -⟩ := execFrameat_answered k hs'.1
  obtain rfl := Host.Outcome.next.inj (ht.symm.trans hu)
  have heq : answer (.frameat k) s'.operand s'.hnd = answer (.frameat k) s.operand s.hnd := by
    rw [← hhnd]
    rfl
  rw [heq] at hcode' hresp' hh'
  exact ⟨t', ht', hcode'.trans hcode.symm, hresp'.trans hresp.symm, hh'.trans hh.symm⟩

section Range

variable {h : Handle} {k : U32} {start stop : Nat}

/-- With its range known, `FrameAt` is the decode of its slice, where there is one (R231 lines 5 and 6). -/
theorem frameAt_of_range (hc : frameAtCheck h k = none) (hr : frameRange h k.toNat = some (start, stop)) :
    frameAt h k = ((frameSlice h start stop).bind fun slice => decodeFrame slice (framePixels h)).elim
      (.error .formatError) .ok := by
  simp only [frameAt, hc, hr]
  rcases frameSlice h start stop with _ | slice
  · rfl
  · simp only [Option.bind_some]
    rcases decodeFrame slice (framePixels h) with _ | px <;> rfl

/-- A range inside the frame-data section gives the bytes that stand there (R236, R237). -/
theorem frameSlice_of_le (hle : start ≤ stop) (hstop : stop ≤ dataLen h) :
    frameSlice h start stop = Memory.readBytes h.blob (dataBase h + start) (stop - start) :=
  if_neg (by omega)

end Range

/-- Settles O39: the range is the two entries' and is refused. -/
theorem frameAtRefusesBadRanges : Obligations.FrameAtRefusesBadRanges := by
  intro s k start stop hs hv hk hstart hnext hlast hbad
  refine execFrameat_of_error hs ?_
  rw [frameAt_of_range (frameAtCheck_of_inRange hv hk) (frameRange_of hk hstart hnext hlast), frameSlice_of_bad hbad]
  rfl

/-- Settles O40: what `Decode` accepts is a marker and whole fields (R162 to R168). -/
theorem frameAtRefusesBadSlices : Obligations.FrameAtRefusesBadSlices := by
  intro s k start stop slice hs hv hk hstart hnext hlast hle hstop hslice hother
  have hnone : decodeFrame slice (framePixels s.hnd) = none := by
    refine Option.eq_none_iff_forall_ne_some.mpr fun px hpx => ?_
    obtain ⟨v, fields, hfields, hsum, heq, -⟩ := decodeFrame_some hpx
    exact hother v fields hfields hsum heq
  refine execFrameat_of_error hs ?_
  rw [frameAt_of_range (frameAtCheck_of_inRange hv hk) (frameRange_of hk hstart hnext hlast),
    (frameSlice_of_le hle hstop).trans hslice, Option.bind_some, hnone]
  rfl

/-- Settles O37: the slice decodes to the pixels of its fields, and only `DEC` and `RDR` have been at work. -/
theorem frameAtAnswersTheFrame : Obligations.FrameAtAnswersTheFrame := by
  rintro s k start stop v fields ⟨hf, he, -, hp⟩ hv hk hstart hnext hlast hle hstop hslice hfields hsum
  have hframe : frameAt s.hnd k = .ok (expandFields v fields) := by
    rw [frameAt_of_range (frameAtCheck_of_inRange hv hk) (frameRange_of hk hstart hnext hlast),
      (frameSlice_of_le hle hstop).trans hslice, Option.bind_some,
      decodeFrame_fields (framePixels s.hnd) v fields hfields hsum]
    rfl
  obtain ⟨henc, -, hser, -, hhnd, -⟩ :=
    deliver_fields_of_idle (s := s.freeDec.freeRdr) (.pixels (expandFields v fields)) hf
  exact ⟨_, execFrameat_of_ok hf hframe, deliver_endedFrom _ rfl, hhnd, henc.trans (enc_st_idle_eq he),
    hser.trans (ser_phase_idle_eq hp)⟩

/-! ### OPEN of a built blob -/

section Built

variable {frames : List (List Pixel)} {w h r : U16} {blob : List Byte}

/-- A BUILD that answers a blob has been given frames that can be built, and the blob is that of R99. -/
theorem buildable_of_exec (hexec : exec (.build w h r) s = .next t) (hresp : t.response = some ⟨.ok, .bytes blob⟩) :
    Buildable s.operand.pixIn w h ∧ blob = blobOf s.operand.pixIn w h r := by
  obtain ⟨-, ⟨built, hbuilt, rfl⟩ | ⟨c, -, rfl⟩⟩ := execBuild_next hexec
  · obtain rfl : built = blob := by simpa using hresp
    exact buildBlob_eq_ok_iff.mp hbuilt
  · simp at hresp

/-- The number of frames that can be built fits its field (R198). -/
theorem Buildable.count_toNat (hb : Buildable frames w h) : (BitVec.ofNat 32 frames.length).toNat = frames.length := by
  obtain ⟨-, -, hcount, -⟩ := hb
  rw [BitVec.toNat_ofNat]
  exact Nat.mod_eq_of_lt (Nat.lt_succ_of_le hcount)

/-- OPEN reads from a built blob the header BUILD wrote (R195, R221). -/
theorem readHeader_blobOf (hb : Buildable frames w h) (r : U16) :
    readHeader (blobOf frames w h r) = some ⟨w, h, BitVec.ofNat 32 frames.length, r, 0⟩ := by
  have htake : (blobOf frames w h r).take Config.headerBytes = builtHeader w h r frames.length := by
    rw [blobOf_eq_append]
    exact List.take_left' (length_builtHeader ..)
  rw [← readHeader_take, htake, readHeader_eq_some_iff (length_builtHeader ..), encodeHeader, hb.count_toNat]
  rfl

/-- A built blob can be presented: its largest size is below `2^35` (R60, R202). -/
theorem Buildable.length_blobOf_lt (hb : Buildable frames w h) (r : U16) : (blobOf frames w h r).length < 2 ^ 35 := by
  obtain ⟨-, -, hcount, htotal⟩ := hb
  rw [flatten_encoded_length] at htotal
  rw [length_blobOf]
  simp only [Config.u32Max] at hcount htotal
  omega

/-- The handle of a built blob (R242). -/
abbrev builtHandle (frames : List (List Pixel)) (w h r : U16) : Handle :=
  committed w h (BitVec.ofNat 32 frames.length) r 0 (blobOf frames w h r)

theorem Buildable.blobLen_toNat (hb : Buildable frames w h) (r : U16) :
    (builtHandle frames w h r).blobLen.toNat = (blobOf frames w h r).length :=
  (BitVec.toNat_ofNat ..).trans (Nat.mod_eq_of_lt (hb.length_blobOf_lt r))

/-- OPEN of a built blob never faults: it commits the handle of R242. -/
theorem execOpenBlob_blobOf (hb : Buildable frames w h) (hf : s.flight = .idle)
    (hB : s.operand.byteIn = some (blobOf frames w h r)) :
    execOpenBlob s = .next (deliver .none { s with hnd := builtHandle frames w h r }) := by
  have hidx : 12 + 4 * (BitVec.ofNat 32 frames.length).toNat ≤ (blobOf frames w h r).length := by
    rw [hb.count_toNat, length_blobOf]
    exact Nat.le_add_right ..
  exact (execOpenBlob_of_some hf hB (hb.length_blobOf_lt r)).trans
    (congrArg _ (openBlob_of_legal (readHeader_blobOf hb r) rfl hidx hb.1 s))

/-- Settles O56: the blob is that of R99, and the handle OPEN commits holds what BUILD wrote. -/
theorem openReadsBackTheBuiltHeader : Obligations.OpenReadsBackTheBuiltHeader := by
  intro s t s' w h r blob _ hs' hexec hresp hB
  obtain ⟨hb, rfl⟩ := buildable_of_exec hexec hresp
  refine ⟨_, execOpenBlob_blobOf hb hs'.1 hB, rfl, ?_⟩
  rw [deliver_hnd]
  exact ⟨rfl, rfl, rfl, hb.count_toNat, rfl, rfl, hb.blobLen_toNat r⟩

/-! ### Random access -/

/-- The frame data is that of the frames before one, its encoding, and that of the frames after it (R68). -/
theorem frameData_eq_append {i : Nat} {f : List Pixel} (hf : frames[i]? = some f) :
    frameData frames = frameData (frames.take i) ++ (encodeFrame f ++ frameData (frames.drop (i + 1))) := by
  obtain ⟨hi, rfl⟩ := List.getElem?_eq_some_iff.mp hf
  conv_lhs => rw [← List.take_append_drop i frames, List.drop_eq_getElem_cons hi]
  simp only [frameData, List.map_append, List.map_cons, List.flatten_append, List.flatten_cons]

/-- The bytes between the offset of a frame and the next are its encoding (R203). -/
theorem readBytes_blobOf_frame (hb : Buildable frames w h) (r : U16) {i : Nat} {f : List Pixel}
    (hf : frames[i]? = some f) :
    Memory.readBytes (Memory.load (blobOf frames w h r)) (12 + 4 * frames.length + frameOffset frames i)
      (encodeFrame f).length = some (encodeFrame f) := by
  obtain ⟨hpos, -⟩ := hb.length_encodeFrame (List.mem_of_getElem? hf)
  have hend := frameOffset_le frames (i + 1)
  rw [frameOffset_succ frames i f hf] at hend
  rw [Memory.readBytes_load _ _ _ (by omega), if_pos (by rw [length_blobOf]; omega), ← List.drop_drop, drop_blobOf,
    frameData_eq_append hf, List.drop_left' (length_frameData_take frames i), List.take_left]

/-- With the handle of a built blob, FRAMEAT of an index below the number of frames ends `OK` with its frame (R241). -/
theorem exec_frameat_builtHandle (hb : Buildable frames w h) (hs : s.UnitsIdle)
    (hhnd : s.hnd = builtHandle frames w h r) {k : U32} {f : List Pixel} (hf : frames[k.toNat]? = some f) :
    ∃ t, exec (.frameat k) s = .next t ∧ t.EndedFrom s .ok (.pixels f) := by
  obtain ⟨hk, -⟩ := List.getElem?_eq_some_iff.mp hf
  obtain ⟨v, fields, hfields, henc, rfl⟩ := encodeFrame_eq_encodedFrame f
  have hcount : s.hnd.fcount.toNat = frames.length := by rw [hhnd]; exact hb.count_toNat
  have hlen : s.hnd.blobLen.toNat - (12 + 4 * s.hnd.fcount.toNat) = encodedTotal frames := by
    rw [hcount, hhnd, hb.blobLen_toNat, length_blobOf, Nat.add_sub_cancel_left]
  have hnext := frameOffset_succ frames k.toNat _ hf
  have hentry {i : Nat} (hi : i < frames.length) :
      Memory.readLE s.hnd.blob (12 + 4 * i) 4 = some (frameOffset frames i) := by
    rw [hhnd, Memory.readLE_load _ _ _ (by decide)]
    exact memRead_blobOf_entry hb r hi
  have hlast (h : k.toNat + 1 = s.hnd.fcount.toNat) :
      frameOffset frames (k.toNat + 1) = s.hnd.blobLen.toNat - (12 + 4 * s.hnd.fcount.toNat) := by
    rw [hlen, h, hcount, frameOffset_length]
  have hslice : Memory.readBytes s.hnd.blob (12 + 4 * s.hnd.fcount.toNat + frameOffset frames k.toNat)
      (frameOffset frames (k.toNat + 1) - frameOffset frames k.toNat) = some (encodedFrame v fields) := by
    rw [hcount, hnext, Nat.add_sub_cancel_left, hhnd, ← henc]
    exact readBytes_blobOf_frame hb r hf
  have hsum : fields.sum = s.hnd.width.toNat * s.hnd.height.toNat := by
    obtain ⟨-, hall, -⟩ := hb
    rw [hhnd, ← expandFields_length v]
    exact hall _ (List.mem_of_getElem? hf)
  obtain ⟨t, hexec, hended, -⟩ := frameAtAnswersTheFrame s k _ _ v fields hs (by rw [hhnd]) (hcount ▸ hk)
    (hentry hk) (fun hlt => hentry (hcount ▸ hlt)) hlast (by omega) (hlen ▸ frameOffset_le ..) hslice hfields hsum
  exact ⟨t, hexec, hended⟩

/-- Settles O57: the open handle is that of the built blob; a frame that is there is answered, and an index past the
frames is out of range (O38). -/
theorem randomAccessGivesTheFrames : Obligations.RandomAccessGivesTheFrames := by
  intro s t s' t' u w h r blob k _ hs' hu hbuild hresp hB hopen hhnd
  obtain ⟨hb, rfl⟩ := buildable_of_exec hbuild hresp
  obtain rfl := Host.Outcome.next.inj (hopen.symm.trans (execOpenBlob_blobOf hb hs'.1 hB))
  rw [deliver_hnd] at hhnd
  rcases hk : s.operand.pixIn[k.toNat]? with _ | F
  · have hpast : u.hnd.fcount.toNat ≤ k.toNat := by
      rw [hhnd]
      exact hb.count_toNat.trans_le (List.getElem?_eq_none_iff.mp hk)
    obtain ⟨-, hindex⟩ := frameAtChecksHandleThenIndex u k hu
    exact ⟨_, hindex (by rw [hhnd]) hpast, fun _ hF => (by cases hF), fun _ => ⟨rfl, rfl⟩⟩
  · obtain ⟨u', hexec, hcode, hans, -⟩ := exec_frameat_builtHandle hb hu hhnd hk
    refine ⟨u', hexec, fun G hG => ?_, fun hnone => (by cases hnone)⟩
    obtain rfl := Option.some.inj hG
    exact ⟨hcode, hans⟩

end Built

end Sys2Proof.Machine
end

section
/-! PROOFS. Faults: which codes an operation raises, what a fault leaves of the state, and that the outcome of the last
command plays no part in the next (O45, O46, O47). -/

namespace Sys2Proof.Machine

open Sys2Proof

variable {s t : State}

/-! ### The codes of an operation -/

/-- The fault codes an operation can end with (R272). An element or a record runs only inside an operation. -/
def faultCodes : Instr → List Code
  | .encode => [.commandError]
  | .decode _ => [.formatError, .commandError]
  | .build _ _ _ => [.dimensionError, .capacityError]
  | .openBlob => [.formatError, .commandError]
  | .frameat _ => [.formatError, .indexError, .commandError]
  | .mark _ => []
  | .run _ => []
  | .hdr _ _ _ _ _ => []
  | .idx _ => []

theorem buildCheck_codes {frames : List (List Pixel)} {w h : U16} {c : Code} (hc : buildCheck frames w h = some c) :
    c = .dimensionError ∨ c = .capacityError := by
  unfold buildCheck at hc
  split at hc
  · exact .inl (Option.some.inj hc).symm
  · split at hc
    · exact .inl (Option.some.inj hc).symm
    · split at hc
      · exact .inr (Option.some.inj hc).symm
      · cases hc

theorem buildBlob_codes {frames : List (List Pixel)} {w h r : U16} {c : Code}
    (hb : buildBlob frames w h r = .error c) : c = .dimensionError ∨ c = .capacityError := by
  unfold buildBlob at hb
  split at hb
  · cases hb; exact buildCheck_codes ‹_›
  · split at hb
    · cases hb; exact .inr rfl
    · cases hb

theorem frameAtCheck_codes {h : Handle} {k : U32} {c : Code} (hc : frameAtCheck h k = some c) :
    c = .indexError ∨ c = .commandError := by
  unfold frameAtCheck at hc
  split at hc
  · exact .inr (Option.some.inj hc).symm
  · split at hc
    · exact .inl (Option.some.inj hc).symm
    · cases hc

theorem frameAt_codes {h : Handle} {k : U32} {c : Code} (hx : frameAt h k = .error c) :
    c = .formatError ∨ c = .indexError ∨ c = .commandError := by
  unfold frameAt at hx
  split at hx
  · cases hx; exact .inr (frameAtCheck_codes ‹_›)
  · repeat' split at hx
    all_goals cases hx
    all_goals exact .inl rfl

theorem openBlob_ends (blob : List Byte) (s : State) :
    (openBlob blob s).status = .ok ∨ openBlob blob s = raise .formatError s := by
  obtain ⟨x, -, heq⟩ | ⟨-, heq⟩ := openBlob_cases blob s
  · rw [heq]
    obtain ⟨-, -, -, heq⟩ | ⟨-, heq⟩ :=
      admitHeader_cases x.width x.height x.frameCount x.frameRate x.flags blob s
    · exact .inl (by rw [heq, deliver_status])
    · exact .inr heq
  · exact .inr heq

/-- Between operations no unit awaits an element or a record, so only an operation runs (R113, R170). -/
theorem format_of_exec_idle {i : Instr} (hf : s.flight = .idle) (h : exec i s = .next t) : i.format = .cmd := by
  cases i with
  | encode => rfl
  | decode n => rfl
  | build width height rate => rfl
  | openBlob => rfl
  | frameat index => rfl
  | mark v =>
    obtain ⟨⟨fa, n, slice, out, hd⟩, -⟩ := execMark_next h
    simp [hf] at hd
  | run len =>
    obtain ⟨fa, n, slice, out, hd, -⟩ := execRun_next h
    simp [hf] at hd
  | hdr width height frameCount frameRate flags =>
    obtain ⟨blob, hd, -⟩ := execHdr_next h
    simp [hf] at hd
  | idx offset =>
    obtain ⟨index, hd, -⟩ | ⟨index, hd, -⟩ | ⟨index, hd, -⟩ := execIdx_next h <;> simp [hf] at hd

/-- Between operations an instruction ends `OK`, or it is the entry of one of its faults in the state it began in. -/
theorem exec_ok_or_raise {i : Instr} (hf : s.flight = .idle) (h : exec i s = .next t) :
    t.status = .ok ∨ ∃ c ∈ faultCodes i, t = raise c s := by
  have hi := format_of_exec_idle hf h
  cases i with
  | encode =>
    obtain ⟨-, ⟨f, -, rfl⟩ | ⟨-, rfl⟩⟩ := execEncode_next h
    · exact .inl rfl
    · exact .inr ⟨_, by simp [faultCodes], rfl⟩
  | decode n =>
    obtain ⟨-, ⟨B, -, -, ⟨px, -, rfl⟩ | ⟨-, rfl⟩⟩ | ⟨-, rfl⟩⟩ := execDecode_next h
    · exact .inl rfl
    · exact .inr ⟨_, by simp [faultCodes], rfl⟩
    · exact .inr ⟨_, by simp [faultCodes], rfl⟩
  | build width height rate =>
    obtain ⟨-, ⟨blob, -, rfl⟩ | ⟨c, hb, rfl⟩⟩ := execBuild_next h
    · exact .inl rfl
    · exact .inr ⟨c, by simpa [faultCodes] using buildBlob_codes hb, rfl⟩
  | openBlob =>
    obtain ⟨-, ⟨blob, -, -, rfl⟩ | ⟨-, rfl⟩⟩ := execOpenBlob_next h
    · exact (openBlob_ends blob s).imp_right fun heq => ⟨_, by simp [faultCodes], heq⟩
    · exact .inr ⟨_, by simp [faultCodes], rfl⟩
  | frameat index =>
    obtain ⟨-, ⟨px, -, rfl⟩ | ⟨c, hx, rfl⟩⟩ := execFrameat_next h
    · exact .inl rfl
    · exact .inr ⟨c, by simpa [faultCodes] using frameAt_codes hx, rfl⟩
  | mark v => cases hi
  | run len => cases hi
  | hdr width height frameCount frameRate flags => cases hi
  | idx offset => cases hi

/-- The codes an operation ends with (R272). -/
theorem exec_status {i : Instr} (hf : s.flight = .idle) (h : exec i s = .next t) :
    t.status = .ok ∨ t.status ∈ faultCodes i := by
  obtain hok | ⟨c, hc, rfl⟩ := exec_ok_or_raise hf h
  · exact .inl hok
  · exact .inr hc

/-- Settles O46: a row of R272 is what `faultCodes` lists for its operation. -/
theorem faultMatrix : Obligations.FaultMatrix := by
  rintro s t ⟨hf, -⟩
  refine ⟨fun h => ?_, fun n h => ?_, fun w ht r h => ?_, fun h => ?_, fun k h => ?_⟩ <;>
    simpa [faultCodes] using exec_status hf h

/-! ### What a fault leaves -/

/-- An operation that does not end `OK` leaves the state it began in but for its outcome (R268). -/
theorem exec_fault_precise {i : Instr} (hs : s.UnitsIdle) (h : exec i s = .next t) (hne : t.status ≠ .ok) :
    t = s.faulted t.status := by
  obtain hok | ⟨c, -, rfl⟩ := exec_ok_or_raise hs.1 h
  · exact absurd hok hne
  · exact raise_of_unitsIdle c hs

/-- A command that does not end `OK`, legal or not, leaves the state that has taken it from its channel but for its
outcome (R268, R93). -/
theorem step_command_fault_precise {r : Request} {later : List Input} (hs : s.UnitsIdle)
    (hin : s.input = .command r :: later) (h : step s = .next t) (hne : t.status ≠ .ok) :
    t = (s.quiet.accept r later).faulted t.status := by
  have hs' : (s.quiet.accept r later).UnitsIdle := hs
  rcases hd : decodeCmd r.word with e | i
  · rw [step_illegal_command hs.1 hin hd] at h
    cases h
    exact raise_of_unitsIdle .commandError hs'
  · rw [step_command hs.1 hin hd] at h
    exact exec_fault_precise hs' h hne

/-- Settles O45: a fault is the one fault entry, in the state the operation began in; a command began where it had been
taken from its channel, and its operand goes with it. -/
theorem faultsArePrecise : Obligations.FaultsArePrecise := by
  refine ⟨fun i s t hs h hne => exec_fault_precise hs h hne, fun s t r later hs ho hin h hne => ?_⟩
  rw [step_command_fault_precise hs hin h hne, State.faulted, ← ho]
  rfl

/-! ### The outcome of the last command -/

section Overwrites

variable (c : Code) (q : Option Response) (s : State)

/-- The end of an operation overwrites the status and the response that stood before it (R270). -/
theorem respond_overwrites (c' : Code) (r : Result) :
    respond c' r { s with status := c, response := q } = respond c' r s := by
  rcases hf : s.flight with _ | _ | ⟨_ | _, _, _, _⟩ | _ | _ | _ <;> simp only [respond, State.release, hf] <;> rfl

theorem raise_overwrites (c' : Code) : raise c' { s with status := c, response := q } = raise c' s :=
  respond_overwrites c q s c' .none

theorem deliver_overwrites (r : Result) : deliver r { s with status := c, response := q } = deliver r s :=
  respond_overwrites c q s .ok r

theorem whenIdle_overwrites {k k' : Host.Outcome State Fault Refusal} (hk : k = k') :
    whenIdle { s with status := c, response := q } k = whenIdle s k' := by
  simp only [whenIdle, hk]

theorem withFrame_overwrites {k k' : List Pixel → Host.Outcome State Fault Refusal} (hk : ∀ f, k f = k' f) :
    withFrame { s with status := c, response := q } k = withFrame s k' := by
  simp only [withFrame, raise_overwrites, hk]

theorem withBytes_overwrites {k k' : List Byte → Host.Outcome State Fault Refusal} (hk : ∀ B, k B = k' B) :
    withBytes { s with status := c, response := q } k = withBytes s k' := by
  simp only [withBytes, raise_overwrites, hk]

theorem admitHeader_overwrites (w h : U16) (fc : U32) (fr fl : U16) (blob : List Byte) :
    admitHeader w h fc fr fl blob { s with status := c, response := q } = admitHeader w h fc fr fl blob s :=
  if_congr Iff.rfl (raise_overwrites ..) <| if_congr Iff.rfl (raise_overwrites ..) <|
    if_congr Iff.rfl (raise_overwrites ..)
      (deliver_overwrites c q { s with hnd := committed w h fc fr fl blob } .none)

theorem openBlob_overwrites (blob : List Byte) :
    openBlob blob { s with status := c, response := q } = openBlob blob s := by
  simp only [openBlob, raise_overwrites, admitHeader_overwrites]

/-- An operation does the same whatever the last status and response were: it looks at neither, and its end overwrites
both (R32, R270). -/
theorem exec_overwrites {i : Instr} (hi : i.format = .cmd) :
    exec i { s with status := c, response := q } = exec i s := by
  cases i with
  | encode =>
    exact whenIdle_overwrites c q s <| withFrame_overwrites c q s fun f =>
      congrArg Host.Outcome.next (deliver_overwrites c q s.freeEnc _)
  | decode n =>
    refine whenIdle_overwrites c q s <| withBytes_overwrites c q s fun B => ?_
    rcases decodeFrame B n.toNat with _ | px
    · exact congrArg Host.Outcome.next (raise_overwrites c q s _)
    · exact congrArg Host.Outcome.next (deliver_overwrites c q s.freeDec _)
  | build width height rate =>
    refine whenIdle_overwrites c q s ?_
    rcases buildBlob s.operand.pixIn width height rate with e | blob
    · exact congrArg Host.Outcome.next (raise_overwrites c q s e)
    · exact congrArg Host.Outcome.next (deliver_overwrites c q s.freeSer.freeEnc _)
  | openBlob =>
    exact whenIdle_overwrites c q s <| withBytes_overwrites c q s fun blob =>
      congrArg Host.Outcome.next (openBlob_overwrites c q s blob)
  | frameat index =>
    refine whenIdle_overwrites c q s ?_
    rcases frameAt s.hnd index with e | px
    · exact congrArg Host.Outcome.next (raise_overwrites c q s e)
    · exact congrArg Host.Outcome.next (deliver_overwrites c q s.freeDec.freeRdr _)
  | mark v => cases hi
  | run len => cases hi
  | hdr width height frameCount frameRate flags => cases hi
  | idx offset => cases hi

end Overwrites

/-- Settles O47: between operations only an operation runs, and what it does is one equation. -/
theorem faultDoesNotLatch : Obligations.FaultDoesNotLatch := fun _ s _ c q hs h =>
  (exec_overwrites c q s (format_of_exec_idle hs.1 h)).trans h

end Sys2Proof.Machine
end

section
/-! PROOFS. Every operation in progress ends with a response (O60): wherever the units of an operation stand in the
invariant, their steps come to its answer. -/

namespace Sys2Proof.Machine

open Sys2Proof

variable {s : State}

/-! ### ENCODE -/

/-- `ENC` at work comes to `DONE` from each of its states (R139 to R145). -/
theorem exists_encEmits {e : Enc} (hi : e.st ≠ .idle) (rest : List Pixel) (out : List Byte) :
    ∃ B, EncEmits e rest out B := by
  rcases e with ⟨st, val, cnt, nxt, fin⟩
  cases st with
  | idle => exact absurd rfl hi
  | accumulating => exact ⟨_, encEmits_scan rest val cnt nxt fin out⟩
  | flush =>
    cases fin with
    | true => exact ⟨_, .step nofun nofun (.done rfl)⟩
    | false => exact ⟨_, .step nofun nofun (encEmits_scan rest nxt 1 nxt false _)⟩
  | overflowSplit => exact ⟨_, .step nofun nofun (encEmits_scan rest val 1 nxt fin _)⟩
  | done => exact ⟨out, .done rfl⟩

/-- The first step of `ENC` takes it out of `IDLE` (R138, R139). -/
theorem encStep_ne_idle {e : Enc} (he : e.st = .idle) (rest : List Pixel) (out : List Byte) :
    (encStep e rest out).1.st ≠ .idle := by
  cases rest <;> simp [encStep, he]

/-- An ENCODE in progress ends, wherever `ENC` stands. -/
theorem exists_encoding_ends {rest : List Pixel} {out : List Byte} (hw : s.Working)
    (hf : s.flight = .encoding rest out) : ∃ a, s.Ends a := by
  by_cases he : s.enc.st = .idle
  · obtain ⟨B, hB⟩ := exists_encEmits (encStep_ne_idle he rest out) (encStep s.enc rest out).2.1
      (encStep s.enc rest out).2.2
    refine ⟨_, .of_step ?_ (hB.encoding_ends hw)⟩
    rw [step_encoding hw hf, stepEncoding_of_not_done (by simp [he])]
  · obtain ⟨B, hB⟩ := exists_encEmits he rest out
    have hend := hB.encoding_ends hw
    rw [← hf] at hend
    exact ⟨_, hend⟩

/-! ### DECODE and FRAMEAT -/

/-- A decode in progress ends, wherever `DEC` stands in the loop invariants of R161. -/
theorem exists_decoding_ends {fa : Bool} {n : U32} {slice : List Byte} {px : List Pixel} (hi : s.Inv) (hw : s.Working)
    (hf : s.flight = .decoding fa n slice px) : ∃ a, s.Ends a := by
  obtain ⟨hl, hd⟩ := hi.dec hf
  have hdec : s.Decoding n slice _ _ := ⟨fa, px, hf, hd, rfl, le_rfl⟩
  obtain ⟨j, t, -, hrun, ht⟩ := hdec.answered_within hl hw
  exact ⟨_, j, t, hrun, ht⟩

/-- A FRAMEAT that searches its slice ends, whichever index entry is next. -/
theorem exists_seeking_ends {index : U32} {entry : Entry} (hi : s.Inv) (hw : s.Working)
    (hf : s.flight = .seeking index entry) : ∃ a, s.Ends a := by
  obtain ⟨-, hu, -⟩ := hi
  simp only [State.UnitsInv, hf] at hu
  obtain ⟨-, hd, -, -, -, -, hlen, -⟩ := hu
  cases entry with
  | start => exact ⟨_, seeking_start_ends hw hf hd hlen⟩
  | stop => exact ⟨_, seeking_stop_ends hw hf hd⟩

/-! ### BUILD -/

section Building

variable {b : Building}

/-- What a BUILD answers whose `ENC` is done with `b.cur`, to the frames `fs` that follow it: the frame is entered and
the others encoded, or it passes the capacity (R193, R198). -/
def enteredAnswer (h : Handle) (b : Building) (off : Nat) (fs : List (List Pixel)) : Answer :=
  if off + b.cur.length > Config.u32Max then .fault .capacityError h
  else
    encodedAnswer h { b with cur := [], encoded := b.encoded ++ [b.cur], offsets := b.offsets ++ [off] }
      (off + b.cur.length) fs

/-- With a frame encoded a BUILD ends as its bytes and the frames that follow say (R193, R198). -/
theorem building_frame_done_ends (hw : s.Working) (hf : s.flight = .building b) (hp : s.ser.phase = .encode)
    (hst : s.enc.st = .done) (hs : s.ser.Inv s.operand.pixIn b) (hlt : b.encoded.length < s.operand.pixIn.length) :
    s.Ends (enteredAnswer s.hnd b s.ser.off.toNat (s.operand.pixIn.drop (b.encoded.length + 1))) := by
  have hstep := step_frame_done hw hf hp hst
  unfold enteredAnswer
  by_cases hover : s.ser.off.toNat + b.cur.length > Config.u32Max
  · rw [if_pos hover] at hstep ⊢
    exact .of_raise hstep
  · rw [if_neg hover] at hstep ⊢
    have hoff : (s.ser.off + BitVec.ofNat 33 b.cur.length).toNat = s.ser.off.toNat + b.cur.length := by
      simp only [Config.u32Max] at hover; bv_omega
    rw [← hoff]
    exact .of_step hstep (building_encode_ends _ hw rfl rfl rfl (hs.enter_frame hp hlt (not_lt.mp hover)) (by simp))

/-- In phase `ENCODE` a BUILD ends, wherever `ENC` stands in a frame. -/
theorem exists_building_encode_ends (hw : s.Working) (hf : s.flight = .building b) (hp : s.ser.phase = .encode)
    (hs : s.ser.Inv s.operand.pixIn b) (hlt : s.enc.st ≠ .idle → b.encoded.length < s.operand.pixIn.length) :
    ∃ a, s.Ends a := by
  by_cases he : s.enc.st = .idle
  · exact ⟨_, building_encode_ends _ hw hf hp he hs rfl⟩
  · obtain ⟨B, hB⟩ := exists_encEmits he b.rest b.cur
    have hdone (e' : Enc) (rest' : List Pixel) (hst : e'.st = .done) := building_frame_done_ends
      (s := { s with enc := e', flight := .building { b with rest := rest', cur := B } }) hw rfl hp hst hs (hlt he)
    have hend := hB.building_ends (a := enteredAnswer s.hnd { b with cur := B } s.ser.off.toNat
      (s.operand.pixIn.drop (b.encoded.length + 1))) hw hp hdone
    rw [← hf] at hend
    exact ⟨_, hend⟩

/-- In the phases that emit the blob there is one offset per frame, and not too many (R196, R198). -/
theorem Ser.Inv.offsets_length_le_of_emit {r : Ser} {frames : List (List Pixel)} (h : r.Inv frames b)
    (hc : r.phase ≠ .check) (he : r.phase ≠ .encode) : b.offsets.length ≤ Config.u32Max := by
  have hcount := h.encoded_length hc he
  obtain ⟨-, hlen, -, -, hafter, -⟩ := h
  obtain ⟨-, hfl, -⟩ := hafter hc
  omega

/-- A BUILD in progress ends, in whatever phase SER is (R204). -/
theorem exists_building_ends (hi : s.Inv) (hw : s.Working) (hf : s.flight = .building b) : ∃ a, s.Ends a := by
  obtain ⟨-, hu, -⟩ := hi
  simp only [State.UnitsInv, hf] at hu
  obtain ⟨-, he, -, hs, hlt⟩ := hu
  cases hp : s.ser.phase with
  | idle =>
    obtain ⟨hne, -⟩ := hs
    exact absurd hp hne
  | check => exact ⟨_, building_check_ends _ hw hf hp (he (by simp [hp])) hs rfl⟩
  | encode => exact exists_building_encode_ends hw hf hp hs hlt
  | emitHdr =>
    exact ⟨_, building_emitHdr_ends hw hf hp (hs.offsets_length_le_of_emit (by simp [hp]) (by simp [hp]))⟩
  | emitIdx =>
    exact ⟨_, building_emitIdx_ends _ hw hf hp rfl (hs.offsets_length_le_of_emit (by simp [hp]) (by simp [hp]))⟩
  | emitData => exact ⟨_, building_emitData_ends hw hf hp⟩
  | done => exact ⟨_, building_done_ends hw hf hp⟩

end Building

/-! ### Every operation -/

/-- With an operation in progress and no reset arriving, the block works on it: no response is on its channel (R26). -/
theorem State.Inv.working (hi : s.Inv) (hf : s.flight ≠ .idle) (hr : s.input.head? ≠ some .reset) : s.Working := by
  obtain ⟨-, -, -, hresp⟩ := hi
  refine ⟨hr, Option.eq_none_iff_forall_ne_some.mpr fun r h => ?_⟩
  obtain ⟨hidle, -⟩ := hresp r h
  exact hf hidle

/-- An operation in progress comes to an answer (R311). -/
theorem State.Inv.exists_ends (hi : s.Inv) (hw : s.Working) (hf : s.flight ≠ .idle) : ∃ a, s.Ends a := by
  cases hfl : s.flight with
  | idle => exact absurd hfl hf
  | encoding rest out => exact exists_encoding_ends hw hfl
  | decoding fa n slice px => exact exists_decoding_ends hi hw hfl
  | opening blob => exact ⟨_, opening_ends hw hfl⟩
  | seeking index entry => exact exists_seeking_ends hi hw hfl
  | building b => exact exists_building_ends hi hw hfl

/-- Settles O60: the units of the operation come to its answer, and since it was in progress that takes a step. -/
theorem everyOperationEnds : Obligations.EveryOperationEnds := by
  intro s hi hf hr
  obtain ⟨a, k, t, hrun, -, hresp, -, ⟨hidle, -⟩, hin, -⟩ := hi.exists_ends (hi.working hf hr) hf
  have hk : k ≠ 0 := by
    rintro rfl
    cases hrun
    exact hf hidle
  exact ⟨k, t, Nat.pos_of_ne_zero hk, hrun, hidle, hin, by simp [hresp]⟩

end Sys2Proof.Machine
end
